-- ==== Sys2Proof/Word.lean ====
section
/-! DEFINITION. The plain data the block works on: bytes, bit strings, tokens, code trees, error kinds,
container forms (spec 00_scope.md section 6.3, 30_encoding.md sections 1.2, 1.3, 5; 60_exceptions.md R170). -/

namespace Sys2Proof

/-- A byte, 0 to 255 (00_scope.md section 6.1). -/
abbrev Byte := BitVec 8

/-- A bit string; the head is the bit written first and read first (00_scope.md section 6.1). -/
abbrev Bits := List Bool

/-- `Token = (flag, payload)` (00_scope.md section 6.3): flag 0 is a literal, a flag above 0 a distance. -/
structure Token where
  flag : Nat
  payload : Nat
  deriving DecidableEq, Repr, Inhabited

/-- `Tree = Leaf(flag) | Internal(left, right)` (00_scope.md section 6.3). -/
inductive Tree where
  | leaf (flag : Nat)
  | internal (left right : Tree)
  deriving DecidableEq, Repr, Inhabited

/-- `CodeTree = EMPTY | Tree`; `none` is `EMPTY` (00_scope.md section 6.3). -/
abbrev CodeTree := Option Tree

/-- The five error kinds, in the order of 60_exceptions.md R170 and R171. -/
inductive ErrKind where
  | matchBounds
  | treeLookup
  | malformedHeader
  | decodeUnderrun
  | truncatedStream
  deriving DecidableEq, Repr, Inhabited

/-- The forms found inside a container: the formats `TOKEN`, `NODE` and the two `FIELD` rows of the opcode
table (30_encoding.md R84). -/
inductive Form where
  | token
  | node
  | structSize
  | pad
  deriving DecidableEq, Repr, Inhabited

end Sys2Proof
end

