-- ==== Sys2Proof/Config.lean ====
section
/-! DEFINITION. What an implementation fixes (the tunables and what derives from them, 00_scope.md R10 to R13)
and the free values: what the spec leaves undefined after an error (60_exceptions.md R178) and in a field too narrow for its
value. -/

namespace Sys2Proof

/-- `CFG = (LENGTH_BITS, WINDOW_BITS)` (00_scope.md R15, 10_state.md R34). -/
structure Cfg where
  lengthBits : Nat
  windowBits : Nat
  deriving DecidableEq, Repr, Inhabited

/-- This hardware's configuration, (8, 16) (00_scope.md R10, R11). -/
def Cfg.default : Cfg := ⟨8, 16⟩

/-- `LENGTH_SIZE = 2^LENGTH_BITS` (R10). -/
def Cfg.lengthSize (c : Cfg) : Nat := 2 ^ c.lengthBits

/-- `MAX_LEN = LENGTH_SIZE - 1` (R12, conflict C1). -/
def Cfg.maxLen (c : Cfg) : Nat := c.lengthSize - 1

/-- `WINDOW_SIZE = 2^WINDOW_BITS` (R11). -/
def Cfg.windowSize (c : Cfg) : Nat := 2 ^ c.windowBits

/-- `MAX_DIST = WINDOW_SIZE - 1` (R12, conflict C2). -/
def Cfg.maxDist (c : Cfg) : Nat := c.windowSize - 1

/-- `STRUCT_SIZE_BITS = 64` (R13). -/
def structSizeBits : Nat := 64

/-- One set of values for the elements that "hold no defined value" after an error (R178c, D31).
`flags` stands for the frequency table: the table that counts this list (any table is the count of some list). -/
structure Undefined where
  obuf : List Byte
  tok : List Token
  flags : List Nat
  tree : CodeTree
  pos : Nat
  dist : Nat
  len : Nat
  flag : Nat
  code : Bits
  sb : Bits
  si : Nat
  lv : List Nat
  w : Bits
  rp : Nat
  deriving DecidableEq, Repr, Inhabited

/-- The free values: what the undefined elements hold after the `k`-th error. It has no body, so no proof
can see a value of it. DESIGN CHOICE, safe (log entry 6; 60_exceptions.md R178c, D31, U18). -/
opaque Config.undefinedAfter : Nat → Undefined

/-- The free values: what a field of `n` bits holds where a value of `2^n` or more was put into it. No rule gives one:
`u_N(v)` is not defined for it (00_scope.md section 6.1) and a field is never truncated (20_memory.md R49). It has no
body. DESIGN CHOICE, safe (log entries 18, 19). -/
opaque Config.unheldField : Nat → Nat → Nat

end Sys2Proof
end

