-- ==== Sys2Proof/Syntax.lean ====
section
/-! DEFINITION. The instructions: one constructor per row of spec/opcode_table.json. A command has no operand
in its word (30_encoding.md R81); a token, a node and a field carry the operand their bits hold. -/

namespace Sys2Proof

/-- The sixteen rows of the opcode table: ten commands (R81), two token forms (R68, R69), two node forms (R70),
two container fields (R61, R65). -/
inductive Instr where
  | find
  | tokenize
  | detokenize
  | build
  | getcode
  | serialize
  | header
  | deserialize
  | encode
  | decode
  /-- `LIT p`: the token `(0, p)` (R68). -/
  | lit (payload : Nat)
  /-- `COPY d, l`: the token `(d, l)` with `d > 0` (R69). -/
  | copy (distance length : Nat)
  /-- structure bit 1 (R70). -/
  | internal
  /-- structure bit 0 and its leaf value (R70). -/
  | leaf (value : Nat)
  /-- the 64-bit field `struct_size` (R61). -/
  | structSize (size : Nat)
  /-- the 0 to 7 zero padding bits (R65). -/
  | pad
  deriving DecidableEq, Repr, Inhabited

end Sys2Proof
end

