-- ==== Sys2Proof/WellFormed.lean ====
section
/-! DEFINITION. What is well formed: a configuration (00_scope.md R14) and an instruction under it (each operand
fits its field: 30_encoding.md R61, R63, R67 to R70). -/

namespace Sys2Proof

/-- R14: (a) `LENGTH_BITS >= 8`; (b) `1 <= WINDOW_BITS <= 62`; (c) `(65 + WINDOW_BITS + k * LENGTH_BITS) mod 8`
is not 0 for every `k >= 1`. The remainder has period 8 in `k`, so `k` = 1 to 8 are all the cases. -/
def Cfg.wf (c : Cfg) : Bool :=
  decide (8 ≤ c.lengthBits) && decide (1 ≤ c.windowBits) && decide (c.windowBits ≤ 62) &&
    (List.range 8).all fun j => (65 + c.windowBits + (j + 1) * c.lengthBits) % 8 != 0

/-- Every operand fits its field under the configuration. -/
def Instr.wf (c : Cfg) : Instr → Bool
  | .find => true
  | .tokenize => true
  | .detokenize => true
  | .build => true
  | .getcode => true
  | .serialize => true
  | .header => true
  | .deserialize => true
  | .encode => true
  | .decode => true
  | .lit p => decide (p < c.lengthSize)
  | .copy d l => decide (0 < d) && decide (d < c.windowSize) && decide (l < c.lengthSize)
  | .internal => true
  | .leaf v => decide (v < c.windowSize)
  | .structSize s => decide (s < 2 ^ structSizeBits)
  | .pad => true

end Sys2Proof
end

