-- ==== Sys2Proof/Decode.lean ====
section
/-! DEFINITION. Bit fields and byte packing (00_scope.md section 6.1, 20_memory.md R42, R44), the bit reader
(40_bitstream.md R89, R90), the decoder of every format (30_encoding.md R61, R65, R67 to R72, R81, R84), and the
encoder written from the same tables. -/

namespace Sys2Proof

/-! ## Fields -/

/-- `u_N(v)`: the `N`-bit string of `v`, most significant bit first (00_scope.md section 6.1). -/
def uN : Nat → Nat → Bits
  | 0, _ => []
  | n + 1, v => (v / 2 ^ n % 2 == 1) :: uN n v

/-- `val(b)`: the natural a bit string holds, most significant bit first (00_scope.md section 6.1). -/
def bval : Bits → Nat
  | [] => 0
  | b :: bs => (if b then 2 ^ bs.length else 0) + bval bs

/-- The bits of a byte, most significant first (20_memory.md R44). -/
def byteBits (b : Byte) : Bits := uN 8 b.toNat

/-- A byte sequence seen as a bit string (40_bitstream.md R89). -/
def bitsOf : List Byte → Bits
  | [] => []
  | b :: bs => byteBits b ++ bitsOf bs

/-- Eight bits to a byte, the first the most significant; a rest of fewer than eight bits is not packed
(40_bitstream.md R88 requires a multiple of 8). -/
def packBits : Bits → List Byte
  | b0 :: b1 :: b2 :: b3 :: b4 :: b5 :: b6 :: b7 :: rest =>
    BitVec.ofNat 8 (bval [b0, b1, b2, b3, b4, b5, b6, b7]) :: packBits rest
  | _ => []

/-- `p = (8 - (n mod 8)) mod 8`: how many padding bits follow `n` bits (40_bitstream.md R87, 30_encoding.md R65). -/
def padLength (n : Nat) : Nat := (8 - n % 8) % 8

/-! ## The bit reader -/

/-- The bit reader: the cursor `RP` and the bits not read yet. -/
structure Reader where
  rp : Nat
  unread : Bits
  deriving DecidableEq, Repr, Inhabited

/-- `BitRemaining()` (R89). -/
def Reader.remaining (r : Reader) : Nat := r.unread.length

/-- `BitRead(n)` (R90); `none` where fewer than `n` bits remain, which no caller lets happen unanswered. -/
def Reader.read (n : Nat) (r : Reader) : Option (Bits × Reader) :=
  if n ≤ r.remaining then some (r.unread.take n, ⟨r.rp + n, r.unread.drop n⟩) else none

/-- `if BitRemaining() < n: raise e` and then `val(BitRead(n))`. -/
def Reader.field (n : Nat) (e : ErrKind) (r : Reader) : Except ErrKind (Nat × Reader) :=
  match r.read n with
  | none => .error e
  | some (b, r') => .ok (bval b, r')

/-! ## Decoding, one format each -/

/-- Why the command decoder refuses a code (R82). A container form is refused by its error kind. -/
inductive DecodeError where
  | reservedCommand (code : BitVec 4)
  deriving DecidableEq, Repr

/-- The command codes of R81; every other code is reserved (R82). -/
def decodeCommand (code : BitVec 4) : Except DecodeError Instr :=
  match code.toNat with
  | 1 => .ok .find
  | 2 => .ok .tokenize
  | 3 => .ok .detokenize
  | 4 => .ok .build
  | 5 => .ok .getcode
  | 6 => .ok .serialize
  | 7 => .ok .header
  | 8 => .ok .deserialize
  | 9 => .ok .encode
  | 10 => .ok .decode
  | _ => .error (.reservedCommand code)

/-- The tree walk (R72; 45_container.md R158, R159): 0 goes left, 1 right, until a leaf. -/
def walk : Tree → Reader → Except ErrKind (Nat × Reader)
  | .leaf f, r => .ok (f, r)
  | .internal left right, r =>
    match r.unread with
    | [] => .error .truncatedStream
    | true :: rest => walk right ⟨r.rp + 1, rest⟩
    | false :: rest => walk left ⟨r.rp + 1, rest⟩

/-- One token: the walk, then the payload (45_container.md R155, the loop's body; R160 for `EMPTY`). -/
def decodeToken (c : Cfg) (tree : CodeTree) (r : Reader) : Except ErrKind (Token × Reader) :=
  match tree with
  | none => .error .malformedHeader
  | some t =>
    match walk t r with
    | .error e => .error e
    | .ok (f, r1) =>
      match r1.field c.lengthBits .truncatedStream with
      | .error e => .error e
      | .ok (p, r2) => .ok (⟨f, p⟩, r2)

/-- One tree node (44_treecodec.md R142, the first lines of `parse`): `none` is INTERNAL, `some v` is LEAF `v`;
with the structure bits left and the reader. -/
def decodeNode (c : Cfg) (sb : Bits) (r : Reader) : Except ErrKind (Option Nat × Bits × Reader) :=
  match sb with
  | [] => .error .malformedHeader
  | true :: rest => .ok (none, rest, r)
  | false :: rest =>
    match r.field c.windowBits .malformedHeader with
    | .error e => .error e
    | .ok (v, r') => .ok (some v, rest, r')

/-- The field `struct_size` (R61; 44_treecodec.md R142). -/
def decodeStructSize (r : Reader) : Except ErrKind (Nat × Reader) :=
  r.field structSizeBits .malformedHeader

/-- Flag 0 makes a literal, any other flag a copy (R68, R69, R84). -/
def Token.instr (t : Token) : Instr :=
  if t.flag = 0 then .lit t.payload else .copy t.flag t.payload

/-- A node as an instruction (R70). -/
def nodeInstr : Option Nat → Instr
  | none => .internal
  | some v => .leaf v

/-- The decoder of the four container forms: the instruction, the structure bits left and the reader. Padding is
not read: the decoder ignores residual bits (R78). -/
def decodeForm (c : Cfg) (tree : CodeTree) (form : Form) (sb : Bits) (r : Reader) :
    Except ErrKind (Instr × Bits × Reader) :=
  match form with
  | .token =>
    match decodeToken c tree r with
    | .error e => .error e
    | .ok (t, r') => .ok (t.instr, sb, r')
  | .node =>
    match decodeNode c sb r with
    | .error e => .error e
    | .ok (n, sb', r') => .ok (nodeInstr n, sb', r')
  | .structSize =>
    match decodeStructSize r with
    | .error e => .error e
    | .ok (s, r') => .ok (.structSize s, sb, r')
  | .pad => .ok (.pad, sb, r)

/-! ## Encoding -/

/-- `path(flag, tree)` of 43_treebuilder.md R128: the left subtree is searched first (D15). -/
def pathOf (flag : Nat) : Tree → Option Bits
  | .leaf g => if g = flag then some [] else none
  | .internal left right =>
    match pathOf flag left with
    | some a => some (false :: a)
    | none =>
      match pathOf flag right with
      | some b => some (true :: b)
      | none => none

/-- `path` on a code tree: on `EMPTY` every flag is absent (R128, R130). -/
def codeOf (flag : Nat) : CodeTree → Option Bits
  | none => none
  | some t => pathOf flag t

/-- `code(flag) ++ u_LENGTH_BITS(payload)` (30_encoding.md R67). -/
def tokenBits (c : Cfg) (tree : CodeTree) (t : Token) : Option Bits :=
  match codeOf t.flag tree with
  | none => none
  | some code => some (code ++ uN c.lengthBits t.payload)

/-- The words of an instruction: a command code, or the bits a form puts into the structure field and into the
container's main stream. -/
inductive Encoding where
  | command (code : BitVec 4)
  | container (form : Form) (sbits main : Bits)
  deriving DecidableEq, Repr

/-- The encoder (R61, R65, R67 to R70, R81). A token is coded under `tree` (none where its flag has no code);
`written` is how many bits stand before padding. -/
def encode (c : Cfg) (tree : CodeTree) (written : Nat) : Instr → Option Encoding
  | .find => some (.command 1)
  | .tokenize => some (.command 2)
  | .detokenize => some (.command 3)
  | .build => some (.command 4)
  | .getcode => some (.command 5)
  | .serialize => some (.command 6)
  | .header => some (.command 7)
  | .deserialize => some (.command 8)
  | .encode => some (.command 9)
  | .decode => some (.command 10)
  | .lit p => (tokenBits c tree ⟨0, p⟩).map (.container .token [])
  | .copy d l => (tokenBits c tree ⟨d, l⟩).map (.container .token [])
  | .internal => some (.container .node [true] [])
  | .leaf v => some (.container .node [false] (uN c.windowBits v))
  | .structSize s => some (.container .structSize [] (uN structSizeBits s))
  | .pad => some (.container .pad [] (List.replicate (padLength written) false))

/-! ## A row's word of the opcode table -/

/-- Which format a table word is read in. The table's four formats are separate spaces and its words carry no
format, so this is the model's convention (DESIGN CHOICE, log entry 15): 64 bits are `struct_size`, no bits are
padding, fewer than 4 bits are a node, and a byte is a command where its low four bits are a command code; the
byte 0, a reserved command, is the row LEAF. -/
inductive TableWord where
  | command (code : BitVec 4)
  | form (f : Form)
  deriving DecidableEq, Repr

def tableWord (nbits w : Nat) : Option TableWord :=
  if nbits = 0 then some (.form .pad)
  else if nbits = 64 then some (.form .structSize)
  else if nbits < 4 then some (.form .node)
  else if w = 0 then some (.form .node)
  else
    match decodeCommand (BitVec.ofNat 4 w) with
    | .ok _ => some (.command (BitVec.ofNat 4 w))
    | .error _ => none

/-- The low `n` bits of `w`, the least significant first. -/
def lowBits : Nat → Nat → Bits
  | 0, _ => []
  | n + 1, w => (w % 2 == 1) :: lowBits n (w / 2)

/-- The structure field a node word starts: its bits, then zeros enough to close every subtree it opens. -/
def tableStructure (nbits w : Nat) : Bits := lowBits nbits w ++ List.replicate (nbits + 1) false

/-- The main stream that goes with a form's table word: the 64 bits of `struct_size`, or zeros enough for every
leaf value of the structure field. -/
def tableMain (c : Cfg) (nbits w : Nat) : Form → List Byte
  | .structSize => packBits (uN 64 w)
  | .node => List.replicate ((2 * nbits + 1) * c.windowBits / 8 + 1) 0
  | .token => []
  | .pad => []

/-- The instruction the decoder reads from a row's word (the host's question about the opcode table). -/
def decodeTableWord (nbits w : Nat) : Option Instr :=
  match tableWord nbits w with
  | none => none
  | some (.command code) =>
    match decodeCommand code with
    | .ok i => some i
    | .error _ => none
  | some (.form f) =>
    match decodeForm Cfg.default none f (tableStructure nbits w) ⟨0, bitsOf (tableMain Cfg.default nbits w f)⟩ with
    | .ok (i, _, _) => some i
    | .error _ => none

end Sys2Proof
end

