-- ==== Sys2Proof/Machine/State.lean ====
section
/-! DEFINITION. The state (10_state.md R20 to R37), the reasons a step can stop, and the state after reset. -/

namespace Sys2Proof.Machine

/-- The bytes of one buffer as (address, byte) pairs: addresses strictly rising, no entry equal to what an
unlisted address reads as. Which addresses exist is said by the buffer's length element (R23, R24). -/
abbrev Memory := List Host.Cell

/-- `STATUS` (R35). -/
inductive Status where
  | idle
  | done
  | failed
  deriving DecidableEq, Repr, Inhabited

/-- The number of a `STATUS` value (R35; D29). -/
def Status.code : Status → BitVec 2
  | .idle => 0
  | .done => 1
  | .failed => 2

/-- The number `ERR` holds: `NONE` is 0, the kinds 1 to 5 (60_exceptions.md R171; D9). -/
def errCode : Option ErrKind → BitVec 3
  | none => 0
  | some .matchBounds => 1
  | some .treeLookup => 2
  | some .malformedHeader => 3
  | some .decodeUnderrun => 4
  | some .truncatedStream => 5

/-- What can happen between operations: a host write, a command, a reset (10_state.md R20, 30_encoding.md R81,
70_reset_and_hazards.md R191), or the model's own finer move, one container form read and run alone
(log entries 3 and 4). -/
inductive Event where
  /-- Reset (R190, R191). -/
  | reset
  /-- The host writes `IBUF` and `ILEN`. -/
  | loadInput (bytes : List Byte)
  /-- The host writes `CFG`. -/
  | setCfg (c : Cfg)
  /-- The host writes `POS`, the operand of FIND. -/
  | setPos (v : Nat)
  /-- The host writes `TOK` and `TLEN`, the operand of DETOKENIZE and BUILD. -/
  | setTok (toks : List Token)
  /-- The host writes `FLAG`, the operand of GETCODE. -/
  | setFlag (v : Nat)
  /-- The host writes `TREE`, the operand of GETCODE, SERIALIZE and HEADER. -/
  | setTree (t : CodeTree)
  /-- The host writes `RP`, the operand of DESERIALIZE (R142). -/
  | setRp (v : Nat)
  /-- The host writes the 4-bit command code to the command port (R81). -/
  | command (code : BitVec 4)
  /-- One form of the container is read at `RP` and run (DESIGN CHOICE, log entry 4). -/
  | interpret (f : Form)
  deriving DecidableEq, Repr, Inhabited

/-- The machine's state. `TLEN`, `SLEN`, `LVLEN`, `WLEN` and `CODELEN` are the lengths of `tok`, `sb`, `lv`, `w` and
`code` and are not stored twice (log entry 1). -/
structure State where
  /-- `IBUF` (R23). -/
  ibuf : Memory
  /-- `ILEN` (R23). -/
  ilen : Nat
  /-- `OBUF` (R24). -/
  obuf : Memory
  /-- `CUR` (R24). -/
  cur : Nat
  /-- `POS` (R25). -/
  pos : Nat
  /-- `DIST` (R26). -/
  dist : Nat
  /-- `LEN` (R26). -/
  len : Nat
  /-- `TOK` (R27), as it was written; operations read it through `State.tokens`, which holds the fields' widths. -/
  tok : List Token
  /-- `FREQ` (R28): flag and count, flags strictly rising. -/
  freq : List (Nat × Nat)
  /-- `TREE` (R29). -/
  tree : CodeTree
  /-- `FLAG` (R30), as it was written; GETCODE reads it through `State.flagOperand`, which holds its width. -/
  flag : Nat
  /-- `CODE` (R30). -/
  code : Bits
  /-- `SB` (R31). -/
  sb : Bits
  /-- `LV` (R31). -/
  lv : List Nat
  /-- `W` (R32). -/
  w : Bits
  /-- `RP` (R33). -/
  rp : Nat
  /-- `CFG` (R34). -/
  cfg : Cfg
  /-- `STATUS` (R35). -/
  status : Status
  /-- `ERR` (R35); `none` is `NONE`. -/
  err : Option ErrKind
  /-- The model's own: the index of the next unread bit of `SB`, the argument of `parse` (44_treecodec.md R142;
  log entry 5). -/
  si : Nat
  /-- The model's own: what the host will do, oldest first (log entry 3). -/
  events : List Event
  /-- The model's own: how many errors have been raised, which selects the free values (log entry 6). -/
  failures : Nat
  deriving DecidableEq, Repr, Inhabited

/-- A fault: the machine stops. -/
inductive Fault where
  /-- A byte read outside its buffer, which the spec leaves undefined (20_memory.md R41). Raised by the copy step of
  COPY, DETOKENIZE and DECODE if the read byte did not exist; the underrun test before it excludes that in every
  state. Safe: the model would stop where nothing is defined. -/
  | noSuchByte (address : Nat)
  deriving DecidableEq, Repr

/-- A refusal: the spec has no meaning for what is asked. -/
inductive Refusal where
  /-- An instruction the model gives no meaning yet. Safe. Raised by no arm. -/
  | notModelled (mnemonic : String)
  /-- A reserved command code (30_encoding.md R82, D26). Raised by the command port. Safe: no meaning exists. -/
  | reservedCommand (code : BitVec 4)
  /-- `CFG` is not well formed (00_scope.md R14, 60_exceptions.md R173). Raised by every operation and by the reading
  of a container form. Safe: nothing is claimed under such a configuration. -/
  | illFormedConfig
  /-- A literal payload above 255 (42_tokenstream.md R111, D14). Raised by LIT, DETOKENIZE and DECODE. Safe: no byte
  value exists for it. -/
  | literalTooWide (payload : Nat)
  /-- A leaf value of `2^WINDOW_BITS` or more (44_treecodec.md R136, D30). Raised by SERIALIZE and HEADER, and by
  ENCODE, whose own trees never hold one. Safe: its field is undefined. -/
  | leafTooWide (value : Nat)
  deriving DecidableEq, Repr

/-- How a piece of an operation can end before its end: an error kind (60_exceptions.md R170), or a stop. -/
inductive Stop where
  | raise (e : ErrKind)
  | fault (f : Fault)
  | refuse (r : Refusal)
  deriving DecidableEq, Repr

/-- The state after reset (10_state.md R37, 70_reset_and_hazards.md R190); the model's own three fields at 0, empty
and 0 (DESIGN CHOICE, log entries 3, 5, 6). -/
def State.reset : State where
  ibuf := []
  ilen := 0
  obuf := []
  cur := 0
  pos := 0
  dist := 0
  len := 0
  tok := []
  freq := []
  tree := none
  flag := 0
  code := []
  sb := []
  lv := []
  w := []
  rp := 0
  cfg := Cfg.default
  status := .idle
  err := none
  si := 0
  events := []
  failures := 0

end Sys2Proof.Machine
end

