-- ==== Sys2Proof/Machine/Flags.lean ====
section
/-! DEFINITION. The two flags, `STATUS` and `ERR` (10_state.md R35): every operation writes both when it ends, and
nothing else writes them. -/

namespace Sys2Proof.Machine

/-- `STATUS <- DONE`, `ERR <- NONE`: an operation completes. -/
def State.done (s : State) : State := { s with status := .done, err := none }

/-- `STATUS <- FAILED`, `ERR <-` the kind (60_exceptions.md R178b). -/
def State.failed (e : ErrKind) (s : State) : State := { s with status := .failed, err := some e }

end Sys2Proof.Machine
end

