-- ==== Sys2Proof/Machine/Ops.lean ====
section
/-! DEFINITION. The named operations over memory and state: the byte buffers (20_memory.md R40, R41), the frequency
table's canonical form, raising an error (60_exceptions.md R178), and the endings every meaning shares. -/

namespace Sys2Proof.Machine

/-! ## Byte buffers -/

/-- What an unlisted address reads as, below the buffer's length (DESIGN CHOICE, log entry 2). -/
def unlistedByte : Byte := 0

/-- The byte at an address. Whether the address exists is asked of the buffer's length, by the caller. -/
def Memory.read (m : Memory) (a : Nat) : Byte :=
  match m with
  | [] => unlistedByte
  | (x, b) :: rest => if x = a then b else Memory.read rest a

/-- Write one byte, keeping the canonical form. -/
def Memory.write (m : Memory) (a : Nat) (b : Byte) : Memory :=
  match m with
  | [] => if b = unlistedByte then [] else [(a, b)]
  | (x, c) :: rest =>
    if a < x then (if b = unlistedByte then (x, c) :: rest else (a, b) :: (x, c) :: rest)
    else if a = x then (if b = unlistedByte then rest else (a, b) :: rest)
    else (x, c) :: Memory.write rest a b

/-- The canonical form: addresses strictly rising, no entry that an unlisted address would read as. -/
abbrev Memory.wf (m : Memory) : Prop :=
  m.Pairwise (fun x y => x.1 < y.1) ∧ ∀ x ∈ m, x.2 ≠ unlistedByte

/-- Every listed address lies below a length. -/
abbrev Memory.below (m : Memory) (len : Nat) : Prop := ∀ x ∈ m, x.1 < len

/-- The bytes at addresses 0 to `len - 1`, in address order. -/
def Memory.bytes (m : Memory) (len : Nat) : List Byte := (List.range len).map (Memory.read m)

/-- The cells of a byte sequence laid out from address `a` on. -/
def Memory.cells : Nat → List Byte → Memory
  | _, [] => []
  | a, b :: bs => if b = unlistedByte then Memory.cells (a + 1) bs else (a, b) :: Memory.cells (a + 1) bs

/-- A buffer holding a byte sequence from address 0 on. -/
def Memory.ofBytes (bs : List Byte) : Memory := Memory.cells 0 bs

/-- `MemRead(BUF, a, 1)`: defined only for `a` below the buffer's length (R41). -/
def memRead (m : Memory) (len a : Nat) : Except Stop Byte :=
  if a < len then .ok (m.read a) else .error (.fault (.noSuchByte a))

/-- An output buffer being written: the bytes and the write cursor (10_state.md R24). -/
structure Out where
  mem : Memory
  cur : Nat
  deriving DecidableEq, Repr, Inhabited

/-- `OBUF <- empty; CUR <- 0`. -/
def Out.empty : Out := ⟨[], 0⟩

/-- `MemWrite(OBUF, CUR, 1, b); CUR <- CUR + 1`. -/
def Out.append (o : Out) (b : Byte) : Out := ⟨o.mem.write o.cur b, o.cur + 1⟩

/-- The bytes of the buffer, `OBUF[0 : CUR]`. -/
def Out.bytes (o : Out) : List Byte := o.mem.bytes o.cur

/-- The state's output buffer. -/
def State.out (s : State) : Out := ⟨s.obuf, s.cur⟩

/-- The state with its output buffer replaced. -/
def State.withOut (s : State) (o : Out) : State := { s with obuf := o.mem, cur := o.cur }

/-! ## Fields of a width -/

/-- What a field of `n` bits holds once `v` was put into it: `v` where it fits, else a free value of `n` bits
(20_memory.md R49; log entries 18, 19). -/
def fitField (n v : Nat) : Nat := if v < 2 ^ n then v else Config.unheldField n v % 2 ^ n

/-- A token as `TOK` holds it (10_state.md R27): a flag of `WINDOW_BITS` bits and a payload of `LENGTH_BITS` bits. -/
def heldToken (c : Cfg) (t : Token) : Token := ⟨fitField c.windowBits t.flag, fitField c.lengthBits t.payload⟩

/-! ## The frequency table -/

/-- `FREQ[f] <- (FREQ[f] if present else 0) + 1` (43_treebuilder.md R120, R121), flags kept strictly rising. -/
def countFlag (f : Nat) : List (Nat × Nat) → List (Nat × Nat)
  | [] => [(f, 1)]
  | (g, n) :: rest =>
    if f < g then (f, 1) :: (g, n) :: rest
    else if f = g then (g, n + 1) :: rest
    else (g, n) :: countFlag f rest

/-- The table that counts a list of flags. -/
def countFlags (flags : List Nat) : List (Nat × Nat) := flags.foldl (fun t f => countFlag f t) []

/-! ## Raising an error -/

/-- The elements an operation may leave undefined; a buffer and its length are one. -/
inductive Elem where
  | obuf
  | tok
  | freq
  | tree
  | pos
  | found
  | flag
  | code
  | sb
  | lv
  | w
  | rp
  deriving DecidableEq, Repr

/-- Put a free value into an element (R178c; log entry 6). -/
def Elem.forget (u : Undefined) (s : State) : Elem → State
  | .obuf => { s with obuf := Memory.ofBytes u.obuf, cur := u.obuf.length }
  | .tok => { s with tok := u.tok }
  | .freq => { s with freq := countFlags u.flags }
  | .tree => { s with tree := u.tree }
  | .pos => { s with pos := u.pos }
  | .found => { s with dist := u.dist, len := u.len }
  | .flag => { s with flag := u.flag }
  | .code => { s with code := u.code }
  | .sb => { s with sb := u.sb, si := u.si }
  | .lv => { s with lv := u.lv }
  | .w => { s with w := u.w }
  | .rp => { s with rp := u.rp }

/-- `raise` (60_exceptions.md R178): the operation's outputs and working elements hold no defined value, `STATUS` is
`FAILED` and `ERR` the kind; everything else is as it was before the operation. There is no return from an error
(R179): the next operation starts from its own inputs. -/
def State.raise (undefined : List Elem) (e : ErrKind) (s : State) : State :=
  let u := Config.undefinedAfter s.failures
  { undefined.foldl (Elem.forget u) s with
    status := .failed, err := some e, failures := s.failures + 1 }

/-- An error kind as a stop. -/
def raising {α : Type} : Except ErrKind α → Except Stop α
  | .ok a => .ok a
  | .error e => .error (.raise e)

/-- How a meaning ends: with the state its rule gives, or with an error raised over the elements it names, or with
a stop. -/
def conclude (undefined : List Elem) (s : State) :
    Except Stop State → Host.Outcome State Fault Refusal
  | .ok t => .next t
  | .error (.raise e) => .next (s.raise undefined e)
  | .error (.fault f) => .fault f
  | .error (.refuse r) => .refused r

/-- Every operation runs under a well-formed configuration only (00_scope.md R14, 70_reset_and_hazards.md R195). -/
def underConfig (s : State) (k : Host.Outcome State Fault Refusal) : Host.Outcome State Fault Refusal :=
  if s.cfg.wf then k else .refused .illFormedConfig

end Sys2Proof.Machine
end

