-- ==== Sys2Proof/Machine/Operands.lean ====
section
/-! DEFINITION. The operands an operation reads from the state: the text or container in `IBUF`, the bit reader, the
lengths (10_state.md R23 to R33; 40_bitstream.md R89). An operation reads `TOK` and `FLAG` only through the definitions
here, which hold their widths. -/

namespace Sys2Proof.Machine

/-- `IBUF[0 : ILEN]`. -/
def State.text (s : State) : List Byte := s.ibuf.bytes s.ilen

/-- The input as a bit string (R89). -/
def State.inputBits (s : State) : Bits := bitsOf s.text

/-- The bit reader, the pair (`IBUF`, `RP`) (10_state.md R33); past the last bit nothing remains (log entry 12). -/
def State.reader (s : State) : Reader := ⟨s.rp, s.inputBits.drop s.rp⟩

/-- `BitRemaining()` (R89). -/
def State.bitRemaining (s : State) : Nat := s.reader.remaining

/-- `TOK` as every operation reads it (R27): each field of the width that `CFG` gives it when the command is issued, for
the order in which the host sets up `TOK` and `CFG` is free (70_reset_and_hazards.md R195; log entry 19). -/
def State.tokens (s : State) : List Token := s.tok.map (heldToken s.cfg)

/-- `FLAG` as GETCODE reads it (R30): `WINDOW_BITS` wide (log entry 19). -/
def State.flagOperand (s : State) : Nat := fitField s.cfg.windowBits s.flag

/-- `TLEN` (R27). -/
def State.tlen (s : State) : Nat := s.tok.length

/-- `CODELEN` (R30). -/
def State.codelen (s : State) : Nat := s.code.length

/-- `SLEN` (R31). -/
def State.slen (s : State) : Nat := s.sb.length

/-- `LVLEN` (R31). -/
def State.lvlen (s : State) : Nat := s.lv.length

/-- `WLEN` (R32). -/
def State.wlen (s : State) : Nat := s.w.length

/-- What `parse` works on (44_treecodec.md R142): the structure bits not read yet, the bit reader, and the leaf values
read so far. -/
structure Cursor where
  sb : Bits
  rd : Reader
  lv : List Nat
  deriving DecidableEq, Repr, Inhabited

/-- The state's place in `SB` and in the input. -/
def State.cursor (s : State) : Cursor := ⟨s.sb.drop s.si, s.reader, s.lv⟩

/-- The state moved to a place reached by `parse`. -/
def State.withCursor (s : State) (c : Cursor) : State :=
  { s with si := s.sb.length - c.sb.length, rp := c.rd.rp, lv := c.lv }

end Sys2Proof.Machine
end

