-- ==== Sys2Proof/Machine/Matcher.lean ====
section
/-! DEFINITION. LZ77_matcher: FIND (spec/41_matcher.md). -/

namespace Sys2Proof.Machine

/-- The window's first start, `max(0, pos - MAX_DIST)` (R96). -/
def windowStart (c : Cfg) (pos : Nat) : Nat := pos - c.maxDist

/-- The candidate of `l` bytes at `pos` occurs at `s`: `text[s+i] == text[pos+i]` for all `i < l` (R98). -/
def occursAt (text : List Byte) (pos l s : Nat) : Bool :=
  (List.range l).all fun i => text[s + i]? == text[pos + i]?

/-- The most recent start in the window `ws <= s < pos` at which the candidate of `l` bytes occurs, `max(S)` of R95. -/
def latestStart (text : List Byte) (ws pos l : Nat) : Option Nat :=
  ((List.range pos).filter fun s => decide (ws ≤ s) && occursAt text pos l s).getLast?

/-- The loop of R95 over `l`, `rounds` candidates from length `l` on. -/
def findLoop (text : List Byte) (ws pos : Nat) : Nat → Nat → Nat × Nat → Nat × Nat
  | 0, _, best => best
  | rounds + 1, l, best =>
    match latestStart text ws pos l with
    | none => best
    | some s => findLoop text ws pos rounds (l + 1) (pos - s, l)

/-- The length cap `min(MAX_LEN, n - pos)` (R97). -/
def lengthCap (c : Cfg) (text : List Byte) (pos : Nat) : Nat := min c.maxLen (text.length - pos)

/-- FIND (R95): distance and length of the longest, most recent match. -/
def findMatch (c : Cfg) (text : List Byte) (pos : Nat) : Nat × Nat :=
  findLoop text (windowStart c pos) pos (lengthCap c text pos) 1 (0, 0)

/-- FIND writes `DIST` and `LEN` and cannot fail (R95, R102). -/
def execFind (s : State) : Host.Outcome State Fault Refusal :=
  let m := findMatch s.cfg s.text s.pos
  underConfig s (.next ({ s with dist := m.1, len := m.2 } : State).done)

end Sys2Proof.Machine
end

