-- ==== Sys2Proof/Machine/TokenStream.lean ====
section
/-! DEFINITION. TokenStream_encoder_decoder: TOKENIZE, DETOKENIZE and the token forms LIT and COPY
(spec/42_tokenstream.md). -/

namespace Sys2Proof.Machine

/-! ## TOKENIZE -/

/-- The working elements of TOKENIZE: `TOK`, `POS`, `DIST`, `LEN` (R105). -/
structure Scan where
  toks : List Token
  pos : Nat
  dist : Nat
  len : Nat
  deriving DecidableEq, Repr, Inhabited

/-- The bounds check of R108. -/
def boundsBroken (c : Cfg) (text : List Byte) (pos d l : Nat) : Bool :=
  decide (min pos c.maxDist < d) || decide (text.length - pos < l)

/-- One round of the loop of R105: a literal advances by 1 (R106), a back-reference by its length (R107). -/
def scanStep (c : Cfg) (text : List Byte) (a : Scan) : Except ErrKind Scan :=
  match findMatch c text a.pos with
  | (d, l) =>
    if boundsBroken c text a.pos d l then .error .matchBounds
    else if d = 0 then .ok ⟨a.toks ++ [⟨0, (text.getD a.pos 0).toNat⟩], a.pos + 1, d, l⟩
    else .ok ⟨a.toks ++ [⟨d, l⟩], a.pos + l, d, l⟩

/-- The loop of R105; every round advances `POS`, so as many rounds as the text has bytes are enough (R109). -/
def scanLoop (c : Cfg) (text : List Byte) : Nat → Scan → Except ErrKind Scan
  | 0, a => .ok a
  | rounds + 1, a =>
    if a.pos < text.length then
      match scanStep c text a with
      | .error e => .error e
      | .ok b => scanLoop c text rounds b
    else .ok a

/-- TOKENIZE of a text (R105). -/
def tokenizeText (c : Cfg) (text : List Byte) : Except ErrKind Scan :=
  scanLoop c text text.length ⟨[], 0, 0, 0⟩

/-- The state after a scan. -/
def State.withScan (s : State) (a : Scan) : State :=
  { s with tok := a.toks, pos := a.pos, dist := a.dist, len := a.len }

/-- TOKENIZE (R105). -/
def execTokenize (s : State) : Host.Outcome State Fault Refusal :=
  underConfig s <| conclude [.tok, .pos, .found] s <|
    match tokenizeText s.cfg s.text with
    | .error e => .error (.raise e)
    | .ok a => .ok (s.withScan a).done

/-! ## DETOKENIZE -/

/-- LIT p on an output buffer (R111); a payload above 255 is no byte (D14). -/
def Out.lit (o : Out) (p : Nat) : Except Stop Out :=
  if p ≤ 255 then .ok (o.append (BitVec.ofNat 8 p)) else .error (.refuse (.literalTooWide p))

/-- COPY d, l on an output buffer, one byte at a time (R112); the source offset is an integer subtraction, tested
on both sides (R113). -/
def Out.copy (d : Nat) : Nat → Out → Except Stop Out
  | 0, o => .ok o
  | l + 1, o =>
    let src : Int := (o.cur : Int) - (d : Int)
    if src < 0 ∨ src ≥ (o.cur : Int) then .error (.raise .decodeUnderrun)
    else
      match memRead o.mem o.cur src.toNat with
      | .error e => .error e
      | .ok b => Out.copy d l (o.append b)

/-- One token on an output buffer (R110). -/
def Out.token (o : Out) (t : Token) : Except Stop Out :=
  if t.flag = 0 then o.lit t.payload else Out.copy t.flag t.payload o

/-- The tokens in order (R110). -/
def replay : List Token → Out → Except Stop Out
  | [], o => .ok o
  | t :: ts, o =>
    match o.token t with
    | .error e => .error e
    | .ok o' => replay ts o'

/-- DETOKENIZE (R110). -/
def execDetokenize (s : State) : Host.Outcome State Fault Refusal :=
  underConfig s <| conclude [.obuf] s <|
    match replay s.tokens Out.empty with
    | .error e => .error e
    | .ok o => .ok (s.withOut o).done

/-- LIT p (R111): the byte goes to `OBUF` at `CUR`. -/
def execLit (p : Nat) (s : State) : Host.Outcome State Fault Refusal :=
  conclude [.obuf] s <|
    match s.out.lit p with
    | .error e => .error e
    | .ok o => .ok (s.withOut o)

/-- COPY d, l (R112). -/
def execCopy (d l : Nat) (s : State) : Host.Outcome State Fault Refusal :=
  conclude [.obuf] s <|
    match Out.copy d l s.out with
    | .error e => .error e
    | .ok o => .ok (s.withOut o)

end Sys2Proof.Machine
end

