-- ==== Sys2Proof/Machine/TreeBuilder.lean ====
section
/-! DEFINITION. Huffman_tree_builder: BUILD and GETCODE (spec/43_treebuilder.md). -/

namespace Sys2Proof.Machine

/-- A node of the set `N` of R120: its frequency, its minimum contained flag, its tree. -/
structure Node where
  freq : Nat
  minflag : Nat
  tree : Tree
  deriving DecidableEq, Repr, Inhabited

/-- The order of R123: first the frequency, then the minimum flag. -/
def Node.lower (a b : Node) : Bool :=
  decide (a.freq < b.freq) || (a.freq == b.freq && decide (a.minflag < b.minflag))

/-- Put a node into `N`, which is kept lowest first. -/
def insertNode (n : Node) : List Node → List Node
  | [] => [n]
  | m :: rest => if n.lower m then n :: m :: rest else m :: insertNode n rest

/-- The initial set: one leaf per key of `FREQ` (R122). -/
def leafNodes (freq : List (Nat × Nat)) : List Node :=
  freq.foldl (fun ns e => insertNode ⟨e.2, e.1, .leaf e.1⟩ ns) []

/-- The merge of R124: left is the second-lowest, right the lowest (D7). -/
def mergeNodes (n1 n2 : Node) : Node :=
  ⟨n1.freq + n2.freq, min n1.minflag n2.minflag, .internal n2.tree n1.tree⟩

/-- The loop of R120: while more than one node is left, merge the two lowest. A round takes one node away, so as many
rounds as there are nodes are enough (R126d). -/
def mergeLoop : Nat → List Node → CodeTree
  | _, [] => none
  | _, [n] => some n.tree
  | 0, n :: _ => some n.tree
  | rounds + 1, n1 :: n2 :: rest => mergeLoop rounds (insertNode (mergeNodes n1 n2) rest)

/-- The tree of a frequency table; `EMPTY` for the empty table (R125). -/
def buildTree (freq : List (Nat × Nat)) : CodeTree :=
  let ns := leafNodes freq
  mergeLoop ns.length ns

/-- The frequency table of a token list: it counts flags only (R121). -/
def freqOf (toks : List Token) : List (Nat × Nat) := countFlags (toks.map Token.flag)

/-- BUILD (R120); it cannot fail. -/
def execBuild (s : State) : Host.Outcome State Fault Refusal :=
  let freq := freqOf s.tokens
  underConfig s (.next ({ s with freq := freq, tree := buildTree freq } : State).done)

/-- GETCODE (R128): the root-to-leaf path of `FLAG`, or TreeLookupError (R130). -/
def execGetcode (s : State) : Host.Outcome State Fault Refusal :=
  underConfig s <| conclude [.code] s <|
    match codeOf s.flagOperand s.tree with
    | none => .error (.raise .treeLookup)
    | some code => .ok ({ s with code := code } : State).done

end Sys2Proof.Machine
end

