-- ==== Sys2Proof/Machine/TreeCodec.lean ====
section
/-! DEFINITION. Huffman_tree_codec: SERIALIZE, HEADER, DESERIALIZE, the node forms INTERNAL and LEAF and the field
STRUCT_SIZE (spec/44_treecodec.md; 30_encoding.md R61, R70). -/

namespace Sys2Proof.Machine

/-! ## SERIALIZE and HEADER -/

/-- `ser` on a tree (R135): left subtree before right, in structure bits and leaf values alike. -/
def serTree : Tree → Bits × List Nat
  | .leaf f => ([false], [f])
  | .internal l r =>
    match serTree l, serTree r with
    | (sl, lvl), (sr, lvr) => (true :: (sl ++ sr), lvl ++ lvr)

/-- `ser` on a code tree (R135, R139). -/
def ser : CodeTree → Bits × List Nat
  | none => ([], [])
  | some t => serTree t

/-- SERIALIZE of a code tree; a leaf value that does not fit its field is refused (R136, D30). -/
def serialize (c : Cfg) (t : CodeTree) : Except Stop (Bits × List Nat) :=
  match (ser t).2.find? fun v => decide (c.windowSize ≤ v) with
  | some v => .error (.refuse (.leafTooWide v))
  | none => .ok (ser t)

/-- The leaf-values field (30_encoding.md R63). -/
def leafField (c : Cfg) (lv : List Nat) : Bits := lv.flatMap (uN c.windowBits)

/-- The field `struct_size` of `S` structure bits: `u_64(S)` (R137). For `S` of `2^64` or more, which a tree with distinct
flags never has (R141) and only a host-written tree with repeated flags can have, `u_64(S)` is not defined (00_scope.md
section 6.1, 20_memory.md R49) and the 64 bits are a free value (DESIGN CHOICE, safe, log entry 18). -/
def sizeField (size : Nat) : Bits := uN structSizeBits (fitField structSizeBits size)

/-- The bits of a header: `u_64(|sb|) ++ sb ++` the leaf values (R137). -/
def headerBits (c : Cfg) (sb : Bits) (lv : List Nat) : Bits :=
  sizeField sb.length ++ sb ++ leafField c lv

/-- SERIALIZE (R135). -/
def execSerialize (s : State) : Host.Outcome State Fault Refusal :=
  underConfig s <| conclude [.sb, .lv] s <|
    match serialize s.cfg s.tree with
    | .error e => .error e
    | .ok (sb, lv) => .ok ({ s with sb := sb, lv := lv } : State).done

/-- HEADER (R137). -/
def execHeader (s : State) : Host.Outcome State Fault Refusal :=
  underConfig s <| conclude [.w, .sb, .lv] s <|
    match serialize s.cfg s.tree with
    | .error e => .error e
    | .ok (sb, lv) => .ok ({ s with sb := sb, lv := lv, w := headerBits s.cfg sb lv } : State).done

/-! ## DESERIALIZE -/

/-- `parse` (R142): one subtree from the structure bits, its leaf values from the reader in preorder. Every call takes
a structure bit before it recurses, so one more level than there are bits is enough. -/
def parse (c : Cfg) : Nat → Cursor → Except ErrKind (Tree × Cursor)
  | 0, _ => .error .malformedHeader
  | depth + 1, k =>
    match decodeNode c k.sb k.rd with
    | .error e => .error e
    | .ok (some v, sb, rd) => .ok (.leaf v, ⟨sb, rd, k.lv ++ [v]⟩)
    | .ok (none, sb, rd) =>
      match parse c depth ⟨sb, rd, k.lv⟩ with
      | .error e => .error e
      | .ok (l, k1) =>
        match parse c depth k1 with
        | .error e => .error e
        | .ok (r, k2) => .ok (.internal l r, k2)

/-- `parse` with depth enough for the structure bits that are left. -/
def parseSubtree (c : Cfg) (k : Cursor) : Except ErrKind (Tree × Cursor) := parse c (k.sb.length + 1) k

/-- What DESERIALIZE delivers: `TREE`, `SB`, `LV` and the reader, and the structure index reached. -/
structure Parsed where
  tree : CodeTree
  sb : Bits
  lv : List Nat
  rd : Reader
  si : Nat
  deriving DecidableEq, Repr, Inhabited

/-- `BitRead(S)` into `SB`, with its test (R142). -/
def readStructure (size : Nat) (r : Reader) : Except ErrKind (Bits × Reader) :=
  match r.read size with
  | none => .error .malformedHeader
  | some (sb, r') => .ok (sb, r')

/-- DESERIALIZE from a reader (R142 to R146). -/
def deserialize (c : Cfg) (r : Reader) : Except ErrKind Parsed :=
  match decodeStructSize r with
  | .error e => .error e
  | .ok (size, r1) =>
    if size = 0 then .ok ⟨none, [], [], r1, 0⟩
    else
      match readStructure size r1 with
      | .error e => .error e
      | .ok (sb, r2) =>
        match parseSubtree c ⟨sb, r2, []⟩ with
        | .error e => .error e
        | .ok (t, k) => if k.sb = [] then .ok ⟨some t, sb, k.lv, k.rd, size⟩ else .error .malformedHeader

/-- The state after a header was read. -/
def State.withParsed (s : State) (p : Parsed) : State :=
  { s with tree := p.tree, sb := p.sb, lv := p.lv, rp := p.rd.rp, si := p.si }

/-- The elements a failed reading of a header leaves undefined (60_exceptions.md R178c). -/
def headerElems : List Elem := [.tree, .rp, .sb, .lv]

/-- DESERIALIZE (R142): it starts at the current `RP`. -/
def execDeserialize (s : State) : Host.Outcome State Fault Refusal :=
  underConfig s <| conclude headerElems s <|
    match deserialize s.cfg s.reader with
    | .error e => .error (.raise e)
    | .ok p => .ok (s.withParsed p).done

/-! ## The forms of a header, one at a time -/

/-- STRUCT_SIZE S, once its 64 bits are read (R142; log entry 16): no structure bits for S = 0, whose tree is `EMPTY`
(R145); otherwise S bits go to `SB`, and parsing starts at its first bit. -/
def execStructSize (size : Nat) (s : State) : Host.Outcome State Fault Refusal :=
  conclude headerElems s <|
    if size = 0 then .ok { s with tree := none, sb := [], lv := [], si := 0 }
    else
      match readStructure size s.reader with
      | .error e => .error (.raise e)
      | .ok (sb, r) => .ok { s with sb := sb, lv := [], si := 0, rp := r.rp }

/-- LEAF v, once its structure bit and its leaf value are read (R142): a leaf, and `v` joins `LV`. -/
def execLeaf (v : Nat) (s : State) : Host.Outcome State Fault Refusal :=
  .next { s with tree := some (.leaf v), lv := s.lv ++ [v] }

/-- INTERNAL, once its structure bit is read (R142, the `else` branch of `parse`): the left subtree, then the right. -/
def execInternal (s : State) : Host.Outcome State Fault Refusal :=
  conclude headerElems s <|
    match parseSubtree s.cfg s.cursor with
    | .error e => .error (.raise e)
    | .ok (l, k1) =>
      match parseSubtree s.cfg k1 with
      | .error e => .error (.raise e)
      | .ok (r, k2) => .ok { s.withCursor k2 with tree := some (.internal l r) }

end Sys2Proof.Machine
end

