-- ==== Sys2Proof/Machine/Container.lean ====
section
/-! DEFINITION. bitpacked_container: ENCODE, DECODE and the field PAD (spec/45_container.md; 40_bitstream.md R87, R88;
30_encoding.md R65). -/

namespace Sys2Proof.Machine

/-! ## The bit writer -/

/-- `BitPad()` (40_bitstream.md R87): zero bits to the next byte boundary. -/
def padBits (w : Bits) : Bits := w ++ List.replicate (padLength w.length) false

/-- `Pack()` (40_bitstream.md R88): the bytes of `W` as an output buffer. -/
def packOut (w : Bits) : Out := ⟨Memory.ofBytes (packBits w), (packBits w).length⟩

/-- PAD: the writer's `BitPad()` on `W` (30_encoding.md R65; log entry 16). -/
def execPad (s : State) : Host.Outcome State Fault Refusal := .next { s with w := padBits s.w }

/-! ## ENCODE -/

/-- Step 3 of R150: every token's code and payload, in order (R151); TreeLookupError where a flag has no code. -/
def codeTokens (c : Cfg) (tree : CodeTree) : List Token → Except ErrKind Bits
  | [] => .ok []
  | t :: ts =>
    match tokenBits c tree t with
    | none => .error .treeLookup
    | some b =>
      match codeTokens c tree ts with
      | .error e => .error e
      | .ok bs => .ok (b ++ bs)

/-- The flag GETCODE was last asked for: the last token's (log entry 8). -/
def lastFlag (toks : List Token) : Nat := (toks.getLast?.map Token.flag).getD 0

/-- The code GETCODE last gave (log entry 8). -/
def lastCode (tree : CodeTree) (toks : List Token) : Bits :=
  ((toks.getLast?.map Token.flag).bind fun f => codeOf f tree).getD []

/-- The elements ENCODE writes (R150). -/
def encodeElems : List Elem := [.obuf, .tok, .freq, .tree, .pos, .found, .flag, .code, .sb, .lv, .w]

/-- Steps 2 to 5 of R150 on a scanned text: header, coded tokens, padding, packing. -/
def encodeScan (s : State) (a : Scan) : Except Stop State :=
  let freq := freqOf a.toks
  let tree := buildTree freq
  match serialize s.cfg tree with
  | .error e => .error e
  | .ok (sb, lv) =>
    match codeTokens s.cfg tree a.toks with
    | .error e => .error (.raise e)
    | .ok body =>
      let w := padBits (headerBits s.cfg sb lv ++ body)
      .ok (({ s.withScan a with
        freq := freq, tree := tree, sb := sb, lv := lv, w := w,
        flag := lastFlag a.toks, code := lastCode tree a.toks } : State).withOut (packOut w)).done

/-- ENCODE (R150 to R154). -/
def execEncode (s : State) : Host.Outcome State Fault Refusal :=
  underConfig s <| conclude encodeElems s <|
    match tokenizeText s.cfg s.text with
    | .error e => .error (.raise e)
    | .ok a => encodeScan s a

/-! ## DECODE -/

/-- The token loop, step 2 of R155: while more than `LENGTH_BITS` bits remain (R157), one token (R158, R159, R160).
A token takes at least `LENGTH_BITS` bits, so as many rounds as there are bits are enough. -/
def tokenLoop (c : Cfg) (tree : CodeTree) : Nat → Reader → List Token → Except ErrKind (List Token × Reader)
  | 0, r, toks => .ok (toks, r)
  | rounds + 1, r, toks =>
    if c.lengthBits < r.remaining then
      match decodeToken c tree r with
      | .error e => .error e
      | .ok (t, r') => tokenLoop c tree rounds r' (toks ++ [t])
    else .ok (toks, r)

/-- The elements DECODE writes (R155). -/
def decodeElems : List Elem := [.obuf, .rp, .tree, .sb, .lv, .tok]

/-- DECODE in its three stages, each to its end before the next (R155, R156). -/
def decodeBits (s : State) (bits : Bits) : Except Stop State :=
  match deserialize s.cfg ⟨0, bits⟩ with
  | .error e => .error (.raise e)
  | .ok p =>
    match tokenLoop s.cfg p.tree p.rd.remaining p.rd [] with
    | .error e => .error (.raise e)
    | .ok (toks, r) =>
      match replay toks Out.empty with
      | .error e => .error e
      | .ok o => .ok (({ s.withParsed p with rp := r.rp, tok := toks } : State).withOut o).done

/-- DECODE (R155 to R162). -/
def execDecode (s : State) : Host.Outcome State Fault Refusal :=
  underConfig s <| conclude decodeElems s <| decodeBits s s.inputBits

end Sys2Proof.Machine
end

