-- ==== Sys2Proof/Machine/Dispatch.lean ====
section
/-! DEFINITION. The dispatch: one arm per row of the opcode table. -/

namespace Sys2Proof.Machine

def exec (i : Instr) (s : State) : Host.Outcome State Fault Refusal :=
  match i with
  | .find => Sys2Proof.Machine.execFind s
  | .tokenize => Sys2Proof.Machine.execTokenize s
  | .detokenize => Sys2Proof.Machine.execDetokenize s
  | .build => Sys2Proof.Machine.execBuild s
  | .getcode => Sys2Proof.Machine.execGetcode s
  | .serialize => Sys2Proof.Machine.execSerialize s
  | .header => Sys2Proof.Machine.execHeader s
  | .deserialize => Sys2Proof.Machine.execDeserialize s
  | .encode => Sys2Proof.Machine.execEncode s
  | .decode => Sys2Proof.Machine.execDecode s
  | .lit p => Sys2Proof.Machine.execLit p s
  | .copy d l => Sys2Proof.Machine.execCopy d l s
  | .internal => Sys2Proof.Machine.execInternal s
  | .leaf v => Sys2Proof.Machine.execLeaf v s
  | .structSize size => Sys2Proof.Machine.execStructSize size s
  | .pad => Sys2Proof.Machine.execPad s

end Sys2Proof.Machine
end

