-- ==== Sys2Proof/Machine/Fetch.lean ====
section
/-! DEFINITION. What a step takes up next: the head of the host's pending moves. A host write and a reset are done at
once; a command code and a container form are decoded into the instruction the step runs. -/

namespace Sys2Proof.Machine

/-- What was taken up. -/
inductive Fetched where
  /-- Nothing is pending: the block waits. -/
  | idle
  /-- A host write, a reset, or residual bits: the state after it. -/
  | moved (t : State)
  /-- An instruction, and the state past its word. -/
  | run (i : Instr) (t : State)
  /-- An error kind met while a container form was read. -/
  | raises (e : ErrKind) (undefined : List Elem) (t : State)
  /-- A refusal. -/
  | refuses (r : Refusal)
  deriving DecidableEq, Repr

/-- Reset puts every element at its reset value (70_reset_and_hazards.md R190); the model's own pending moves and error
count go on (log entries 3, 6). -/
def State.resetAgain (s : State) : State :=
  { State.reset with events := s.events, failures := s.failures }

/-- The elements left undefined when reading a form fails: those of the operation it is a part of. -/
def formElems : Form → List Elem
  | .token => [.obuf, .rp, .tok]
  | .node => [.tree, .rp, .sb, .lv]
  | .structSize => [.tree, .rp, .sb, .lv]
  | .pad => []

/-- Whether a container form is there to be read: a token only while more than `LENGTH_BITS` bits remain
(45_container.md R157). -/
def formPresent (s : State) : Form → Bool
  | .token => decide (s.cfg.lengthBits < s.bitRemaining)
  | .node => true
  | .structSize => true
  | .pad => true

/-- The token an instruction of format TOKEN is (30_encoding.md R83); none for the other formats. -/
def asTokens : Instr → List Token
  | .lit p => [⟨0, p⟩]
  | .copy d l => [⟨d, l⟩]
  | .find | .tokenize | .detokenize | .build | .getcode | .serialize | .header | .deserialize | .encode | .decode
  | .internal | .leaf _ | .structSize _ | .pad => []

/-- Read one container form at `RP` (and, for a node, at the structure index). A token joins `TOK`, as in the token
loop (R155). -/
def fetchForm (f : Form) (s : State) : Fetched :=
  if s.cfg.wf then
    if formPresent s f then
      match decodeForm s.cfg s.tree f (s.sb.drop s.si) s.reader with
      | .ok (i, sb, r) =>
        .run i { s with si := s.sb.length - sb.length, rp := r.rp, tok := s.tok ++ asTokens i }
      | .error e => .raises e (formElems f) s
    else .moved s
  else .refuses .illFormedConfig

/-- Take up one move, the state already without it. -/
def takeUp (s : State) : Event → Fetched
  | .reset => .moved s.resetAgain
  | .loadInput bytes => .moved { s with ibuf := Memory.ofBytes bytes, ilen := bytes.length }
  | .setCfg c => .moved { s with cfg := c }
  | .setPos v => .moved { s with pos := v }
  | .setTok toks => .moved { s with tok := toks }
  | .setFlag v => .moved { s with flag := v }
  | .setTree t => .moved { s with tree := t }
  | .setRp v => .moved { s with rp := v }
  | .command code =>
    match decodeCommand code with
    | .ok i => .run i s
    | .error _ => .refuses (.reservedCommand code)
  | .interpret f => fetchForm f s

/-- The head of the pending moves, and what taking it up gives. -/
def fetch (s : State) : Fetched :=
  match s.events with
  | [] => .idle
  | e :: rest => takeUp { s with events := rest } e

/-- The state in which the next move is the one a table word stands for (log entry 15). A form's bits are placed where
they are read: the structure bits in `SB`, the main stream in `IBUF`, both cursors at 0. -/
def State.placeTableWord (s : State) (nbits w : Nat) : State :=
  match tableWord nbits w with
  | none => { s with events := .command (BitVec.ofNat 4 w) :: s.events }
  | some (.command code) => { s with events := .command code :: s.events }
  | some (.form f) =>
    { s with
      events := .interpret f :: s.events
      sb := tableStructure nbits w
      si := 0
      ibuf := Memory.ofBytes (tableMain s.cfg nbits w f)
      ilen := (tableMain s.cfg nbits w f).length
      rp := 0 }

end Sys2Proof.Machine
end

