-- ==== Sys2Proof/Machine/Step.lean ====
section
/-! DEFINITION. One step: take up the next pending move and run what it asks for. -/

namespace Sys2Proof.Machine

/-- With nothing pending the block waits and the state stays as it is: only an operation, a host write or a reset
changes it (70_reset_and_hazards.md R191). -/
def step (s : State) : Host.Outcome State Fault Refusal :=
  match fetch s with
  | .idle => .next s
  | .moved t => .next t
  | .run i t => exec i t
  | .raises e undefined t => .next (t.raise undefined e)
  | .refuses r => .refused r

/-- The state with a row's table word where `step` takes up its next instruction (log entry 15). -/
def State.withFetchWord (s : State) (nbits w : Nat) : State := s.placeTableWord nbits w

end Sys2Proof.Machine
end

