-- ==== Sys2Proof/Safety.lean ====
section
/-! DEFINITION. The terms the statements use: the invariant of every run, and the spec's notions of a match, a scan, a
replay, a merge, a path and a container, each written from the spec's rule and not from the meanings. -/

namespace Sys2Proof.Machine

/-! ## The invariant -/

/-- What every step keeps: both byte buffers are canonical and hold no byte past their length (10_state.md R23, R24);
the frequency table is a map to counts of at least 1 (R28); `ERR` is `NONE` unless `STATUS` is `FAILED` (R35);
`DIST` and `LEN` are zero together (R26; 41_matcher.md R101). -/
structure Inv (s : State) : Prop where
  ibuf_wf : s.ibuf.wf
  ibuf_below : s.ibuf.below s.ilen
  obuf_wf : s.obuf.wf
  obuf_below : s.obuf.below s.cur
  freq_rising : s.freq.Pairwise fun a b => a.1 < b.1
  freq_positive : ∀ e ∈ s.freq, 1 ≤ e.2
  err_iff_failed : s.err ≠ none ↔ s.status = .failed
  found_zero : s.dist = 0 ↔ s.len = 0

/-- The ten operations of 30_encoding.md R81. -/
def operations : List Instr :=
  [.find, .tokenize, .detokenize, .build, .getcode, .serialize, .header, .deserialize, .encode, .decode]

/-- The elements an instruction may write besides `STATUS` and `ERR` (30_encoding.md R81; R150, R155). -/
def writes : Instr → List Elem
  | .find => [.found]
  | .tokenize => [.tok, .pos, .found]
  | .detokenize => [.obuf]
  | .build => [.freq, .tree]
  | .getcode => [.code]
  | .serialize => [.sb, .lv]
  | .header => [.w, .sb, .lv]
  | .deserialize => [.tree, .rp, .sb, .lv]
  | .encode => [.obuf, .tok, .freq, .tree, .pos, .found, .flag, .code, .sb, .lv, .w]
  | .decode => [.obuf, .rp, .tree, .sb, .lv, .tok]
  | .lit _ => [.obuf]
  | .copy _ _ => [.obuf]
  | .internal => [.tree, .rp, .sb, .lv]
  | .leaf _ => [.tree, .lv]
  | .structSize _ => [.tree, .rp, .sb, .lv]
  | .pad => [.w]

/-- An element holds the same in two states. -/
def Elem.same (s t : State) : Elem → Prop
  | .obuf => t.obuf = s.obuf ∧ t.cur = s.cur
  | .tok => t.tok = s.tok
  | .freq => t.freq = s.freq
  | .tree => t.tree = s.tree
  | .pos => t.pos = s.pos
  | .found => t.dist = s.dist ∧ t.len = s.len
  | .flag => t.flag = s.flag
  | .code => t.code = s.code
  | .sb => t.sb = s.sb
  | .lv => t.lv = s.lv
  | .w => t.w = s.w
  | .rp => t.rp = s.rp

/-- Two states agree on what an operation reads (30_encoding.md R81), `CFG` included. -/
def AgreeOnReads (s s' : State) : Instr → Prop
  | .find => s.cfg = s'.cfg ∧ s.text = s'.text ∧ s.pos = s'.pos
  | .tokenize => s.cfg = s'.cfg ∧ s.text = s'.text
  | .detokenize => s.cfg = s'.cfg ∧ s.tokens = s'.tokens
  | .build => s.cfg = s'.cfg ∧ s.tokens = s'.tokens
  | .getcode => s.cfg = s'.cfg ∧ s.flagOperand = s'.flagOperand ∧ s.tree = s'.tree
  | .serialize => s.cfg = s'.cfg ∧ s.tree = s'.tree
  | .header => s.cfg = s'.cfg ∧ s.tree = s'.tree
  | .deserialize => s.cfg = s'.cfg ∧ s.text = s'.text ∧ s.rp = s'.rp
  | .encode => s.cfg = s'.cfg ∧ s.text = s'.text
  | .decode => s.cfg = s'.cfg ∧ s.text = s'.text
  | .lit _ | .copy _ _ | .internal | .leaf _ | .structSize _ | .pad => False

/-- The error kinds an operation can end in (60_exceptions.md R182). -/
def reachableErrors : Instr → List ErrKind
  | .getcode => [.treeLookup]
  | .detokenize => [.decodeUnderrun]
  | .deserialize => [.malformedHeader]
  | .decode => [.malformedHeader, .truncatedStream, .decodeUnderrun]
  | .find | .tokenize | .build | .serialize | .header | .encode => []
  | .copy _ _ => [.decodeUnderrun]
  | .internal => [.malformedHeader]
  | .structSize _ => [.malformedHeader]
  | .lit _ | .leaf _ | .pad => []

/-- `s` with `STATUS = DONE` and `ERR = NONE`, as an operation that completes leaves them (10_state.md R35). -/
def completed (s : State) : State := { s with status := .done, err := none }

/-- `STATUS` and `ERR` report that the error `e` was raised (60_exceptions.md R178b). -/
def Failed (e : ErrKind) (t : State) : Prop := t.status = .failed ∧ t.err = some e

/-! ## Widths -/

/-- A token's fields fit their widths (10_state.md R27). -/
def TokenFits (c : Cfg) (t : Token) : Prop := t.flag < c.windowSize ∧ t.payload < c.lengthSize

/-! ## Matches (41_matcher.md) -/

/-- The `l` bytes at `pos` occur `d` bytes back (R98). -/
def MatchesAt (text : List Byte) (pos d l : Nat) : Prop :=
  d ≤ pos ∧ ∀ i, i < l → text[pos - d + i]? = text[pos + i]?

/-- A distance the window admits (R96). -/
def InWindow (c : Cfg) (pos d : Nat) : Prop := 1 ≤ d ∧ d ≤ min pos c.maxDist

/-- `(d, l)` is the longest match and, among those of its length, the most recent (R99, R100); `(0, 0)` where there is
none (R101). -/
def IsBestMatch (c : Cfg) (text : List Byte) (pos d l : Nat) : Prop :=
  (d = 0 ∧ l = 0 ∧
    ∀ d' l', InWindow c pos d' → 1 ≤ l' → l' ≤ min c.maxLen (text.length - pos) → ¬ MatchesAt text pos d' l') ∨
  (InWindow c pos d ∧ 1 ≤ l ∧ l ≤ min c.maxLen (text.length - pos) ∧ MatchesAt text pos d l ∧
    (∀ d' l', InWindow c pos d' → l' ≤ min c.maxLen (text.length - pos) → MatchesAt text pos d' l' → l' ≤ l) ∧
    (∀ d', InWindow c pos d' → MatchesAt text pos d' l → d ≤ d'))

/-! ## Scans and replays (42_tokenstream.md) -/

/-- `toks` is the scan of `text` from `p` to its end (R105 to R107). -/
def ScansTo (c : Cfg) (text : List Byte) : Nat → List Token → Prop
  | p, [] => p = text.length
  | p, t :: ts =>
    p < text.length ∧
      ∃ d l, IsBestMatch c text p d l ∧
        ((d = 0 ∧ t.flag = 0 ∧ (text[p]?.map BitVec.toNat) = some t.payload ∧ ScansTo c text (p + 1) ts) ∨
         (0 < d ∧ t.flag = d ∧ t.payload = l ∧ ScansTo c text (p + l) ts))

/-- How many bytes a token stands for (R109). -/
def spanOf (t : Token) : Nat := if t.flag = 0 then 1 else t.payload

/-- What FIND last gave before a token was emitted: `(0, 0)` before a literal (R106, R107). -/
def matchOf (t : Token) : Nat × Nat := if t.flag = 0 then (0, 0) else (t.flag, t.payload)

/-- The `l` bytes a copy at distance `d` appends to `out`: its last `d` bytes repeated (R115). -/
def periodic (d l : Nat) (out : List Byte) : List Byte :=
  (List.range l).map fun i => out.getD (out.length - d + i % d) 0

/-- The bytes a token list stands for, after `out` (R110 to R115). -/
def expand : List Token → List Byte → List Byte
  | [], out => out
  | t :: ts, out =>
    if t.flag = 0 then expand ts (out ++ [BitVec.ofNat 8 t.payload])
    else expand ts (out ++ periodic t.flag t.payload out)

/-- A token list that replays without an error, `n` bytes being there before it: literals are bytes (R111), and no copy
of at least one byte reaches before the start (R113, R114). -/
def Replayable : Nat → List Token → Prop
  | _, [] => True
  | n, t :: ts =>
    if t.flag = 0 then t.payload ≤ 255 ∧ Replayable (n + 1) ts
    else (t.payload = 0 ∨ t.flag ≤ n) ∧ Replayable (n + t.payload) ts

/-! ## Trees (43_treebuilder.md, 44_treecodec.md) -/

/-- The flags of a tree's leaves in preorder. -/
def flagsOf : Tree → List Nat
  | .leaf f => [f]
  | .internal l r => flagsOf l ++ flagsOf r

/-- The flags of a code tree. -/
def codeTreeFlags : CodeTree → List Nat
  | none => []
  | some t => flagsOf t

/-- Every flag fits its leaf value (44_treecodec.md R136). -/
def Fits (c : Cfg) (t : CodeTree) : Prop := ∀ f ∈ codeTreeFlags t, f < c.windowSize

/-- The subtree a bit string leads to: 0 left, 1 right (43_treebuilder.md R128; 30_encoding.md R72). -/
def follow : Tree → Bits → Option Tree
  | t, [] => some t
  | .leaf _, _ :: _ => none
  | .internal l r, b :: bs => if b then follow r bs else follow l bs

/-- The merging of R120 on a set of nodes, given as a list up to order: the two lowest nodes in the order of R123 become
the children of a new node, second-lowest left, lowest right (R124), until one is left. -/
inductive MergesTo : List Node → Tree → Prop where
  | one (n : Node) : MergesTo [n] n.tree
  | merge (ns rest : List Node) (n1 n2 : Node) (t : Tree) :
      ns.Perm (n1 :: n2 :: rest) →
      (∀ m ∈ n2 :: rest, n1.freq < m.freq ∨ (n1.freq = m.freq ∧ n1.minflag < m.minflag)) →
      (∀ m ∈ rest, n2.freq < m.freq ∨ (n2.freq = m.freq ∧ n2.minflag < m.minflag)) →
      MergesTo (⟨n1.freq + n2.freq, min n1.minflag n2.minflag, .internal n2.tree n1.tree⟩ :: rest) t →
      MergesTo ns t

/-! ## Containers (30_encoding.md R60) -/

/-- The header of a code tree (44_treecodec.md R137). -/
def treeHeader (c : Cfg) (t : CodeTree) : Bits := headerBits c (ser t).1 (ser t).2

/-- The header can be written: every flag fits and the structure's length fits 64 bits (R136, R141). -/
def HeaderFits (c : Cfg) (t : CodeTree) : Prop := Fits c t ∧ (ser t).1.length < 2 ^ structSizeBits

/-- `body` is the coded token list: each token's path in the tree to a leaf of its flag, then its payload in
`LENGTH_BITS` bits (R64, R67). -/
def CodedAs (c : Cfg) (t : Tree) : List Token → Bits → Prop
  | [], body => body = []
  | k :: ks, body =>
    ∃ code rest, follow t code = some (.leaf k.flag) ∧ k.payload < c.lengthSize ∧
      CodedAs c t ks rest ∧ body = code ++ uN c.lengthBits k.payload ++ rest

/-- `CodedAs` on a code tree; under `EMPTY` there is no token. -/
def CodedUnder (c : Cfg) (t : CodeTree) (toks : List Token) (body : Bits) : Prop :=
  match t with
  | none => toks = [] ∧ body = []
  | some t => CodedAs c t toks body

end Sys2Proof.Machine
end

