-- ==== Sys2Proof/Certificates/Slice0/Obligations.lean ====
section
/-! DEFINITION. The statements for the provers. Each docstring names the rule of spec/ it formalises, and the log entry
or the spec's own decision where it rests on one. -/

open Sys2Proof
open Sys2Proof.Machine

/-! ## Reset, the invariant, the step -/

/-- 10_state.md R37, 70_reset_and_hazards.md R190: the values after reset, and that a reset puts every element there from
any state. The pending moves and the error count are the model's own and go on (log entries 3, 6). -/
def Obligations.ResetValues : Prop :=
  (State.reset.status = .idle ∧ State.reset.err = none ∧ State.reset.cfg = ⟨8, 16⟩ ∧ State.reset.ilen = 0 ∧
    State.reset.cur = 0 ∧ State.reset.tlen = 0 ∧ State.reset.slen = 0 ∧ State.reset.lvlen = 0 ∧ State.reset.wlen = 0 ∧
    State.reset.codelen = 0 ∧ State.reset.rp = 0 ∧ State.reset.pos = 0 ∧ State.reset.dist = 0 ∧ State.reset.len = 0 ∧
    State.reset.flag = 0 ∧ State.reset.freq = [] ∧ State.reset.tree = none ∧ State.reset.ibuf = [] ∧
    State.reset.obuf = []) ∧
  ∀ (s : State) (rest : List Event), s.events = .reset :: rest →
    step s = .next { State.reset with events := rest, failures := s.failures }

/-- The reset state meets the invariant of every run. -/
def Obligations.ResetMeetsInvariant : Prop := Inv State.reset

/-- Every step keeps the invariant: canonical byte buffers with nothing past their length (R23, R24), a frequency table
that is a map to positive counts (R28), `ERR` set exactly after a failure (R35), `DIST` and `LEN` zero together (R26, R101). -/
def Obligations.EveryStepKeepsInvariant : Prop :=
  ∀ s t : State, Inv s → step s = .next t → Inv t

/-- 70_reset_and_hazards.md R191, 10_state.md R20: with nothing pending the state stays as it is, and a host write changes
the element it names and nothing else. The model's choices: host moves stand in a list (log entry 3); a pair that is not
well formed is taken (log entry 11); POS, RP and TREE take any value (log entry 12); TOK and FLAG are stored as written,
too wide or not (log entry 19). -/
def Obligations.HostWritesChangeOneElement : Prop :=
  ∀ (s : State) (rest : List Event),
    (s.events = [] → step s = .next s) ∧
    (∀ bytes, s.events = .loadInput bytes :: rest →
      ∃ m : Memory, step s = .next { s with events := rest, ibuf := m, ilen := bytes.length } ∧ m.wf ∧
        m.bytes bytes.length = bytes) ∧
    (∀ c, s.events = .setCfg c :: rest → step s = .next { s with events := rest, cfg := c }) ∧
    (∀ v, s.events = .setPos v :: rest → step s = .next { s with events := rest, pos := v }) ∧
    (∀ ts, s.events = .setTok ts :: rest → step s = .next { s with events := rest, tok := ts }) ∧
    (∀ v, s.events = .setFlag v :: rest → step s = .next { s with events := rest, flag := v }) ∧
    (∀ t, s.events = .setTree t :: rest → step s = .next { s with events := rest, tree := t }) ∧
    (∀ v, s.events = .setRp v :: rest → step s = .next { s with events := rest, rp := v })

/-- 10_state.md R20, R23, R34: no operation writes `IBUF`, `ILEN` or `CFG`; only the host's write of that element, or a
reset, changes them. -/
def Obligations.OnlyTheHostWritesInput : Prop :=
  ∀ s t : State, step s = .next t →
    (t.ibuf = s.ibuf ∧ t.ilen = s.ilen ∨
      (∃ bytes rest, s.events = .loadInput bytes :: rest) ∨ ∃ rest, s.events = .reset :: rest) ∧
    (t.cfg = s.cfg ∨ (∃ c rest, s.events = .setCfg c :: rest) ∨ ∃ rest, s.events = .reset :: rest)

/-- A step runs the command at the head of the pending moves: the move is taken away and nothing else is changed before
the instruction runs (30_encoding.md R81). -/
def Obligations.StepRunsTheCommand : Prop :=
  ∀ (s : State) (code : BitVec 4) (rest : List Event) (i : Instr),
    s.events = .command code :: rest → decodeCommand code = .ok i →
      i.wf s.cfg = true ∧ step s = exec i { s with events := rest }

/-- A step that reads one container form runs the instruction decoded at `RP` (for a node, at the structure index), with
both cursors past it and a token recorded in `TOK`; nothing happens where only residual bits are left for a token
(45_container.md R157), and a form that cannot be read raises its error (the model's own move: log entry 4). -/
def Obligations.StepRunsTheForm : Prop :=
  ∀ (s : State) (f : Form) (rest : List Event), s.events = .interpret f :: rest → s.cfg.wf = true →
    (f = .token → s.bitRemaining ≤ s.cfg.lengthBits → step s = .next { s with events := rest }) ∧
    ((f = .token → s.cfg.lengthBits < s.bitRemaining) →
      (∀ i sb r, decodeForm s.cfg s.tree f (s.sb.drop s.si) s.reader = .ok (i, sb, r) →
        step s = exec i { s with
          events := rest, si := s.sb.length - sb.length, rp := r.rp, tok := s.tok ++ asTokens i }) ∧
      (∀ e, decodeForm s.cfg s.tree f (s.sb.drop s.si) s.reader = .error e →
        ∃ t, step s = .next t ∧ Failed e t ∧ t.ibuf = s.ibuf ∧ t.ilen = s.ilen ∧ t.cfg = s.cfg ∧ t.events = rest))

/-- 30_encoding.md R82 (D26): the reserved command codes are refused. -/
def Obligations.ReservedCommandsRefused : Prop :=
  ∀ (s : State) (code : BitVec 4) (rest : List Event), s.events = .command code :: rest →
    (code = 0 ∨ 11 ≤ code.toNat) → step s = .refused (.reservedCommand code)

/-- 00_scope.md R14, 60_exceptions.md R173: under a configuration that is not well formed every operation is refused, and so
is the reading of any container form (a move of the model's own: log entries 4, 11). -/
def Obligations.IllFormedConfigRefused : Prop :=
  (∀ (s : State) (i : Instr), i ∈ operations → s.cfg.wf = false → exec i s = .refused .illFormedConfig) ∧
  ∀ (s : State) (f : Form) (rest : List Event), s.events = .interpret f :: rest → s.cfg.wf = false →
    step s = .refused .illFormedConfig

/-- 00_scope.md R14: the three conditions of a well-formed configuration, the third for every `k >= 1`; the default
configuration is well formed. -/
def Obligations.ConfigWellFormedIffR14 : Prop :=
  Cfg.default.wf = true ∧ ∀ c : Cfg, c.wf = true ↔
    8 ≤ c.lengthBits ∧ 1 ≤ c.windowBits ∧ c.windowBits ≤ 62 ∧
      ∀ k, 1 ≤ k → (65 + c.windowBits + k * c.lengthBits) % 8 ≠ 0

/-! ## Encoding -/

/-- 30_encoding.md R81: the ten command codes, and no other code is a command. -/
def Obligations.CommandCodes : Prop :=
  ∀ (code : BitVec 4) (i : Instr), decodeCommand code = .ok i ↔
    (code, i) ∈ ([(0b0001, .find), (0b0010, .tokenize), (0b0011, .detokenize), (0b0100, .build), (0b0101, .getcode),
      (0b0110, .serialize), (0b0111, .header), (0b1000, .deserialize), (0b1001, .encode), (0b1010, .decode)] :
        List (BitVec 4 × Instr))

/-- A few words written out from the spec's encodings decode to what they stand for (30_encoding.md R61, R67 to R70, R81;
95_test_vectors.md V20): the command `1001`; in the tree of V20 the token `0 01100001` is LIT 97 and `1 00000110` is
COPY 2, 6; the structure bit 0 with the leaf value 2; the structure bit 1; the field of 62 zeros and `11`. -/
def Obligations.SpecWordsDecode : Prop :=
  decodeCommand 0b1001 = .ok .encode ∧
  decodeForm Cfg.default (some (.internal (.leaf 0) (.leaf 2))) .token []
    ⟨99, [false, false, true, true, false, false, false, false, true]⟩ = .ok (.lit 97, [], ⟨108, []⟩) ∧
  decodeForm Cfg.default (some (.internal (.leaf 0) (.leaf 2))) .token []
    ⟨117, [true, false, false, false, false, false, true, true, false]⟩ = .ok (.copy 2 6, [], ⟨126, []⟩) ∧
  decodeForm Cfg.default none .node [false] ⟨83, List.replicate 14 false ++ [true, false]⟩ = .ok (.leaf 2, [], ⟨99, []⟩) ∧
  decodeForm Cfg.default none .node [true] ⟨67, []⟩ = .ok (.internal, [], ⟨67, []⟩) ∧
  decodeForm Cfg.default none .structSize [] ⟨0, List.replicate 62 false ++ [true, true]⟩ = .ok (.structSize 3, [], ⟨64, []⟩)

/-- 00_scope.md section 6.1: `val(u_N(v)) = v` for `v < 2^N`, a field of `N` bits has `N` bits, and a bit string is the
field of its own value. -/
def Obligations.FieldsRoundTrip : Prop :=
  (∀ n v, v < 2 ^ n → bval (uN n v) = v) ∧ (∀ n v, (uN n v).length = n) ∧ ∀ b : Bits, uN b.length (bval b) = b

/-- 40_bitstream.md R89, 20_memory.md R44 (D3): bit `k` of the input is bit `7 - (k mod 8)` of byte `k div 8`, there are
`8 * ILEN` bits, and `BitRemaining() = 8 * ILEN - RP`. -/
def Obligations.InputBitAddressing : Prop :=
  ∀ s : State, s.inputBits.length = 8 * s.ilen ∧ s.bitRemaining = 8 * s.ilen - s.rp ∧
    ∀ k, k < 8 * s.ilen →
      s.inputBits[k]? = some ((s.ibuf.read (k / 8)).toNat / 2 ^ (7 - k % 8) % 2 == 1)

/-- 40_bitstream.md R88, R92: a bit string of whole bytes, packed and read back, is itself, and `CUR` is its length over
8. -/
def Obligations.PackedBitsReadBack : Prop :=
  ∀ w : Bits, w.length % 8 = 0 →
    (packOut w).cur = w.length / 8 ∧
    ∀ s : State, s.ibuf = (packOut w).mem → s.ilen = (packOut w).cur → s.inputBits = w

/-- Decoding undoes encoding for the container forms, whatever follows: a token under any tree that holds its flag, a node
with its leaf value, the field `struct_size`. Padding encodes as 0 to 7 zero bits up to a byte boundary, and the decoder
reads none of it (30_encoding.md R61, R65, R67 to R70, R78). -/
def Obligations.DecodeOfEncode : Prop :=
  ∀ (c : Cfg) (tree : CodeTree) (n : Nat) (i : Instr) (form : Form) (sb main sbRest more : Bits) (rp : Nat),
    i.wf c = true → encode c tree n i = some (.container form sb main) →
      (form ≠ .pad → decodeForm c tree form (sb ++ sbRest) ⟨rp, main ++ more⟩ =
        .ok (i, sbRest, ⟨rp + main.length, more⟩)) ∧
      (form = .pad → i = .pad ∧ sb = [] ∧ main = List.replicate ((8 - n % 8) % 8) false ∧
        decodeForm c tree form sbRest ⟨rp, main ++ more⟩ = .ok (.pad, sbRest, ⟨rp, main ++ more⟩))

/-- Encoding undoes decoding: what the decoder took off the streams is the encoding of what it answered, and that
instruction is well formed. For a token, where the tree's leaves are distinct and fit (43_treebuilder.md R126;
30_encoding.md R72). -/
def Obligations.EncodeOfDecode : Prop :=
  ∀ (c : Cfg) (tree : CodeTree) (n : Nat) (form : Form) (sb sb' : Bits) (r r' : Reader) (i : Instr),
    form ≠ .pad → (form = .token → (codeTreeFlags tree).Nodup ∧ Fits c tree) →
    decodeForm c tree form sb r = .ok (i, sb', r') →
      i.wf c = true ∧ ∃ taken main, encode c tree n i = some (.container form taken main) ∧
        sb = taken ++ sb' ∧ r.unread = main ++ r'.unread ∧ r'.rp = r.rp + main.length

/-! ## LZ77_matcher -/

/-- 41_matcher.md R95, R98, R100: FIND completes with the longest match in the window, the most recent among equals, or
`(0, 0)`; nothing else changes but `STATUS` and `ERR`. -/
def Obligations.FindLongestMostRecent : Prop :=
  ∀ s : State, s.cfg.wf = true →
    ∃ d l, exec .find s = .next (completed { s with dist := d, len := l }) ∧ IsBestMatch s.cfg s.text s.pos d l

/-! ## TokenStream_encoder_decoder -/

/-- 42_tokenstream.md R105, R106, R107: TOKENIZE completes with the scan of the text: at each position FIND's answer, a
literal and one byte on, or a back-reference and its length on; at the end `POS = ILEN` and `DIST`, `LEN` hold FIND's last
answer. -/
def Obligations.TokenizeScansTheText : Prop :=
  ∀ s : State, s.cfg.wf = true →
    ∃ toks d l, exec .tokenize s = .next (completed { s with tok := toks, pos := s.ilen, dist := d, len := l }) ∧
      ScansTo s.cfg s.text 0 toks ∧ (d, l) = (toks.getLast?.map matchOf).getD (0, 0)

/-- 42_tokenstream.md R109, R117: the tokens' spans add up to the text's length, every flag is at most `MAX_DIST`, every
length from 1 to `MAX_LEN`, every literal a byte. -/
def Obligations.TokensCoverAndFit : Prop :=
  ∀ s t : State, exec .tokenize s = .next t →
    (t.tok.map spanOf).sum = s.ilen ∧
    ∀ k ∈ t.tok, (k.flag = 0 ∧ k.payload ≤ 255) ∨
      (1 ≤ k.flag ∧ k.flag ≤ s.cfg.maxDist ∧ 1 ≤ k.payload ∧ k.payload ≤ s.cfg.maxLen)

/-- 42_tokenstream.md R116: DETOKENIZE of TOKENIZE's tokens completes and gives the text back. -/
def Obligations.TokensReplayToTheText : Prop :=
  ∀ s t : State, exec .tokenize s = .next t →
    ∃ u, exec .detokenize t = .next u ∧ u.status = .done ∧ u.err = none ∧ u.cur = s.ilen ∧
      u.obuf.bytes u.cur = s.text

/-- 42_tokenstream.md R110 to R115: a token list (`TOK` as it is read: FieldsHoldTheirWidth) that replays is replayed to its
end; the output is the bytes it stands
for, and nothing else changes but `STATUS` and `ERR`. -/
def Obligations.DetokenizeReplays : Prop :=
  ∀ s : State, s.cfg.wf = true → Replayable 0 s.tokens →
    ∃ m : Memory, exec .detokenize s = .next (completed { s with obuf := m, cur := (expand s.tokens []).length }) ∧
      m.wf ∧ m.bytes (expand s.tokens []).length = expand s.tokens []

/-- 42_tokenstream.md R113, 60_exceptions.md R178: a copy of at least one byte that reaches before the start of the output
ends DETOKENIZE with DecodeUnderrunError, whatever tokens follow; only the output, `STATUS` and `ERR` are touched. -/
def Obligations.DetokenizeUnderrun : Prop :=
  ∀ (s : State) (front back : List Token) (k : Token), s.cfg.wf = true → s.tokens = front ++ k :: back →
    Replayable 0 front → 1 ≤ k.payload → (front.map spanOf).sum < k.flag →
      ∃ m n, exec .detokenize s = .next { s with
        obuf := m, cur := n, status := .failed, err := some .decodeUnderrun, failures := s.failures + 1 }

/-- 42_tokenstream.md R111, 45_container.md R161 (D14): a literal payload above 255 is refused, in DETOKENIZE, in DECODE once
the header and all tokens are read, and alone. That a token before it decides first is log entry 13. -/
def Obligations.WideLiteralRefused : Prop :=
  (∀ (s : State) (front back : List Token) (k : Token), s.cfg.wf = true → s.tokens = front ++ k :: back →
    Replayable 0 front → k.flag = 0 → 255 < k.payload → exec .detokenize s = .refused (.literalTooWide k.payload)) ∧
  (∀ (s : State) (t : CodeTree) (front back : List Token) (k : Token) (body residual : Bits), s.cfg.wf = true →
    HeaderFits s.cfg t → CodedUnder s.cfg t (front ++ k :: back) body →
    s.inputBits = treeHeader s.cfg t ++ body ++ residual → residual.length ≤ s.cfg.lengthBits →
    (∀ f, t = some (.leaf f) → residual ≠ []) → Replayable 0 front → k.flag = 0 → 255 < k.payload →
      exec .decode s = .refused (.literalTooWide k.payload)) ∧
  ∀ (s : State) (p : Nat), 255 < p → exec (.lit p) s = .refused (.literalTooWide p)

/-- 42_tokenstream.md R111: LIT appends its byte; every other byte and every other element stays. -/
def Obligations.LitAppendsItsByte : Prop :=
  ∀ (s : State) (p : Nat), p ≤ 255 →
    ∃ m : Memory, exec (.lit p) s = .next { s with obuf := m, cur := s.cur + 1 } ∧
      (s.obuf.wf → m.wf ∧ ∀ a, m.read a = if a = s.cur then BitVec.ofNat 8 p else s.obuf.read a)

/-- 42_tokenstream.md R112, R115: COPY appends `l` bytes, byte `i` of them the byte `i mod d` of the last `d`; every other
byte and every other element stays. -/
def Obligations.CopyRepeatsTheLastBytes : Prop :=
  ∀ (s : State) (d l : Nat), s.obuf.wf → 1 ≤ d → d ≤ s.cur →
    ∃ m : Memory, exec (.copy d l) s = .next { s with obuf := m, cur := s.cur + l } ∧ m.wf ∧
      (∀ i, i < l → m.read (s.cur + i) = s.obuf.read (s.cur - d + i % d)) ∧
      ∀ a, (a < s.cur ∨ s.cur + l ≤ a) → m.read a = s.obuf.read a

/-- 42_tokenstream.md R112, R113, R114 (D13): a copy of no byte changes nothing, whatever its distance; a copy of at least
one byte from before the start, or from the cursor itself (distance 0), raises DecodeUnderrunError, touching only the
output, `STATUS` and `ERR` (and the error count that selects the free values, log entry 6). -/
def Obligations.CopyZeroAndUnderrun : Prop :=
  ∀ (s : State) (d l : Nat),
    (exec (.copy d 0) s = .next s) ∧
    (1 ≤ l → (d = 0 ∨ s.cur < d) →
      ∃ m n, exec (.copy d l) s = .next { s with
        obuf := m, cur := n, status := .failed, err := some .decodeUnderrun, failures := s.failures + 1 })

/-! ## Huffman_tree_builder -/

/-- 43_treebuilder.md R121: BUILD completes, and its table counts flags only: each flag that occurs has its number of
occurrences, at least 1; no other flag has an entry; the counts sum to `TLEN`. Payloads play no part. -/
def Obligations.BuildCountsFlags : Prop :=
  ∀ s : State, s.cfg.wf = true →
    ∃ (f : List (Nat × Nat)) (t : CodeTree), exec .build s = .next (completed { s with freq := f, tree := t }) ∧
      (f.Pairwise fun a b => a.1 < b.1) ∧ (∀ g n, (g, n) ∈ f ↔ n = (s.tokens.map Token.flag).count g ∧ 1 ≤ n) ∧
      (f.map Prod.snd).sum = s.tlen

/-- 43_treebuilder.md R120, R122 to R125: BUILD completes with `EMPTY` for no token, and otherwise with the tree that merging
the two lowest nodes, round by round, gives from one leaf per entry of the table; nothing but `FREQ`, `TREE`, `STATUS` and
`ERR` changes. The tie-break and the child order are the spec's own decisions (D7, D8), `EMPTY` too (D5). -/
def Obligations.BuildMergesTheLowest : Prop :=
  ∀ s : State, s.cfg.wf = true →
    ∃ (f : List (Nat × Nat)) (t : CodeTree), exec .build s = .next (completed { s with freq := f, tree := t }) ∧
      ((s.tokens = [] ∧ f = [] ∧ t = none) ∨
        (s.tokens ≠ [] ∧ ∃ tr, t = some tr ∧ MergesTo (f.map fun e => ⟨e.2, e.1, .leaf e.1⟩) tr))

/-- 43_treebuilder.md R126, R132: every flag of the tokens is exactly one leaf of the tree, and there is no other leaf; the
tree has as many leaves as the table has entries. -/
def Obligations.BuildOneLeafPerFlag : Prop :=
  ∀ s t : State, exec .build s = .next t →
    (codeTreeFlags t.tree).Nodup ∧ (∀ f, f ∈ codeTreeFlags t.tree ↔ ∃ k ∈ s.tokens, k.flag = f) ∧
    (codeTreeFlags t.tree).length = t.freq.length

/-- 43_treebuilder.md R127: BUILD depends on how often each flag occurs, not on the order or the payloads. -/
def Obligations.BuildIgnoresOrder : Prop :=
  ∀ s s' t t' : State, (s.tokens.map Token.flag).Perm (s'.tokens.map Token.flag) → exec .build s = .next t →
    exec .build s' = .next t' → t.tree = t'.tree ∧ t.freq = t'.freq

/-- 43_treebuilder.md R128, R129: for a flag some leaf holds, GETCODE completes with a path to a leaf of that flag, the
first such leaf in preorder (D15); for a single leaf it is the empty code. Only `CODE`, `STATUS` and `ERR` change. -/
def Obligations.GetcodeGivesThePath : Prop :=
  ∀ (s : State) (t : Tree), s.cfg.wf = true → s.tree = some t → s.flagOperand ∈ flagsOf t →
    ∃ code, exec .getcode s = .next (completed { s with code := code }) ∧
      follow t code = some (.leaf s.flagOperand) ∧
      (∀ other, follow t other = some (.leaf s.flagOperand) →
        code = other ∨ ∃ p a b, code = p ++ false :: a ∧ other = p ++ true :: b) ∧
      (t = .leaf s.flagOperand → code = [])

/-- 43_treebuilder.md R130: a flag no leaf holds, and so any flag under `EMPTY`, ends GETCODE with TreeLookupError; it never
happens for a flag of the tokens the tree was built from, nor in ENCODE. Only `CODE`, `STATUS` and `ERR` are touched (and
the error count that selects the free values, log entry 6). -/
def Obligations.GetcodeAbsentFlag : Prop :=
  (∀ s : State, s.cfg.wf = true → s.flagOperand ∉ codeTreeFlags s.tree →
    ∃ code, exec .getcode s = .next { s with
      code := code, status := .failed, err := some .treeLookup, failures := s.failures + 1 }) ∧
  (∀ (s t : State) (k : Token), exec .build s = .next t → k ∈ s.tokens →
    ∃ u, exec .getcode { t with flag := k.flag } = .next u ∧ u.status = .done) ∧
  ∀ s t : State, exec .encode s = .next t → t.err ≠ some .treeLookup

/-- 43_treebuilder.md R131: under one tree with distinct leaves, the code of one flag is no front of the code of another,
flags being taken as GETCODE reads them (FieldsHoldTheirWidth). -/
def Obligations.CodesArePrefixFree : Prop :=
  ∀ (s t t' : State) (g : Nat), (codeTreeFlags s.tree).Nodup →
    s.flagOperand ≠ ({ s with flag := g } : State).flagOperand →
    exec .getcode s = .next t → t.status = .done → exec .getcode { s with flag := g } = .next t' → t'.status = .done →
      ¬ t.code <+: t'.code

/-! ## Huffman_tree_codec -/

/-- 44_treecodec.md R135: SERIALIZE of `EMPTY`, of a leaf, and of an internal node from what it gives for the two subtrees;
only `SB`, `LV`, `STATUS` and `ERR` change. -/
def Obligations.SerializePreorder : Prop :=
  ∀ s : State, s.cfg.wf = true →
    (s.tree = none → exec .serialize s = .next (completed { s with sb := [], lv := [] })) ∧
    (∀ f, s.tree = some (.leaf f) → f < s.cfg.windowSize →
      exec .serialize s = .next (completed { s with sb := [false], lv := [f] })) ∧
    (∀ l r, s.tree = some (.internal l r) → Fits s.cfg s.tree →
      ∃ sl lvl sr lvr,
        exec .serialize { s with tree := some l } = .next (completed { s with tree := some l, sb := sl, lv := lvl }) ∧
        exec .serialize { s with tree := some r } = .next (completed { s with tree := some r, sb := sr, lv := lvr }) ∧
        exec .serialize s = .next (completed { s with sb := true :: (sl ++ sr), lv := lvl ++ lvr }))

/-- 44_treecodec.md R140, R141: as many 0 bits as leaf values, `S = 2L - 1`, and the leaf values are the flags in preorder. -/
def Obligations.SerializeCounts : Prop :=
  ∀ (s u : State) (t : Tree), s.tree = some t → exec .serialize s = .next u →
    u.lv = flagsOf t ∧ u.sb.count false = u.lv.length ∧ u.sb.length + 1 = 2 * u.lv.length

/-- 44_treecodec.md R136 (D30): SERIALIZE and HEADER refuse a tree that holds a flag of `2^WINDOW_BITS` or more. -/
def Obligations.WideLeafRefused : Prop :=
  ∀ (s : State) (front back : List Nat) (v : Nat), s.cfg.wf = true → codeTreeFlags s.tree = front ++ v :: back →
    (∀ f ∈ front, f < s.cfg.windowSize) → s.cfg.windowSize ≤ v →
      exec .serialize s = .refused (.leafTooWide v) ∧ exec .header s = .refused (.leafTooWide v)

/-- 44_treecodec.md R137: HEADER completes with the 64-bit length of the structure bits, these bits, and each leaf value in
`WINDOW_BITS` bits, `SB` and `LV` being what SERIALIZE gives; only `W`, `SB`, `LV`, `STATUS` and `ERR` change. Where
`u_64(S)` is not defined, which is so for no tree of distinct flags that fit (R141), 64 bits stand in its place and nothing
is said of them (the model's choice, log entry 18). -/
def Obligations.HeaderLayout : Prop :=
  ∀ s : State, s.cfg.wf = true → Fits s.cfg s.tree →
    ∃ sb lv size, exec .serialize s = .next (completed { s with sb := sb, lv := lv }) ∧
      exec .header s = .next (completed { s with
        sb := sb, lv := lv, w := size ++ sb ++ lv.flatMap (uN s.cfg.windowBits) }) ∧
      (sb.length < 2 ^ 64 → size = uN 64 sb.length) ∧ ((codeTreeFlags s.tree).Nodup → sb.length < 2 ^ 64) ∧
      (size ++ sb ++ lv.flatMap (uN s.cfg.windowBits)).length = 64 + sb.length + lv.length * s.cfg.windowBits

/-- 44_treecodec.md R147, first half: DESERIALIZE in front of a header, whatever follows it, completes with the header's
tree, its structure bits and leaf values, and `RP` behind it. -/
def Obligations.DeserializeReadsHeader : Prop :=
  ∀ (s : State) (t : CodeTree) (more : Bits), s.cfg.wf = true → HeaderFits s.cfg t →
    s.inputBits.drop s.rp = treeHeader s.cfg t ++ more →
      exec .deserialize s = .next (completed { s with
        tree := t, sb := (ser t).1, lv := (ser t).2, si := (ser t).1.length,
        rp := s.rp + (64 + (ser t).1.length + (ser t).2.length * s.cfg.windowBits) })

/-- 44_treecodec.md R143, R147, second half: DESERIALIZE completes only in front of a header, and then HEADER of its tree is
the bits it consumed; otherwise it ends with MalformedHeaderError. So does DECODE where no header stands at bit 0 of the
input (45_container.md R155, R161; 60_exceptions.md R176). -/
def Obligations.DeserializeOnlyHeaders : Prop :=
  (∀ s : State, s.cfg.wf = true → (∀ t more, HeaderFits s.cfg t → s.inputBits ≠ treeHeader s.cfg t ++ more) →
    ∃ u, exec .decode s = .next u ∧ Failed .malformedHeader u) ∧
  ∀ s : State, s.cfg.wf = true →
    ∃ u, exec .deserialize s = .next u ∧
      ((u.status = .done ∧ u.err = none ∧ HeaderFits s.cfg u.tree ∧
          s.inputBits.drop s.rp = treeHeader s.cfg u.tree ++ s.inputBits.drop u.rp) ∨
        (Failed .malformedHeader u ∧
          ∀ t more, HeaderFits s.cfg t → s.inputBits.drop s.rp ≠ treeHeader s.cfg t ++ more))

/-- 44_treecodec.md R143: the five places where DESERIALIZE raises MalformedHeaderError: fewer than 64 bits; fewer than `S`
after them; structure exhausted while a node is expected; structure bits left over; fewer leaf-value bits than its leaves
need. Where enough bits follow, whatever they are, they are taken as the leaf values. No other error kind occurs. -/
def Obligations.DeserializeMalformed : Prop :=
  ∀ s : State, s.cfg.wf = true →
    (s.bitRemaining < 64 → ∃ u, exec .deserialize s = .next u ∧ Failed .malformedHeader u) ∧
    (∀ size rest, size < 2 ^ 64 → s.inputBits.drop s.rp = uN 64 size ++ rest → rest.length < size →
      ∃ u, exec .deserialize s = .next u ∧ Failed .malformedHeader u) ∧
    (∀ sb rest, 0 < sb.length → sb.length < 2 ^ 64 → s.inputBits.drop s.rp = uN 64 sb.length ++ sb ++ rest →
      (((∀ (t : Tree) (extra : Bits), sb ≠ (serTree t).1 ++ extra) ∨
        (∃ (t : Tree) (extra : Bits), sb = (serTree t).1 ++ extra ∧ extra ≠ []) ∨
        (∃ t : Tree, sb = (serTree t).1 ∧ rest.length < (flagsOf t).length * s.cfg.windowBits)) →
      ∃ u, exec .deserialize s = .next u ∧ Failed .malformedHeader u) ∧
      ∀ t : Tree, sb = (serTree t).1 → (flagsOf t).length * s.cfg.windowBits ≤ rest.length →
        ∃ u, exec .deserialize s = .next u ∧ u.status = .done ∧ u.lv.length = (flagsOf t).length ∧
          u.lv.flatMap (uN s.cfg.windowBits) = rest.take ((flagsOf t).length * s.cfg.windowBits)) ∧
    ∀ u, exec .deserialize s = .next u → u.err = none ∨ u.err = some .malformedHeader

/-- 44_treecodec.md R142 (`parse` and its `else` branch): LEAF makes a leaf and records its value; INTERNAL reads the left
subtree and then the right from the structure bits and the leaf values that follow. -/
def Obligations.NodeForms : Prop :=
  (∀ (s : State) (v : Nat), exec (.leaf v) s = .next { s with tree := some (.leaf v), lv := s.lv ++ [v] }) ∧
  ∀ (s : State) (l r : Tree) (rest more : Bits), Fits s.cfg (some (.internal l r)) →
    s.sb.drop s.si = (serTree l).1 ++ (serTree r).1 ++ rest →
    s.inputBits.drop s.rp = (flagsOf l ++ flagsOf r).flatMap (uN s.cfg.windowBits) ++ more →
      exec .internal s = .next { s with
        tree := some (.internal l r)
        si := s.si + (serTree l).1.length + (serTree r).1.length
        rp := s.rp + (flagsOf l ++ flagsOf r).length * s.cfg.windowBits
        lv := s.lv ++ (flagsOf l ++ flagsOf r) }

/-- 44_treecodec.md R142, R143: INTERNAL raises MalformedHeaderError when no two subtrees follow. -/
def Obligations.InternalMalformed : Prop :=
  ∀ s : State,
    (∀ (l r : Tree) (rest more : Bits), Fits s.cfg (some (.internal l r)) →
      s.sb.drop s.si = (serTree l).1 ++ (serTree r).1 ++ rest →
      s.inputBits.drop s.rp ≠ (flagsOf l ++ flagsOf r).flatMap (uN s.cfg.windowBits) ++ more) →
    ∃ u, exec .internal s = .next u ∧ Failed .malformedHeader u

/-- A step that reads a node form reads the whole subtree that starts there, as `parse` does (44_treecodec.md R142; the
model's own move: log entry 4). -/
def Obligations.NodeStepParses : Prop :=
  ∀ (s : State) (t : Tree) (rest : List Event) (sbRest more : Bits), s.events = .interpret .node :: rest →
    s.cfg.wf = true → Fits s.cfg (some t) → s.sb.drop s.si = (serTree t).1 ++ sbRest →
    s.inputBits.drop s.rp = (flagsOf t).flatMap (uN s.cfg.windowBits) ++ more →
      step s = .next { s with
        events := rest
        tree := some t
        si := s.si + (serTree t).1.length
        rp := s.rp + (flagsOf t).length * s.cfg.windowBits
        lv := s.lv ++ flagsOf t }

/-- 44_treecodec.md R142, R145: after `struct_size` is read, 0 makes the tree `EMPTY` and reads nothing more; otherwise that
many bits go to `SB`; where fewer remain, MalformedHeaderError. -/
def Obligations.StructSizeForm : Prop :=
  ∀ (s : State) (size : Nat),
    (size = 0 → exec (.structSize size) s = .next { s with tree := none, sb := [], lv := [], si := 0 }) ∧
    (∀ sb more, 0 < size → sb.length = size → s.inputBits.drop s.rp = sb ++ more →
      exec (.structSize size) s = .next { s with sb := sb, lv := [], si := 0, rp := s.rp + size }) ∧
    (s.bitRemaining < size → ∃ u, exec (.structSize size) s = .next u ∧ Failed .malformedHeader u)

/-! ## bitpacked_container -/

/-- 40_bitstream.md R87, 30_encoding.md R65: PAD appends `(8 - (WLEN mod 8)) mod 8` zero bits to `W`, at most 7, and `WLEN`
is then a multiple of 8; nothing else changes. That PAD runs on the writer is log entry 16. -/
def Obligations.PadToByteBoundary : Prop :=
  ∀ s : State,
    exec .pad s = .next { s with w := s.w ++ List.replicate ((8 - s.wlen % 8) % 8) false } ∧
    (s.w ++ List.replicate ((8 - s.wlen % 8) % 8) false).length % 8 = 0 ∧ (8 - s.wlen % 8) % 8 ≤ 7

/-- 45_container.md R150: ENCODE completes on every text. `TOK` is the scan of the text, `TREE` and `FREQ` what BUILD makes of
it, and the container is the tree's header, the coded tokens and zero padding, in `W` and, packed, in `OBUF`. Of the working
elements `FLAG` and `CODE` another statement speaks. -/
def Obligations.EncodeWritesTheContainer : Prop :=
  ∀ s : State, s.cfg.wf = true →
    ∃ (t b : State) (body : Bits), exec .encode s = .next t ∧ ScansTo s.cfg s.text 0 t.tok ∧
      exec .build { s with tok := t.tok } = .next b ∧ HeaderFits s.cfg b.tree ∧ CodedUnder s.cfg b.tree t.tok body ∧
      t = completed { s with
        tok := t.tok, pos := s.ilen
        dist := ((t.tok.getLast?.map matchOf).getD (0, 0)).1, len := ((t.tok.getLast?.map matchOf).getD (0, 0)).2
        freq := b.freq, tree := b.tree, sb := (ser b.tree).1, lv := (ser b.tree).2
        w := treeHeader s.cfg b.tree ++ body ++
          List.replicate ((8 - (treeHeader s.cfg b.tree ++ body).length % 8) % 8) false
        obuf := t.obuf, cur := t.cur, flag := t.flag, code := t.code } ∧
      t.obuf.wf ∧ bitsOf (t.obuf.bytes t.cur) = t.w ∧ 8 * t.cur = t.wlen

/-- After ENCODE `FLAG` and `CODE` hold what GETCODE was last asked and gave: the last token's flag and code, or 0 and the
empty code where there is no token. The spec does not write this out; the model infers it from the pseudocode of R150 and
from R192 (DEDUCED, log entry 8). -/
def Obligations.EncodeLeavesTheLastCode : Prop :=
  ∀ s t : State, exec .encode s = .next t →
    (t.tok = [] → t.flag = 0 ∧ t.code = []) ∧
    ∀ k, t.tok.getLast? = some k → t.flag = k.flag ∧
      ∃ u, exec .getcode t = .next u ∧ u.status = .done ∧ u.code = t.code

/-- 45_container.md R152 (D5): the container of the empty text is eight zero bytes. -/
def Obligations.EncodeEmptyText : Prop :=
  ∀ s : State, s.cfg.wf = true → s.ilen = 0 →
    ∃ t, exec .encode s = .next t ∧ t.status = .done ∧ t.tree = none ∧ t.tok = [] ∧
      t.obuf.bytes t.cur = List.replicate 8 0

/-- 45_container.md R163: for every text, ENCODE completes, and DECODE of its container, under the same well-formed
configuration, completes and gives the text back (with the same tokens and tree). -/
def Obligations.DecodeOfEncodeIsTheText : Prop :=
  ∀ s : State, s.cfg.wf = true →
    ∃ t, exec .encode s = .next t ∧ t.status = .done ∧
      ∀ u : State, u.cfg = s.cfg → u.text = t.obuf.bytes t.cur →
        ∃ v, exec .decode u = .next v ∧ v.status = .done ∧ v.err = none ∧ v.cur = s.ilen ∧
          v.obuf.bytes v.cur = s.text ∧ v.tok = t.tok ∧ v.tree = t.tree

/-- 45_container.md R155 to R158, R162: DECODE of a header, a coded token list that replays, and at most `LENGTH_BITS`
residual bits (at least one behind the tokens of a single-leaf tree, R201) completes with the tree, the tokens and the
bytes they stand for; nothing but the elements of R155, `STATUS` and `ERR` changes. -/
def Obligations.DecodeReadsTheContainer : Prop :=
  ∀ (s : State) (t : CodeTree) (toks : List Token) (body residual : Bits), s.cfg.wf = true → HeaderFits s.cfg t →
    CodedUnder s.cfg t toks body → s.inputBits = treeHeader s.cfg t ++ body ++ residual →
    residual.length ≤ s.cfg.lengthBits → (∀ f, t = some (.leaf f) → toks ≠ [] → residual ≠ []) →
    Replayable 0 toks →
      ∃ m : Memory, exec .decode s = .next (completed { s with
          obuf := m, cur := (expand toks []).length, tok := toks, tree := t, sb := (ser t).1, lv := (ser t).2
          si := (ser t).1.length, rp := (treeHeader s.cfg t).length + body.length }) ∧
        m.wf ∧ m.bytes (expand toks []).length = expand toks []

/-- 45_container.md R160 (D6), 30_encoding.md R78, R79: under `struct_size = 0`, at most `LENGTH_BITS` bits more are ignored
and the text is empty; with more bits DECODE ends with MalformedHeaderError. -/
def Obligations.DecodeEmptyTree : Prop :=
  ∀ (s : State) (more : Bits), s.cfg.wf = true → s.inputBits = List.replicate 64 false ++ more →
    (more.length ≤ s.cfg.lengthBits →
      ∃ u, exec .decode s = .next u ∧ u.status = .done ∧ u.err = none ∧ u.cur = 0 ∧ u.tok = [] ∧ u.tree = none ∧
        u.rp = 64) ∧
    (s.cfg.lengthBits < more.length → ∃ u, exec .decode s = .next u ∧ Failed .malformedHeader u)

/-- 45_container.md R159 (D11), 60_exceptions.md R176: when a token has been started and no leaf is reached within the bits
left, or fewer than `LENGTH_BITS` bits are left behind the leaf, DECODE ends with TruncatedStreamError, whatever the tokens
before it would replay to. -/
def Obligations.DecodeTruncated : Prop :=
  ∀ (s : State) (t : Tree) (toks : List Token) (body rest : Bits), s.cfg.wf = true → HeaderFits s.cfg (some t) →
    CodedAs s.cfg t toks body → s.inputBits = treeHeader s.cfg (some t) ++ body ++ rest →
    s.cfg.lengthBits < rest.length →
    (∀ code f tail, rest = code ++ tail → follow t code = some (.leaf f) → tail.length < s.cfg.lengthBits) →
      ∃ u, exec .decode s = .next u ∧ Failed .truncatedStream u

/-- 45_container.md R156, R161, 60_exceptions.md R176: a container whose header and tokens all read, and one of whose tokens
copies from before the start of the output, ends DECODE with DecodeUnderrunError. -/
def Obligations.DecodeUnderrun : Prop :=
  ∀ (s : State) (t : CodeTree) (front back : List Token) (k : Token) (body residual : Bits), s.cfg.wf = true →
    HeaderFits s.cfg t → CodedUnder s.cfg t (front ++ k :: back) body →
    s.inputBits = treeHeader s.cfg t ++ body ++ residual → residual.length ≤ s.cfg.lengthBits →
    (∀ f, t = some (.leaf f) → residual ≠ []) → Replayable 0 front → 1 ≤ k.payload →
    (front.map spanOf).sum < k.flag →
      ∃ u, exec .decode s = .next u ∧ Failed .decodeUnderrun u

/-- 30_encoding.md R84, 60_exceptions.md R176: reading a container form by form, each token replayed as soon as it is read,
ends with the tree, tokens, cursors and bytes that DECODE ends with (on containers that decode; the forms' own moves:
log entry 4). -/
def Obligations.FormByFormEqualsDecode : Prop :=
  ∀ (s : State) (t : CodeTree) (toks : List Token) (body residual : Bits), s.cfg.wf = true → HeaderFits s.cfg t →
    CodedUnder s.cfg t toks body → s.inputBits = treeHeader s.cfg t ++ body ++ residual →
    residual.length ≤ s.cfg.lengthBits → (∀ f, t = some (.leaf f) → toks ≠ [] → residual ≠ []) →
    Replayable 0 toks → s.obuf = [] → s.cur = 0 → s.rp = 0 → s.tok = [] →
    s.events = .interpret .structSize ::
      ((if t = none then [] else [.interpret .node]) ++ List.replicate toks.length (.interpret .token)) →
      ∃ u v : State, Sys2Proof.core.run s.events.length s = Host.Outcome.next (σ := State) u ∧ exec .decode s = .next v ∧ v.status = .done ∧
        u.tree = v.tree ∧ u.sb = v.sb ∧ u.lv = v.lv ∧ u.tok = v.tok ∧ u.rp = v.rp ∧ u.cur = v.cur ∧
        u.obuf.bytes u.cur = v.obuf.bytes v.cur ∧ u.events = []

/-! ## Rules over all instructions -/

/-- 10_state.md R35, 60_exceptions.md R170, R182: an operation that ends in a next state reports it: `DONE` and `NONE`, or
`FAILED` and one of the kinds the rules allow it; six of the ten never fail. -/
def Obligations.OperationsReportTheirEnd : Prop :=
  ∀ (i : Instr) (s t : State), i ∈ operations → exec i s = .next t →
    (t.status = .done ∧ t.err = none) ∨ ∃ e ∈ reachableErrors i, Failed e t

/-- 20_memory.md R41, 60_exceptions.md R173: no instruction and no step reads a byte that does not exist, so none ends in the
model's fault. -/
def Obligations.NothingFaults : Prop :=
  (∀ (i : Instr) (s : State) (f : Fault), exec i s ≠ .fault f) ∧ ∀ (s : State) (f : Fault), step s ≠ .fault f

/-- 70_reset_and_hazards.md R192, 60_exceptions.md R178d: an instruction leaves every element alone that is not its own to
write, and the input, the configuration and the pending moves always; a form that is no operation leaves `STATUS` and `ERR`
alone unless it raises one of its errors. -/
def Obligations.FrameOfEveryInstruction : Prop :=
  ∀ (i : Instr) (s t : State), exec i s = .next t →
    (∀ e : Elem, e ∉ writes i → e.same s t) ∧ (Elem.sb ∉ writes i → t.si = s.si) ∧
    t.ibuf = s.ibuf ∧ t.ilen = s.ilen ∧ t.cfg = s.cfg ∧ t.events = s.events ∧
    (t.failures = s.failures ∨ (t.status = .failed ∧ t.failures = s.failures + 1)) ∧
    (i ∉ operations → (t.status = s.status ∧ t.err = s.err) ∨ ∃ e ∈ reachableErrors i, Failed e t)

/-- 10_state.md R21, R38, 45_container.md R165: an operation's end and its outputs are a function of the elements it reads
and `CFG`. After a failure the outputs hold no defined value (60_exceptions.md R178c) and nothing is said of them. -/
def Obligations.OutputsDependOnInputsOnly : Prop :=
  ∀ (i : Instr) (s s' : State), AgreeOnReads s s' i →
    match exec i s, exec i s' with
    | .next t, .next t' =>
      t'.status = t.status ∧ t'.err = t.err ∧ (t.status = .done → ∀ e ∈ writes i, e.same t t')
    | .fault f, .fault f' => f = f'
    | .refused r, .refused r' => r = r'
    | _, _ => False

/-- 10_state.md R27, R30; 00_scope.md section 6.3: every token an operation reads has a flag of `WINDOW_BITS` and a payload of
`LENGTH_BITS` bits, and the flag GETCODE reads has `WINDOW_BITS` bits; what fits is read as it was written, `TLEN` tokens in
all; and what TOKENIZE, ENCODE and DECODE leave in `TOK`, and ENCODE in `FLAG`, fits. What a field holds that was written too
wide is the model's free value (log entry 19). -/
def Obligations.FieldsHoldTheirWidth : Prop :=
  (∀ s : State, (∀ k ∈ s.tokens, TokenFits s.cfg k) ∧ s.tokens.length = s.tlen ∧ s.flagOperand < s.cfg.windowSize ∧
    (∀ (i : Nat) (k : Token), s.tok[i]? = some k → TokenFits s.cfg k → s.tokens[i]? = some k) ∧
    (s.flag < s.cfg.windowSize → s.flagOperand = s.flag)) ∧
  (∀ (s t : State) (i : Instr), i = .tokenize ∨ i = .encode ∨ i = .decode → exec i s = .next t → t.status = .done →
    t.tokens = t.tok) ∧
  ∀ s t : State, exec .encode s = .next t → t.flagOperand = t.flag
end

