-- ==== Sys2Proof/Laws/Memory.lean ====
section
/-! SUPPORT. The laws of the byte buffers: a read after a write, the canonical form every operation keeps, and the byte
sequence a buffer holds. -/

namespace Sys2Proof.Machine

/-! ## Reading -/

theorem Memory.read_of_all_ne (m : Memory) (a : Nat) (h : ∀ x ∈ m, x.1 ≠ a) : m.read a = unlistedByte := by
  induction m with
  | nil => rfl
  | cons x rest ih =>
    have h1 : x.1 ≠ a := h x List.mem_cons_self
    obtain ⟨y, b⟩ := x
    simp only [Memory.read]
    rw [if_neg h1]
    exact ih fun z hz => h z (List.mem_cons_of_mem _ hz)

theorem Memory.read_of_lt (m : Memory) (a : Nat) (h : ∀ x ∈ m, a < x.1) : m.read a = unlistedByte :=
  m.read_of_all_ne a fun x hx => Nat.ne_of_gt (h x hx)

theorem Memory.wf_cons {x : Host.Cell} {m : Memory} (h : Memory.wf (x :: m)) :
    m.wf ∧ (∀ y ∈ m, x.1 < y.1) ∧ x.2 ≠ unlistedByte :=
  ⟨⟨(List.pairwise_cons.1 h.1).2, fun y hy => h.2 y (List.mem_cons_of_mem _ hy)⟩,
    (List.pairwise_cons.1 h.1).1, h.2 x List.mem_cons_self⟩

theorem Memory.wf_cons_of {x : Host.Cell} {m : Memory} (hm : m.wf) (hx : ∀ y ∈ m, x.1 < y.1)
    (hb : x.2 ≠ unlistedByte) : Memory.wf (x :: m) :=
  ⟨List.pairwise_cons.2 ⟨hx, hm.1⟩, fun y hy => by
    rcases List.mem_cons.1 hy with rfl | h
    · exact hb
    · exact hm.2 y h⟩

/-! ## Writing -/

/-- A write puts cells only at its address; every other cell was there before. -/
theorem Memory.mem_write {m : Memory} {a : Nat} {b : Byte} {x : Host.Cell} (h : x ∈ m.write a b) :
    x ∈ m ∨ x.1 = a := by
  induction m with
  | nil =>
    simp only [Memory.write] at h
    split at h
    · exact absurd h List.not_mem_nil
    · exact .inr (by rw [List.mem_singleton.1 h])
  | cons y rest ih =>
    obtain ⟨k, c⟩ := y
    simp only [Memory.write] at h
    split at h
    · split at h
      · exact .inl h
      · rcases List.mem_cons.1 h with rfl | h
        · exact .inr rfl
        · exact .inl h
    · split at h
      · split at h
        · exact .inl (List.mem_cons_of_mem _ h)
        · rcases List.mem_cons.1 h with rfl | h
          · exact .inr rfl
          · exact .inl (List.mem_cons_of_mem _ h)
      · rcases List.mem_cons.1 h with rfl | h
        · exact .inl List.mem_cons_self
        · exact (ih h).imp_left (List.mem_cons_of_mem _)

theorem Memory.wf_write {m : Memory} (h : m.wf) (a : Nat) (b : Byte) : (m.write a b).wf := by
  induction m with
  | nil =>
    simp only [Memory.write]
    split
    · exact ⟨List.Pairwise.nil, by simp⟩
    · rename_i hb
      exact Memory.wf_cons_of ⟨List.Pairwise.nil, by simp⟩ (by simp) hb
  | cons y rest ih =>
    obtain ⟨k, c⟩ := y
    obtain ⟨hr, hlt, hc⟩ := Memory.wf_cons h
    simp only [Memory.write]
    split
    · rename_i hak
      split
      · exact h
      · rename_i hb
        refine Memory.wf_cons_of h (fun z hz => ?_) hb
        rcases List.mem_cons.1 hz with rfl | hz
        · exact hak
        · exact Nat.lt_trans hak (hlt z hz)
    · split
      · rename_i hak
        split
        · exact hr
        · rename_i hb
          exact Memory.wf_cons_of hr (fun z hz => hak ▸ hlt z hz) hb
      · rename_i h1 h2
        refine Memory.wf_cons_of (ih hr) (fun z hz => ?_) hc
        rcases Memory.mem_write hz with hz | hz
        · exact hlt z hz
        · show k < z.1
          omega

theorem Memory.below_write {m : Memory} {n a : Nat} (h : m.below n) (ha : a < n) (b : Byte) :
    (m.write a b).below n := by
  intro x hx
  rcases Memory.mem_write hx with hx | hx
  · exact h x hx
  · omega

theorem Memory.below_mono {m : Memory} {n k : Nat} (h : m.below n) (hk : n ≤ k) : m.below k :=
  fun x hx => Nat.lt_of_lt_of_le (h x hx) hk

/-- A read after a write: the byte written at its address, the old byte everywhere else. -/
theorem Memory.read_write {m : Memory} (h : m.wf) (a x : Nat) (b : Byte) :
    (m.write a b).read x = if x = a then b else m.read x := by
  induction m with
  | nil =>
    by_cases hb : b = unlistedByte <;> by_cases hx : x = a <;> simp [Memory.write, Memory.read, hb, hx]
    omega
  | cons y rest ih =>
    obtain ⟨k, c⟩ := y
    obtain ⟨hr, hlt, hc⟩ := Memory.wf_cons h
    simp only [Memory.write]
    split
    · rename_i hak
      split
      · rename_i hb
        split
        · rename_i hx
          subst hx
          rw [hb]
          refine Memory.read_of_lt _ _ fun z hz => ?_
          rcases List.mem_cons.1 hz with rfl | hz
          · exact hak
          · exact Nat.lt_trans hak (hlt z hz)
        · rfl
      · by_cases hx : x = a
        · simp [Memory.read, hx]
        · simp only [Memory.read, hx, if_false]
          rw [if_neg (fun h => hx h.symm)]
    · split
      · rename_i hak
        subst hak
        split
        · rename_i hb
          by_cases hx : x = a
          · subst hx
            rw [if_pos rfl, hb]
            exact Memory.read_of_lt _ _ hlt
          · simp only [Memory.read, hx, if_false]
            rw [if_neg (fun h => hx h.symm)]
        · by_cases hx : x = a
          · simp [Memory.read, hx]
          · simp only [Memory.read, hx, if_false]
            rw [if_neg (fun h => hx h.symm), if_neg (fun h => hx h.symm)]
      · rename_i h1 h2
        simp only [Memory.read]
        by_cases hk : k = x
        · rw [if_pos hk, if_pos hk, if_neg (by omega)]
        · rw [if_neg hk, if_neg hk, ih hr]

/-! ## Byte sequences -/

@[simp] theorem Memory.length_bytes (m : Memory) (n : Nat) : (m.bytes n).length = n := by
  simp [Memory.bytes]

theorem Memory.getElem?_bytes (m : Memory) (n i : Nat) : (m.bytes n)[i]? = if i < n then some (m.read i) else none := by
  simp only [Memory.bytes, List.getElem?_map]
  split
  · rename_i h
    rw [List.getElem?_range h]
    rfl
  · rename_i h
    rw [List.getElem?_eq_none (by simpa using h)]
    rfl

theorem Memory.bytes_succ (m : Memory) (n : Nat) : m.bytes (n + 1) = m.bytes n ++ [m.read n] := by
  simp [Memory.bytes, List.range_succ]

/-- Two buffers that read alike below a length hold the same bytes. -/
theorem Memory.bytes_congr {m k : Memory} {n : Nat} (h : ∀ i, i < n → m.read i = k.read i) : m.bytes n = k.bytes n :=
  List.map_congr_left fun i hi => h i (List.mem_range.1 hi)

theorem Memory.mem_cells {a : Nat} {bs : List Byte} {x : Host.Cell} (h : x ∈ Memory.cells a bs) :
    a ≤ x.1 ∧ x.1 < a + bs.length := by
  induction bs generalizing a with
  | nil => exact absurd h List.not_mem_nil
  | cons b rest ih =>
    simp only [Memory.cells] at h
    simp only [List.length_cons]
    split at h
    · have := ih h
      omega
    · rcases List.mem_cons.1 h with rfl | h
      · exact ⟨Nat.le_refl _, by show a < _; omega⟩
      · have := ih h
        omega

theorem Memory.wf_cells (a : Nat) (bs : List Byte) : (Memory.cells a bs).wf := by
  induction bs generalizing a with
  | nil => exact ⟨List.Pairwise.nil, by simp [Memory.cells]⟩
  | cons b rest ih =>
    simp only [Memory.cells]
    split
    · exact ih _
    · rename_i hb
      exact Memory.wf_cons_of (ih _) (fun y hy => (Memory.mem_cells hy).1) hb

theorem Memory.read_cells (a : Nat) (bs : List Byte) (i : Nat) (h : i < bs.length) :
    (Memory.cells a bs).read (a + i) = bs[i] := by
  induction bs generalizing a i with
  | nil => exact absurd h (Nat.not_lt_zero _)
  | cons b rest ih =>
    cases i with
    | zero =>
      simp only [Memory.cells, List.getElem_cons_zero, Nat.add_zero]
      split
      · rename_i hb
        rw [hb]
        exact Memory.read_of_lt _ _ fun x hx => (Memory.mem_cells hx).1
      · simp [Memory.read]
    | succ i =>
      have hi : i < rest.length := by simpa using h
      have e : a + (i + 1) = a + 1 + i := by omega
      simp only [Memory.cells, List.getElem_cons_succ]
      split
      · rw [e, ih _ _ hi]
      · simp only [Memory.read]
        rw [if_neg (by omega), e, ih _ _ hi]

theorem Memory.wf_ofBytes (bs : List Byte) : (Memory.ofBytes bs).wf := Memory.wf_cells 0 bs

theorem Memory.below_ofBytes (bs : List Byte) : (Memory.ofBytes bs).below bs.length := fun x hx => by
  have := (Memory.mem_cells (a := 0) hx).2
  omega

/-- A buffer made from a byte sequence holds that sequence. -/
@[simp] theorem Memory.bytes_ofBytes (bs : List Byte) : (Memory.ofBytes bs).bytes bs.length = bs := by
  refine List.ext_getElem? fun i => ?_
  rw [Memory.getElem?_bytes]
  split
  · rename_i h
    have := Memory.read_cells 0 bs i h
    rw [Nat.zero_add] at this
    rw [Memory.ofBytes, this, List.getElem?_eq_getElem h]
  · rename_i h
    exact (List.getElem?_eq_none (Nat.le_of_not_lt h)).symm

/-! ## The output buffer -/

/-- An output buffer in canonical form, with nothing past its cursor (10_state.md R24). -/
def Out.Ok (o : Out) : Prop := o.mem.wf ∧ o.mem.below o.cur

theorem Out.ok_empty : Out.empty.Ok := ⟨⟨List.Pairwise.nil, by simp [Out.empty]⟩, by simp [Out.empty]⟩

@[simp] theorem Out.append_cur (o : Out) (b : Byte) : (o.append b).cur = o.cur + 1 := rfl

theorem Out.ok_append {o : Out} (h : o.Ok) (b : Byte) : (o.append b).Ok :=
  ⟨Memory.wf_write h.1 _ _, Memory.below_write (Memory.below_mono h.2 (Nat.le_succ _)) (Nat.lt_succ_self _) b⟩

@[simp] theorem Out.bytes_length (o : Out) : o.bytes.length = o.cur := Memory.length_bytes _ _

@[simp] theorem Out.bytes_empty : Out.empty.bytes = [] := rfl

theorem Out.bytes_append {o : Out} (h : o.mem.wf) (b : Byte) : (o.append b).bytes = o.bytes ++ [b] := by
  show (o.mem.write o.cur b).bytes (o.cur + 1) = _
  rw [Memory.bytes_succ, Memory.read_write h, if_pos rfl]
  congr 1
  refine Memory.bytes_congr fun i hi => ?_
  rw [Memory.read_write h, if_neg (by omega)]

theorem State.text_length (s : State) : s.text.length = s.ilen := Memory.length_bytes _ _

end Sys2Proof.Machine
end

