-- ==== Sys2Proof/Laws/Bits.lean ====
section
/-! SUPPORT. The laws of bit fields, of byte packing and of the bit reader (00_scope.md section 6.1; 40_bitstream.md
R87 to R92). -/

namespace Sys2Proof

/-! ## Fields -/

@[simp] theorem length_uN (n v : Nat) : (uN n v).length = n := by
  induction n generalizing v with
  | zero => rfl
  | succ n ih => simp [uN, ih]

theorem bval_lt (b : Bits) : bval b < 2 ^ b.length := by
  induction b with
  | nil => simp [bval]
  | cons x xs ih =>
    simp only [bval, List.length_cons, Nat.pow_succ]
    split <;> omega

theorem bval_uN_mod (n v : Nat) : bval (uN n v) = v % 2 ^ n := by
  induction n generalizing v with
  | zero => simp [uN, bval, Nat.mod_one]
  | succ n ih =>
    simp only [uN, bval, length_uN, ih]
    have h1 : v % 2 ^ (n + 1) = v % 2 ^ n + 2 ^ n * (v / 2 ^ n % 2) := by
      rw [Nat.pow_succ, Nat.mod_mul]
    rw [h1]
    rcases Nat.mod_two_eq_zero_or_one (v / 2 ^ n) with h | h <;> simp [h, Nat.add_comm]

/-- `val(u_N(v)) = v` (00_scope.md section 6.1). -/
theorem bval_uN {n v : Nat} (h : v < 2 ^ n) : bval (uN n v) = v := by
  rw [bval_uN_mod, Nat.mod_eq_of_lt h]

/-- A field of `N` bits depends on `v mod 2^N` only. -/
theorem uN_mod (n v k : Nat) (h : n ≤ k) : uN n (v % 2 ^ k) = uN n v := by
  induction n with
  | zero => rfl
  | succ n ih =>
    simp only [uN]
    rw [ih (by omega)]
    congr 2
    have hk : k = n + (k - n) := by omega
    rw [hk, Nat.pow_add, Nat.mod_mul_right_div_self]
    have h2 : 2 ∣ 2 ^ (k - n) := dvd_pow_self 2 (by omega)
    rw [Nat.mod_mod_of_dvd _ h2]

/-- A bit string is the field of its own value. -/
theorem uN_bval (b : Bits) : uN b.length (bval b) = b := by
  induction b with
  | nil => rfl
  | cons x xs ih =>
    have hlt := bval_lt xs
    simp only [List.length_cons, uN, bval]
    congr 1
    · cases x
      · simp [Nat.div_eq_of_lt hlt]
      · simp only [if_true]
        rw [Nat.add_div_left _ (Nat.two_pow_pos _), Nat.div_eq_of_lt hlt]
        rfl
    · rw [← uN_mod xs.length _ xs.length (Nat.le_refl _)]
      cases x
      · simpa [Nat.mod_eq_of_lt hlt] using ih
      · simpa [Nat.add_mod_left, Nat.mod_eq_of_lt hlt] using ih

/-- Bit `i` of a field, counted from the first bit (00_scope.md section 6.1). -/
theorem uN_getElem? (n v i : Nat) (h : i < n) : (uN n v)[i]? = some (v / 2 ^ (n - 1 - i) % 2 == 1) := by
  induction n generalizing i with
  | zero => exact absurd h (Nat.not_lt_zero _)
  | succ n ih =>
    cases i with
    | zero => simp [uN]
    | succ i =>
      simp only [uN, List.getElem?_cons_succ]
      rw [ih i (by omega)]
      have e : n - 1 - i = n + 1 - 1 - (i + 1) := by omega
      rw [e]

/-! ## Bytes -/

@[simp] theorem length_byteBits (b : Byte) : (byteBits b).length = 8 := length_uN _ _

@[simp] theorem length_bitsOf (bs : List Byte) : (bitsOf bs).length = 8 * bs.length := by
  induction bs with
  | nil => rfl
  | cons b rest ih =>
    simp only [bitsOf, List.length_append, length_byteBits, ih, List.length_cons]
    omega

theorem bitsOf_append (xs ys : List Byte) : bitsOf (xs ++ ys) = bitsOf xs ++ bitsOf ys := by
  induction xs with
  | nil => rfl
  | cons x xs ih => simp [bitsOf, ih]

/-- Bit `k` of a byte sequence is bit `7 - (k mod 8)` of byte `k div 8` (20_memory.md R44, 40_bitstream.md R89). -/
theorem bitsOf_getElem? (bs : List Byte) (k : Nat) (h : k < 8 * bs.length) :
    (bitsOf bs)[k]? = some ((bs.getD (k / 8) 0).toNat / 2 ^ (7 - k % 8) % 2 == 1) := by
  induction bs generalizing k with
  | nil => simp at h
  | cons b rest ih =>
    simp only [bitsOf]
    by_cases hk : k < 8
    · rw [List.getElem?_append_left (by simpa using hk), byteBits, uN_getElem? _ _ _ hk]
      have e1 : k / 8 = 0 := by omega
      have e2 : k % 8 = k := by omega
      simp [e1, e2]
    · rw [List.getElem?_append_right (by simp; omega), length_byteBits,
        ih (k - 8) (by simp only [List.length_cons] at h; omega)]
      have e1 : k / 8 = (k - 8) / 8 + 1 := by omega
      have e2 : (k - 8) % 8 = k % 8 := by omega
      rw [e1, e2]
      simp

theorem byteBits_pack (b : Bits) (h : b.length = 8) : byteBits (BitVec.ofNat 8 (bval b)) = b := by
  have hlt := bval_lt b
  rw [h] at hlt
  rw [byteBits, BitVec.toNat_ofNat, Nat.mod_eq_of_lt hlt, ← h]
  exact uN_bval b

/-- Packing a multiple of eight bits loses none (40_bitstream.md R92). -/
theorem bitsOf_packBits (w : Bits) (h : w.length % 8 = 0) : bitsOf (packBits w) = w := by
  induction w using packBits.induct with
  | case1 b0 b1 b2 b3 b4 b5 b6 b7 rest ih =>
    have hr : rest.length % 8 = 0 := by simp only [List.length_cons] at h; omega
    rw [packBits, bitsOf, byteBits_pack _ rfl, ih hr]
    rfl
  | case2 w hw =>
    have hlen : w.length < 8 := by
      rcases w with _ | ⟨a0, _ | ⟨a1, _ | ⟨a2, _ | ⟨a3, _ | ⟨a4, _ | ⟨a5, _ | ⟨a6, _ | ⟨a7, rest⟩⟩⟩⟩⟩⟩⟩⟩ <;>
        first
        | exact absurd rfl (hw _ _ _ _ _ _ _ _ _)
        | simp
    have h0 : w = [] := List.length_eq_zero_iff.1 (by omega)
    subst h0
    rfl

theorem length_packBits (w : Bits) (h : w.length % 8 = 0) : (packBits w).length = w.length / 8 := by
  have := congrArg List.length (bitsOf_packBits w h)
  rw [length_bitsOf] at this
  omega

theorem padLength_lt (n : Nat) : padLength n < 8 := Nat.mod_lt _ (by decide)

theorem padLength_aligned (n : Nat) : (n + padLength n) % 8 = 0 := by
  unfold padLength
  omega

/-! ## The bit reader -/

theorem Reader.read_append (n : Nat) (rp : Nat) (a b : Bits) (h : a.length = n) :
    Reader.read n ⟨rp, a ++ b⟩ = some (a, ⟨rp + n, b⟩) := by
  subst h
  simp [Reader.read, Reader.remaining]

/-- A read gives the front of what is unread, and moves the cursor over it (R90). -/
theorem Reader.read_eq_some {n : Nat} {r r' : Reader} {b : Bits} (h : r.read n = some (b, r')) :
    b.length = n ∧ r.unread = b ++ r'.unread ∧ r'.rp = r.rp + n := by
  unfold Reader.read at h
  by_cases hn : n ≤ r.remaining
  · rw [if_pos hn] at h
    obtain ⟨rfl, rfl⟩ := Prod.mk.inj (Option.some.inj h)
    exact ⟨List.length_take_of_le hn, (List.take_append_drop _ _).symm, rfl⟩
  · rw [if_neg hn] at h
    exact absurd h (by simp)

theorem Reader.read_eq_none {n : Nat} {r : Reader} : r.read n = none ↔ r.unread.length < n := by
  unfold Reader.read
  by_cases hn : n ≤ r.remaining
  · rw [if_pos hn]
    exact ⟨fun h => absurd h (by simp), fun h => absurd hn (Nat.not_le_of_lt h)⟩
  · rw [if_neg hn]
    exact ⟨fun _ => Nat.lt_of_not_le hn, fun _ => rfl⟩

theorem Reader.field_append (n v rp : Nat) (e : ErrKind) (b : Bits) (h : v < 2 ^ n) :
    Reader.field n e ⟨rp, uN n v ++ b⟩ = .ok (v, ⟨rp + n, b⟩) := by
  rw [Reader.field, Reader.read_append _ _ _ _ (length_uN n v)]
  simp [bval_uN h]

/-- A field that is read fits its width and is what stood in front; the cursor moves over it. -/
theorem Reader.field_eq_ok {n v : Nat} {e : ErrKind} {r r' : Reader} (h : r.field n e = .ok (v, r')) :
    v < 2 ^ n ∧ r.unread = uN n v ++ r'.unread ∧ r'.rp = r.rp + n := by
  simp only [Reader.field] at h
  split at h
  · exact absurd h (by simp)
  · rename_i b r1 hr
    obtain ⟨hb, hu, hrp⟩ := Reader.read_eq_some hr
    obtain ⟨rfl, rfl⟩ := Prod.mk.inj (Except.ok.inj h)
    refine ⟨hb ▸ bval_lt b, ?_, hrp⟩
    rw [← hb, uN_bval, hu]

/-- A field is refused exactly when its bits are not there, and under the kind the caller names. -/
theorem Reader.field_eq_error {n : Nat} {e k : ErrKind} {r : Reader} :
    r.field n e = .error k ↔ k = e ∧ r.unread.length < n := by
  simp only [Reader.field]
  split
  · rename_i h
    have := Reader.read_eq_none.1 h
    constructor
    · intro h; exact ⟨(Except.error.inj h).symm, this⟩
    · rintro ⟨rfl, -⟩; rfl
  · rename_i b r1 h
    constructor
    · intro h; exact absurd h (by simp)
    · rintro ⟨-, hlt⟩
      rw [Reader.read_eq_none.2 hlt] at h
      exact absurd h (by simp)

namespace Machine

theorem length_padBits (w : Bits) : (padBits w).length % 8 = 0 := by
  simp only [padBits, List.length_append, List.length_replicate]
  exact padLength_aligned _

/-- The packed output holds the padded bits (40_bitstream.md R88, R92). -/
theorem bitsOf_packOut (w : Bits) (h : w.length % 8 = 0) : bitsOf (packOut w).bytes = w := by
  show bitsOf ((Memory.ofBytes (packBits w)).bytes (packBits w).length) = w
  rw [Memory.bytes_ofBytes, bitsOf_packBits w h]

theorem packOut_ok (w : Bits) : (packOut w).Ok := ⟨Memory.wf_ofBytes _, Memory.below_ofBytes _⟩

theorem packOut_bytes (w : Bits) : (packOut w).bytes = packBits w := Memory.bytes_ofBytes _

theorem State.inputBits_length (s : State) : s.inputBits.length = 8 * s.ilen := by
  simp [State.inputBits, State.text_length]

end Machine

theorem byteBits_inj {a b : Byte} (h : byteBits a = byteBits b) : a = b := by
  have := congrArg bval h
  rw [byteBits, byteBits, bval_uN (by omega), bval_uN (by omega)] at this
  exact BitVec.eq_of_toNat_eq this

/-- A byte sequence is known from its bits. -/
theorem bitsOf_inj {a b : List Byte} (h : bitsOf a = bitsOf b) : a = b := by
  induction a generalizing b with
  | nil =>
    cases b with
    | nil => rfl
    | cons y ys => have := congrArg List.length h; simp at this
  | cons x xs ih =>
    cases b with
    | nil => have := congrArg List.length h; simp at this
    | cons y ys =>
      obtain ⟨h1, h2⟩ := List.append_inj h (by simp)
      rw [byteBits_inj h1, ih h2]

end Sys2Proof
end

