-- ==== Sys2Proof/Laws/Matcher.lean ====
section
/-! SUPPORT. What FIND's search answers (41_matcher.md R95 to R103), said once: `findMatch` gives the best match. -/

namespace Sys2Proof.Machine

theorem occursAt_iff {text : List Byte} {pos l s : Nat} :
    occursAt text pos l s = true ↔ ∀ i, i < l → text[s + i]? = text[pos + i]? := by
  simp [occursAt]

theorem occursAt_mono {text : List Byte} {pos l l' s : Nat} (hl : l' ≤ l) (h : occursAt text pos l s = true) :
    occursAt text pos l' s = true :=
  occursAt_iff.2 fun i hi => occursAt_iff.1 h i (Nat.lt_of_lt_of_le hi hl)

/-- The starts considered. -/
theorem mem_starts {text : List Byte} {ws pos l s : Nat} :
    s ∈ (List.range pos).filter (fun s => decide (ws ≤ s) && occursAt text pos l s) ↔
      ws ≤ s ∧ s < pos ∧ occursAt text pos l s = true := by
  rw [List.mem_filter, List.mem_range, Bool.and_eq_true, decide_eq_true_eq]
  tauto

theorem latestStart_some {text : List Byte} {ws pos l s : Nat} (h : latestStart text ws pos l = some s) :
    (ws ≤ s ∧ s < pos ∧ occursAt text pos l s = true) ∧
      ∀ s', ws ≤ s' → s' < pos → occursAt text pos l s' = true → s' ≤ s := by
  obtain ⟨ys, hys⟩ := List.getLast?_eq_some_iff.1 h
  have hs : s ∈ (List.range pos).filter fun s => decide (ws ≤ s) && occursAt text pos l s := by
    rw [hys]; exact List.mem_append_right _ List.mem_cons_self
  refine ⟨mem_starts.1 hs, fun s' h1 h2 h3 => ?_⟩
  have hm := mem_starts.2 ⟨h1, h2, h3⟩
  have hsorted : ((List.range pos).filter fun s => decide (ws ≤ s) && occursAt text pos l s).Pairwise (· < ·) :=
    List.pairwise_lt_range.filter _
  rw [hys] at hm hsorted
  rcases List.mem_append.1 hm with hm | hm
  · exact Nat.le_of_lt ((List.pairwise_append.1 hsorted).2.2 s' hm s List.mem_cons_self)
  · exact Nat.le_of_eq (List.mem_singleton.1 hm)

theorem latestStart_none {text : List Byte} {ws pos l : Nat} (h : latestStart text ws pos l = none) :
    ∀ s, ws ≤ s → s < pos → occursAt text pos l s = false := by
  intro s h1 h2
  by_contra h3
  have hm := mem_starts.2 ⟨h1, h2, by simpa using h3⟩
  rw [List.getLast?_eq_none_iff.1 h] at hm
  exact absurd hm List.not_mem_nil

theorem latestStart_none_mono {text : List Byte} {ws pos l l' : Nat} (hl : l ≤ l')
    (h : latestStart text ws pos l = none) : latestStart text ws pos l' = none := by
  rcases h' : latestStart text ws pos l' with _ | s
  · rfl
  · obtain ⟨⟨h1, h2, h3⟩, -⟩ := latestStart_some h'
    have := latestStart_none h s h1 h2
    rw [occursAt_mono hl h3] at this
    exact absurd this (by simp)

/-- What the loop of R95 has found so far for candidates of at most `l` bytes. -/
def FoundSoFar (text : List Byte) (ws pos l : Nat) (best : Nat × Nat) : Prop :=
  (l = 0 ∧ best = (0, 0)) ∨ (1 ≤ l ∧ ∃ s, latestStart text ws pos l = some s ∧ best = (pos - s, l))

/-- The loop ends at the longest length that occurs, and every longer candidate it may still try does not occur. -/
theorem findLoop_spec {text : List Byte} {ws pos : Nat} (rounds l : Nat) (best : Nat × Nat)
    (h : FoundSoFar text ws pos l best) :
    ∃ k, l ≤ k ∧ k ≤ l + rounds ∧ FoundSoFar text ws pos k (findLoop text ws pos rounds (l + 1) best) ∧
      ∀ k', k < k' → k' ≤ l + rounds → latestStart text ws pos k' = none := by
  induction rounds generalizing l best with
  | zero => exact ⟨l, Nat.le_refl _, Nat.le_refl _, h, fun k' h1 h2 => absurd h1 (by omega)⟩
  | succ n ih =>
    simp only [findLoop]
    rcases hs : latestStart text ws pos (l + 1) with _ | s
    · exact ⟨l, Nat.le_refl _, by omega, h, fun k' h1 _ => latestStart_none_mono h1 hs⟩
    · obtain ⟨k, h1, h2, h3, h4⟩ := ih (l + 1) (pos - s, l + 1) (.inr ⟨by omega, s, hs, rfl⟩)
      exact ⟨k, by omega, by omega, h3, fun k' h5 h6 => h4 k' h5 (by omega)⟩

theorem matchesAt_of_start {text : List Byte} {pos l s : Nat} (hs : s < pos) (h : occursAt text pos l s = true) :
    MatchesAt text pos (pos - s) l := by
  refine ⟨Nat.sub_le _ _, fun i hi => ?_⟩
  have e : pos - (pos - s) = s := by omega
  rw [e]
  exact occursAt_iff.1 h i hi

theorem start_of_matchesAt {text : List Byte} {pos l d : Nat} (h : MatchesAt text pos d l) :
    occursAt text pos l (pos - d) = true := occursAt_iff.2 h.2

/-- FIND gives the longest match in the window, and among those the most recent; `(0, 0)` where there is none. -/
theorem findMatch_best (c : Cfg) (text : List Byte) (pos : Nat) :
    IsBestMatch c text pos (findMatch c text pos).1 (findMatch c text pos).2 := by
  obtain ⟨k, -, hk, hf, hn⟩ :=
    findLoop_spec (text := text) (ws := windowStart c pos) (pos := pos) (lengthCap c text pos) 0 (0, 0) (.inl ⟨rfl, rfl⟩)
  rw [Nat.zero_add] at hk hn
  have hwin : ∀ d, InWindow c pos d → windowStart c pos ≤ pos - d ∧ pos - d < pos := by
    intro d hd
    obtain ⟨h1, h2⟩ := hd
    simp only [windowStart]
    omega
  rcases hf with ⟨rfl, hb⟩ | ⟨h1, s, hs, hb⟩
  · refine .inl ⟨by rw [findMatch, hb], by rw [findMatch, hb], fun d' l' hd' hl1 hl2 hm => ?_⟩
    have hnone := hn l' hl1 hl2
    obtain ⟨w1, w2⟩ := hwin d' hd'
    have := latestStart_none hnone (pos - d') w1 w2
    rw [start_of_matchesAt hm] at this
    exact absurd this (by simp)
  · obtain ⟨⟨w1, w2, w3⟩, hmax⟩ := latestStart_some hs
    have e1 : (findMatch c text pos).1 = pos - s := by rw [findMatch, hb]
    have e2 : (findMatch c text pos).2 = k := by rw [findMatch, hb]
    rw [e1, e2]
    refine .inr ⟨⟨by omega, ?_⟩, h1, hk, matchesAt_of_start w2 w3, fun d' l' hd' hl2 hm => ?_, fun d' hd' hm => ?_⟩
    · simp only [windowStart] at w1
      omega
    · by_contra hlt
      obtain ⟨x1, x2⟩ := hwin d' hd'
      have := latestStart_none (hn l' (by omega) hl2) (pos - d') x1 x2
      rw [start_of_matchesAt hm] at this
      exact absurd this (by simp)
    · obtain ⟨x1, x2⟩ := hwin d' hd'
      have := hmax (pos - d') x1 x2 (start_of_matchesAt hm)
      have := hd'.2
      omega

/-- The best match is unique. -/
theorem IsBestMatch.unique {c : Cfg} {text : List Byte} {pos d l d' l' : Nat} (h : IsBestMatch c text pos d l)
    (h' : IsBestMatch c text pos d' l') : d = d' ∧ l = l' := by
  rcases h with ⟨rfl, rfl, hn⟩ | ⟨hw, h1, h2, hm, hlong, hnear⟩ <;>
    rcases h' with ⟨rfl, rfl, hn'⟩ | ⟨hw', h1', h2', hm', hlong', hnear'⟩
  · exact ⟨rfl, rfl⟩
  · exact absurd hm' (hn _ _ hw' h1' h2')
  · exact absurd hm (hn' _ _ hw h1 h2)
  · have e : l = l' := Nat.le_antisymm (hlong' _ _ hw h2 hm) (hlong _ _ hw' h2' hm')
    subst e
    exact ⟨Nat.le_antisymm (hnear _ hw' hm') (hnear' _ hw hm), rfl⟩

/-- Distance and length are zero together (R101). -/
theorem IsBestMatch.zero_iff {c : Cfg} {text : List Byte} {pos d l : Nat} (h : IsBestMatch c text pos d l) :
    d = 0 ↔ l = 0 := by
  rcases h with ⟨rfl, rfl, -⟩ | ⟨hw, h1, -⟩
  · exact Iff.rfl
  · have := hw.1
    omega

/-- The bounds of R101, which the check of 42_tokenstream.md R108 tests: it never fails. -/
theorem IsBestMatch.bounds {c : Cfg} {text : List Byte} {pos d l : Nat} (h : IsBestMatch c text pos d l) :
    d ≤ min pos c.maxDist ∧ l ≤ min c.maxLen (text.length - pos) := by
  rcases h with ⟨rfl, rfl, -⟩ | ⟨hw, -, h2, -⟩
  · exact ⟨Nat.zero_le _, Nat.zero_le _⟩
  · exact ⟨hw.2, h2⟩

end Sys2Proof.Machine
end

