-- ==== Sys2Proof/Laws/TokenStream.lean ====
section
/-! SUPPORT. What TOKENIZE's scan and DETOKENIZE's replay answer (42_tokenstream.md R105 to R117), said once each. -/

namespace Sys2Proof.Machine

/-! ## Scanning -/

theorem boundsBroken_findMatch (c : Cfg) (text : List Byte) (pos : Nat) :
    boundsBroken c text pos (findMatch c text pos).1 (findMatch c text pos).2 = false := by
  have h := (findMatch_best c text pos).bounds
  have h2 := h.2
  simp only [boundsBroken, Bool.or_eq_false_iff, decide_eq_false_iff_not, Nat.not_lt]
  omega

/-- One round of a scan: MatchBoundsError is not raised (R108), a token is emitted and the scan advances by its span. -/
theorem scanStep_spec (c : Cfg) (text : List Byte) (a : Scan) (h : a.pos < text.length) :
    ∃ t : Token, ∃ d l, IsBestMatch c text a.pos d l ∧ matchOf t = (d, l) ∧
      scanStep c text a = .ok ⟨a.toks ++ [t], a.pos + spanOf t, (matchOf t).1, (matchOf t).2⟩ ∧
      ((d = 0 ∧ t.flag = 0 ∧ (text[a.pos]?.map BitVec.toNat) = some t.payload ∧ spanOf t = 1) ∨
        (0 < d ∧ t.flag = d ∧ t.payload = l ∧ spanOf t = l)) := by
  have hb := findMatch_best c text a.pos
  have hn := boundsBroken_findMatch c text a.pos
  have hz := hb.zero_iff
  simp only [scanStep]
  generalize findMatch c text a.pos = m at hb hn hz
  obtain ⟨d, l⟩ := m
  simp only at hb hn hz
  rw [if_neg (by simp [hn])]
  by_cases hd : d = 0
  · have hl := hz.1 hd
    subst hd hl
    refine ⟨⟨0, (text.getD a.pos 0).toNat⟩, 0, 0, hb, rfl, rfl, .inl ⟨rfl, rfl, ?_, rfl⟩⟩
    simp [List.getElem?_eq_getElem h]
  · refine ⟨⟨d, l⟩, d, l, hb, by simp [matchOf, hd], ?_, .inr ⟨by omega, rfl, rfl, by simp [spanOf, hd]⟩⟩
    simp [hd, matchOf, spanOf]

/-- The span of a token that was scanned at `pos` is at least 1 and stays inside the text (R109). -/
theorem scan_span {c : Cfg} {text : List Byte} {pos d l : Nat} {t : Token} (hp : pos < text.length)
    (hb : IsBestMatch c text pos d l)
    (ht : (d = 0 ∧ t.flag = 0 ∧ (text[pos]?.map BitVec.toNat) = some t.payload ∧ spanOf t = 1) ∨
      (0 < d ∧ t.flag = d ∧ t.payload = l ∧ spanOf t = l)) :
    1 ≤ spanOf t ∧ pos + spanOf t ≤ text.length := by
  rcases ht with ⟨-, -, -, h⟩ | ⟨h0, -, -, h⟩
  · omega
  · have h1 := hb.bounds
    have h2 := hb.zero_iff
    rw [h]
    have : l ≠ 0 := fun hl => by omega
    omega

/-- The scan from a place in the text to its end. -/
theorem scanLoop_spec (c : Cfg) (text : List Byte) (rounds : Nat) (a : Scan) (ha : a.pos ≤ text.length)
    (hr : text.length - a.pos ≤ rounds) :
    ∃ ts : List Token, ScansTo c text a.pos ts ∧
      scanLoop c text rounds a = .ok ⟨a.toks ++ ts, text.length,
        ((ts.getLast?.map matchOf).getD (a.dist, a.len)).1, ((ts.getLast?.map matchOf).getD (a.dist, a.len)).2⟩ := by
  induction rounds generalizing a with
  | zero =>
    have e : a.pos = text.length := by omega
    refine ⟨[], e, ?_⟩
    obtain ⟨toks, pos, d, l⟩ := a
    simp only at e
    subst e
    simp [scanLoop]
  | succ n ih =>
    simp only [scanLoop]
    by_cases hp : a.pos < text.length
    · rw [if_pos hp]
      obtain ⟨t, d, l, hb, hm, hs, ht⟩ := scanStep_spec c text a hp
      obtain ⟨h1, h2⟩ := scan_span hp hb ht
      rw [hs]
      obtain ⟨ts, hts, hloop⟩ := ih ⟨a.toks ++ [t], a.pos + spanOf t, (matchOf t).1, (matchOf t).2⟩ h2 (by
        simp only
        omega)
      refine ⟨t :: ts, ⟨hp, d, l, hb, ?_⟩, ?_⟩
      · rcases ht with ⟨h3, h4, h5, h6⟩ | ⟨h3, h4, h5, h6⟩
        · exact .inl ⟨h3, h4, h5, by rw [h6] at hts; exact hts⟩
        · exact .inr ⟨h3, h4, h5, by rw [h6] at hts; exact hts⟩
      · simp only
        rw [hloop]
        rcases ts with _ | ⟨u, us⟩
        · simp
        · simp [List.getLast?_cons]
    · rw [if_neg hp]
      have e : a.pos = text.length := by omega
      refine ⟨[], e, ?_⟩
      obtain ⟨toks, pos, d, l⟩ := a
      simp only at e
      subst e
      simp

/-- TOKENIZE of a text: it ends, at the end of the text, with the scan of R105. -/
theorem tokenizeText_spec (c : Cfg) (text : List Byte) :
    ∃ ts : List Token, ScansTo c text 0 ts ∧
      tokenizeText c text = .ok ⟨ts, text.length,
        ((ts.getLast?.map matchOf).getD (0, 0)).1, ((ts.getLast?.map matchOf).getD (0, 0)).2⟩ := by
  obtain ⟨ts, h1, h2⟩ := scanLoop_spec c text text.length ⟨[], 0, 0, 0⟩ (Nat.zero_le _) (by simp)
  exact ⟨ts, h1, by simpa [tokenizeText] using h2⟩

/-- A scan determines its tokens (R118). -/
theorem ScansTo.unique {c : Cfg} {text : List Byte} {p : Nat} {ts us : List Token} (h : ScansTo c text p ts)
    (h' : ScansTo c text p us) : ts = us := by
  induction ts generalizing p us with
  | nil =>
    cases us with
    | nil => rfl
    | cons u us => exact absurd h'.1 (by rw [show p = text.length from h]; exact Nat.lt_irrefl _)
  | cons t ts ih =>
    cases us with
    | nil => exact absurd h.1 (by rw [show p = text.length from h']; exact Nat.lt_irrefl _)
    | cons u us =>
      obtain ⟨-, d, l, hb, ht⟩ := h
      obtain ⟨-, d', l', hb', hu⟩ := h'
      obtain ⟨rfl, rfl⟩ := hb.unique hb'
      obtain ⟨f, p1⟩ := t
      obtain ⟨g, p2⟩ := u
      rcases ht with ⟨h1, h2, h3, h4⟩ | ⟨h1, h2, h3, h4⟩ <;> rcases hu with ⟨k1, k2, k3, k4⟩ | ⟨k1, k2, k3, k4⟩
      · have : p1 = p2 := by simpa [h3] using k3
        rw [ih h4 k4, show f = 0 from h2, show g = 0 from k2, this]
      · omega
      · omega
      · rw [ih h4 k4, show f = d from h2, show g = d from k2, show p1 = l from h3, show p2 = l from k3]

/-- The first token of a scan's rest, whatever it is, spans at least one byte of what is left. -/
theorem ScansTo.le {c : Cfg} {text : List Byte} {p : Nat} {ts : List Token} (h : ScansTo c text p ts) :
    p ≤ text.length := by
  cases ts with
  | nil => exact Nat.le_of_eq h
  | cons t ts => exact Nat.le_of_lt h.1

/-- Every token of a scan fits: the bounds of R117. -/
theorem ScansTo.token_bounds {c : Cfg} {text : List Byte} {p : Nat} {ts : List Token} (h : ScansTo c text p ts) :
    ∀ t ∈ ts, (t.flag = 0 ∧ t.payload ≤ 255) ∨
      (1 ≤ t.flag ∧ t.flag ≤ c.maxDist ∧ 1 ≤ t.payload ∧ t.payload ≤ c.maxLen) := by
  induction ts generalizing p with
  | nil => exact fun t ht => absurd ht List.not_mem_nil
  | cons u us ih =>
    obtain ⟨hp, d, l, hb, hu⟩ := h
    intro t ht
    rcases hu with ⟨-, h2, h3, h4⟩ | ⟨h1, h2, h3, h4⟩
    · rcases List.mem_cons.1 ht with rfl | ht
      · refine .inl ⟨h2, ?_⟩
        rcases hg : text[p]? with _ | b
        · simp [hg] at h3
        · rw [hg] at h3
          have := b.isLt
          simp only [Option.map_some, Option.some.injEq] at h3
          omega
      · exact ih h4 t ht
    · rcases List.mem_cons.1 ht with rfl | ht
      · have hz := hb.zero_iff
        have hbb := hb.bounds
        exact .inr ⟨by omega, by omega, by omega, by omega⟩
      · exact ih h4 t ht

/-- The spans of a scan's tokens add up to what was left of the text (R109). -/
theorem ScansTo.span_sum {c : Cfg} {text : List Byte} {p : Nat} {ts : List Token} (h : ScansTo c text p ts) :
    p + (ts.map spanOf).sum = text.length := by
  induction ts generalizing p with
  | nil => simpa using show p = text.length from h
  | cons u us ih =>
    obtain ⟨-, d, l, -, hu⟩ := h
    rcases hu with ⟨-, h2, -, h4⟩ | ⟨h1, h2, h3, h4⟩
    · have := ih h4
      simp only [List.map_cons, List.sum_cons, spanOf, h2, if_true]
      omega
    · have := ih h4
      simp only [List.map_cons, List.sum_cons, spanOf]
      rw [if_neg (by omega), h3]
      omega

/-! ## Replaying -/

/-- A copy of at least one byte may start. -/
theorem Out.copy_step {d l : Nat} {o : Out} (h1 : 1 ≤ d) (h2 : d ≤ o.cur) :
    Out.copy d (l + 1) o = Out.copy d l (o.append (o.mem.read (o.cur - d))) := by
  have e : ((o.cur : Int) - (d : Int)).toNat = o.cur - d := by omega
  simp only [Out.copy, memRead, e]
  rw [if_neg (by omega), if_pos (by omega)]

/-- A copy of at least one byte that reaches before the start raises DecodeUnderrunError (R113). -/
theorem Out.copy_underrun {d l : Nat} {o : Out} (h : d = 0 ∨ o.cur < d) :
    Out.copy d (l + 1) o = .error (.raise .decodeUnderrun) := by
  simp only [Out.copy]
  rw [if_pos (by omega)]

theorem periodic_succ {d l : Nat} {out : List Byte} (h1 : 1 ≤ d) (h2 : d ≤ out.length) :
    periodic d (l + 1) out =
      out.getD (out.length - d) 0 :: periodic d l (out ++ [out.getD (out.length - d) 0]) := by
  simp only [periodic, List.range_succ_eq_map, List.map_cons, List.map_map, Nat.zero_mod, Nat.add_zero]
  congr 1
  refine List.map_congr_left fun i _ => ?_
  have hi : i % d < d := Nat.mod_lt _ (by omega)
  simp only [Function.comp, List.length_append, List.length_singleton]
  by_cases hc : i % d + 1 < d
  · have e : (i + 1) % d = i % d + 1 := by
      rw [Nat.add_mod, Nat.mod_eq_of_lt (show 1 < d by omega), Nat.mod_eq_of_lt hc]
    have e2 : out.length + 1 - d + i % d = out.length - d + (i % d + 1) := by omega
    have h3 : out.length - d + (i % d + 1) < out.length := by omega
    simp [e, e2, List.getD_eq_getElem?_getD, List.getElem?_append_left h3]
  · have e : (i + 1) % d = 0 := by
      have : i % d = d - 1 := by omega
      rw [← Nat.mod_add_mod, this, Nat.sub_add_cancel h1, Nat.mod_self]
    have e2 : out.length + 1 - d + i % d = out.length := by omega
    simp [e, e2, List.getD_eq_getElem?_getD]

/-- COPY appends the last `d` bytes repeated (R112, R115), and keeps the buffer's form. -/
theorem Out.copy_spec {d : Nat} (l : Nat) {o : Out} (ho : o.Ok) (h1 : 1 ≤ d) (h2 : d ≤ o.cur) :
    ∃ o', Out.copy d l o = .ok o' ∧ o'.Ok ∧ o'.cur = o.cur + l ∧ o'.bytes = o.bytes ++ periodic d l o.bytes := by
  induction l generalizing o with
  | zero => exact ⟨o, rfl, ho, rfl, by simp [periodic]⟩
  | succ l ih =>
    rw [Out.copy_step h1 h2]
    obtain ⟨o', e1, e2, e3, e4⟩ := ih (Out.ok_append ho (o.mem.read (o.cur - d))) (by rw [Out.append_cur]; omega)
    refine ⟨o', e1, e2, by rw [e3, Out.append_cur]; omega, ?_⟩
    have hget : o.bytes.getD (o.cur - d) 0 = o.mem.read (o.cur - d) := by
      rw [List.getD_eq_getElem?_getD, Out.bytes, Memory.getElem?_bytes, if_pos (by omega)]
      rfl
    rw [e4, Out.bytes_append ho.1, periodic_succ h1 (by simpa using h2), Out.bytes_length, hget]
    simp

theorem expand_append (ts us : List Token) (out : List Byte) : expand (ts ++ us) out = expand us (expand ts out) := by
  induction ts generalizing out with
  | nil => rfl
  | cons t ts ih =>
    simp only [List.cons_append, expand]
    split <;> exact ih _

@[simp] theorem length_periodic (d l : Nat) (out : List Byte) : (periodic d l out).length = l := by simp [periodic]

theorem length_expand (ts : List Token) (out : List Byte) :
    (expand ts out).length = out.length + (ts.map spanOf).sum := by
  induction ts generalizing out with
  | nil => simp [expand]
  | cons t ts ih =>
    simp only [expand, List.map_cons, List.sum_cons]
    split
    · rename_i h
      simp [ih, spanOf, h]
      omega
    · rename_i h
      simp [ih, spanOf, h]
      omega

/-- Replaying a replayable list appends the bytes it stands for. -/
theorem replay_spec {ts : List Token} {o : Out} (ho : o.Ok) (h : Replayable o.cur ts) :
    ∃ o', replay ts o = .ok o' ∧ o'.Ok ∧ o'.cur = o.cur + (ts.map spanOf).sum ∧ o'.bytes = expand ts o.bytes := by
  induction ts generalizing o with
  | nil => exact ⟨o, rfl, ho, rfl, rfl⟩
  | cons t ts ih =>
    simp only [Replayable] at h
    simp only [replay, Out.token, expand, List.map_cons, List.sum_cons, spanOf]
    by_cases hf : t.flag = 0
    · rw [if_pos hf] at h
      rw [if_pos hf, if_pos hf, if_pos hf, Out.lit, if_pos h.1]
      obtain ⟨o', e1, e2, e3, e4⟩ := ih (Out.ok_append ho (BitVec.ofNat 8 t.payload)) h.2
      exact ⟨o', e1, e2, by rw [e3, Out.append_cur]; omega, by rw [e4, Out.bytes_append ho.1]⟩
    · rw [if_neg hf] at h
      rw [if_neg hf, if_neg hf, if_neg hf]
      obtain ⟨o1, c1, c2, c3, c4⟩ : ∃ o1, Out.copy t.flag t.payload o = .ok o1 ∧ o1.Ok ∧
          o1.cur = o.cur + t.payload ∧ o1.bytes = o.bytes ++ periodic t.flag t.payload o.bytes := by
        rcases h.1 with hp | hp
        · rw [hp]
          exact ⟨o, rfl, ho, rfl, by simp [periodic]⟩
        · exact Out.copy_spec _ ho (by omega) hp
      rw [c1]
      obtain ⟨o', e1, e2, e3, e4⟩ := ih c2 (by rw [c3]; exact h.2)
      exact ⟨o', e1, e2, by rw [e3, c3]; omega, by rw [e4, c4]⟩

/-- A replay goes over a front that replays and on from there. -/
theorem replay_append {ts us : List Token} {o o' : Out} (h : replay ts o = .ok o') :
    replay (ts ++ us) o = replay us o' := by
  induction ts generalizing o with
  | nil => rw [show o = o' from Except.ok.inj h]; rfl
  | cons t ts ih =>
    simp only [replay, List.cons_append] at h ⊢
    split at h
    · exact absurd h (by simp)
    · exact ih h

theorem Replayable.append {n : Nat} {ts us : List Token} :
    Replayable n (ts ++ us) ↔ Replayable n ts ∧ Replayable (n + (ts.map spanOf).sum) us := by
  induction ts generalizing n with
  | nil => simp [Replayable]
  | cons t ts ih =>
    simp only [List.cons_append, Replayable, List.map_cons, List.sum_cons, spanOf]
    split
    · rw [ih, ← Nat.add_assoc]
      tauto
    · rw [ih, ← Nat.add_assoc]
      tauto

/-- The bytes a match repeats are the bytes at the scan position. -/
theorem periodic_of_match {text : List Byte} {p d l : Nat} (h1 : 1 ≤ d) (hl : p + l ≤ text.length)
    (hm : MatchesAt text p d l) : text.take p ++ periodic d l (text.take p) = text.take (p + l) := by
  obtain ⟨hd, hm⟩ := hm
  have hlen : (text.take p).length = p := List.length_take_of_le (by omega)
  have key : ∀ i, i < l → text[p - d + i % d]? = text[p + i]? := by
    intro i
    induction i using Nat.strong_induction_on with
    | _ i ih =>
      intro hi
      by_cases hid : i < d
      · rw [Nat.mod_eq_of_lt hid]
        exact hm i hi
      · have e : p - d + i = p + (i - d) := by omega
        rw [Nat.mod_eq_sub_mod (by omega), ih (i - d) (by omega) (by omega), ← hm i hi, e]
  refine List.ext_getElem? fun i => ?_
  by_cases hi : i < p
  · rw [List.getElem?_append_left (by omega), List.getElem?_take_of_lt hi, List.getElem?_take_of_lt (by omega)]
  · rw [List.getElem?_append_right (by omega), hlen]
    by_cases hi2 : i - p < l
    · have hk := key (i - p) hi2
      have hmod : (i - p) % d < d := Nat.mod_lt _ (by omega)
      have e : p + (i - p) = i := by omega
      rw [e] at hk
      rw [List.getElem?_take_of_lt (by omega), ← hk]
      simp only [periodic, hlen, List.getElem?_map]
      rw [List.getElem?_range hi2]
      simp only [Option.map_some, List.getD_eq_getElem?_getD]
      rw [List.getElem?_take_of_lt (by omega), List.getElem?_eq_getElem (by omega)]
      rfl
    · rw [List.getElem?_eq_none (by simp; omega), List.getElem?_eq_none (by simp; omega)]

/-- A scan replays, and stands for the text (R116). -/
theorem ScansTo.replays {c : Cfg} {text : List Byte} {p : Nat} {ts : List Token} (h : ScansTo c text p ts) :
    Replayable p ts ∧ expand ts (text.take p) = text := by
  induction ts generalizing p with
  | nil =>
    rw [show p = text.length from h]
    exact ⟨trivial, by simp [expand]⟩
  | cons t ts ih =>
    have hb' := h.token_bounds t List.mem_cons_self
    obtain ⟨hp, d, l, hb, ht⟩ := h
    rcases ht with ⟨h1, h2, h3, h4⟩ | ⟨h1, h2, h3, h4⟩
    · obtain ⟨i1, i2⟩ := ih h4
      simp only [Replayable, expand, h2, if_true]
      refine ⟨⟨by omega, i1⟩, ?_⟩
      rw [List.getElem?_eq_getElem hp, Option.map_some, Option.some.injEq] at h3
      rw [← h3, BitVec.ofNat_toNat, BitVec.setWidth_eq, List.take_append_getElem hp]
      exact i2
    · obtain ⟨i1, i2⟩ := ih h4
      have hle := h4.le
      rcases hb with ⟨rfl, -⟩ | ⟨hw, hl1, hl2, hm, -⟩
      · omega
      · simp only [Replayable, expand]
        rw [if_neg (by omega), if_neg (by omega), h2, h3]
        refine ⟨⟨.inr hm.1, i1⟩, ?_⟩
        rw [periodic_of_match hw.1 hle hm]
        exact i2

end Sys2Proof.Machine
end

