-- ==== Sys2Proof/Laws/TreeBuilder.lean ====
section
/-! SUPPORT. What BUILD's table and merging and GETCODE's path answer (43_treebuilder.md R120 to R132), said once each. -/

namespace Sys2Proof.Machine

/-! ## The frequency table -/

/-- A table's canonical form: flags strictly rising, counts at least 1. -/
def FreqOk (t : List (Nat × Nat)) : Prop := (t.Pairwise fun a b => a.1 < b.1) ∧ ∀ e ∈ t, 1 ≤ e.2

theorem mem_countFlag_key {f : Nat} {t : List (Nat × Nat)} {e : Nat × Nat} (h : e ∈ countFlag f t) :
    e.1 = f ∨ e ∈ t := by
  induction t with
  | nil => exact .inl (by rw [List.mem_singleton.1 h])
  | cons x rest ih =>
    obtain ⟨g, n⟩ := x
    simp only [countFlag] at h
    split at h
    · rcases List.mem_cons.1 h with rfl | h
      · exact .inl rfl
      · exact .inr h
    · split at h
      · rename_i hf
        rcases List.mem_cons.1 h with rfl | h
        · exact .inl hf.symm
        · exact .inr (List.mem_cons_of_mem _ h)
      · rcases List.mem_cons.1 h with rfl | h
        · exact .inr List.mem_cons_self
        · exact (ih h).imp_right (List.mem_cons_of_mem _)

theorem freqOk_countFlag {f : Nat} {t : List (Nat × Nat)} (h : FreqOk t) : FreqOk (countFlag f t) := by
  induction t with
  | nil => exact ⟨by simp [countFlag], by simp [countFlag]⟩
  | cons x rest ih =>
    obtain ⟨g, n⟩ := x
    obtain ⟨hs, hp⟩ := h
    obtain ⟨hx, hs'⟩ := List.pairwise_cons.1 hs
    have hr := ih ⟨hs', fun e he => hp e (List.mem_cons_of_mem _ he)⟩
    simp only [countFlag]
    split
    · rename_i hf
      refine ⟨List.pairwise_cons.2 ⟨fun e he => ?_, hs⟩, fun e he => ?_⟩
      · rcases List.mem_cons.1 he with rfl | he
        · exact hf
        · exact Nat.lt_trans hf (hx e he)
      · rcases List.mem_cons.1 he with rfl | he
        · exact Nat.le_refl _
        · exact hp e he
    · split
      · refine ⟨List.pairwise_cons.2 ⟨hx, hs'⟩, fun e he => ?_⟩
        rcases List.mem_cons.1 he with rfl | he
        · exact Nat.le_add_left _ _
        · exact hp e (List.mem_cons_of_mem _ he)
      · rename_i h1 h2
        refine ⟨List.pairwise_cons.2 ⟨fun e he => ?_, hr.1⟩, fun e he => ?_⟩
        · rcases mem_countFlag_key he with h3 | h3
          · show g < e.1
            omega
          · exact hx e h3
        · rcases List.mem_cons.1 he with rfl | he
          · exact hp _ List.mem_cons_self
          · exact hr.2 e he

/-- What a table says of a flag; 0 where it has no entry. -/
def countIn (t : List (Nat × Nat)) (g : Nat) : Nat := ((t.find? fun e => e.1 == g).map Prod.snd).getD 0

theorem countIn_countFlag (f g : Nat) (t : List (Nat × Nat)) (h : FreqOk t) :
    countIn (countFlag f t) g = countIn t g + if f = g then 1 else 0 := by
  induction t with
  | nil => by_cases hf : f = g <;> simp [countIn, countFlag, hf]
  | cons x rest ih =>
    obtain ⟨k, n⟩ := x
    obtain ⟨hs, hp⟩ := h
    obtain ⟨hx, hs'⟩ := List.pairwise_cons.1 hs
    have hr := ih ⟨hs', fun e he => hp e (List.mem_cons_of_mem _ he)⟩
    simp only [countFlag]
    split
    · rename_i hfk
      by_cases hf : f = g
      · have hnone : (((k, n) :: rest).find? fun e => e.1 == g) = none := by
          refine List.find?_eq_none.2 fun e he => ?_
          have : g < e.1 := by
            rcases List.mem_cons.1 he with rfl | he
            · exact hf ▸ hfk
            · exact hf ▸ Nat.lt_trans hfk (hx e he)
          simp only [beq_iff_eq]
          omega
        simp [countIn, hnone, hf]
      · simp [countIn, hf]
    · split
      · rename_i h1 h2
        by_cases hf : f = g
        · simp [countIn, ← h2, hf]
        · have : ¬ k = g := by omega
          simp [countIn, this, h2]
      · by_cases hk : k = g
        · have : ¬ f = g := by omega
          simp [countIn, hk, this]
        · have e1 : countIn ((k, n) :: countFlag f rest) g = countIn (countFlag f rest) g := by
            simp [countIn, hk]
          have e2 : countIn ((k, n) :: rest) g = countIn rest g := by simp [countIn, hk]
          rw [e1, e2, hr]

theorem foldl_countFlag (fl : List Nat) (t : List (Nat × Nat)) (h : FreqOk t) :
    FreqOk (fl.foldl (fun t f => countFlag f t) t) ∧
      ∀ g, countIn (fl.foldl (fun t f => countFlag f t) t) g = countIn t g + fl.count g := by
  induction fl generalizing t with
  | nil => exact ⟨h, fun g => by simp⟩
  | cons f fl ih =>
    obtain ⟨h1, h2⟩ := ih (countFlag f t) (freqOk_countFlag h)
    refine ⟨h1, fun g => ?_⟩
    rw [List.foldl_cons, h2, countIn_countFlag _ _ _ h, List.count_cons]
    by_cases hf : f = g <;> simp [hf]
    omega

theorem freqOk_nil : FreqOk [] := ⟨List.Pairwise.nil, fun _ h => absurd h List.not_mem_nil⟩

theorem freqOk_countFlags (fl : List Nat) : FreqOk (countFlags fl) := (foldl_countFlag fl [] freqOk_nil).1

theorem mem_iff_countIn {t : List (Nat × Nat)} (h : FreqOk t) (g n : Nat) :
    (g, n) ∈ t ↔ countIn t g = n ∧ 1 ≤ n := by
  induction t with
  | nil => simp [countIn]; omega
  | cons x rest ih =>
    obtain ⟨k, m⟩ := x
    obtain ⟨hs, hp⟩ := h
    obtain ⟨hx, hs'⟩ := List.pairwise_cons.1 hs
    have hr := ih ⟨hs', fun e he => hp e (List.mem_cons_of_mem _ he)⟩
    by_cases hk : k = g
    · subst hk
      have hm := hp _ List.mem_cons_self
      constructor
      · intro hmem
        rcases List.mem_cons.1 hmem with he | he
        · obtain ⟨-, rfl⟩ := Prod.mk.inj he
          exact ⟨by simp [countIn], hm⟩
        · exact absurd (hx _ he) (Nat.lt_irrefl _)
      · rintro ⟨h1, -⟩
        have : m = n := by simpa [countIn] using h1
        rw [this]
        exact List.mem_cons_self
    · have e : countIn ((k, m) :: rest) g = countIn rest g := by simp [countIn, hk]
      rw [e, ← hr, List.mem_cons, Prod.mk.injEq]
      constructor
      · rintro (⟨h1, -⟩ | h1)
        · exact absurd h1.symm hk
        · exact h1
      · exact .inr

/-- The table that counts a list: one entry for each flag that occurs, with its count (R121). -/
theorem mem_countFlags (fl : List Nat) (g n : Nat) : (g, n) ∈ countFlags fl ↔ n = fl.count g ∧ 1 ≤ n := by
  have h2 := (foldl_countFlag fl [] freqOk_nil).2
  have h3 : countIn (countFlags fl) g = fl.count g := by
    have := h2 g
    simpa [countIn, countFlags] using this
  rw [mem_iff_countIn (freqOk_countFlags fl), h3]
  constructor
  · rintro ⟨h4, h5⟩
    exact ⟨h4.symm, h5⟩
  · rintro ⟨h4, h5⟩
    exact ⟨h4.symm, h5⟩

/-- Two tables in canonical form with the same entries are equal. -/
theorem freqOk_ext {t u : List (Nat × Nat)} (ht : FreqOk t) (hu : FreqOk u) (h : ∀ e, e ∈ t ↔ e ∈ u) : t = u := by
  have nd : ∀ {v : List (Nat × Nat)}, FreqOk v → v.Nodup := fun hv =>
    hv.1.imp fun hlt heq => absurd hlt (by rw [heq]; exact Nat.lt_irrefl _)
  refine List.Perm.eq_of_pairwise (le := fun a b : Nat × Nat => a.1 < b.1)
    (fun a b _ _ h1 h2 => absurd (Nat.lt_trans h1 h2) (Nat.lt_irrefl _)) ht.1 hu.1
    ((List.perm_ext_iff_of_nodup (nd ht) (nd hu)).2 h)

/-- The table depends on how often each flag occurs, not on the order (R127). -/
theorem countFlags_perm {fl fl' : List Nat} (h : fl.Perm fl') : countFlags fl = countFlags fl' := by
  refine freqOk_ext (freqOk_countFlags _) (freqOk_countFlags _) fun ⟨g, n⟩ => ?_
  rw [mem_countFlags, mem_countFlags, h.count_eq]

theorem countFlags_eq_nil {fl : List Nat} : countFlags fl = [] ↔ fl = [] := by
  constructor
  · intro h
    rcases fl with _ | ⟨f, fl⟩
    · rfl
    · have := (mem_countFlags (f :: fl) f ((f :: fl).count f)).2 ⟨rfl, by simp⟩
      rw [h] at this
      exact absurd this List.not_mem_nil
  · rintro rfl
    rfl

/-! ## The node set -/

/-- The order of R123 as a proposition. -/
def Lower (a b : Node) : Prop := a.freq < b.freq ∨ (a.freq = b.freq ∧ a.minflag < b.minflag)

theorem lower_iff {a b : Node} : a.lower b = true ↔ Lower a b := by
  simp [Node.lower, Lower]

theorem Lower.trans {a b c : Node} (h : Lower a b) (h' : Lower b c) : Lower a c := by
  unfold Lower at *
  omega

theorem Lower.of_not {a b : Node} (h : ¬ Lower a b) (hn : a.minflag ≠ b.minflag) : Lower b a := by
  unfold Lower at *
  omega

theorem insertNode_perm (n : Node) (ns : List Node) : (insertNode n ns).Perm (n :: ns) := by
  induction ns with
  | nil => exact List.Perm.refl _
  | cons m rest ih =>
    simp only [insertNode]
    split
    · exact List.Perm.refl _
    · exact (ih.cons m).trans (List.Perm.swap _ _ _)

theorem insertNode_length (n : Node) (ns : List Node) : (insertNode n ns).length = ns.length + 1 :=
  (insertNode_perm n ns).length_eq

theorem insertNode_sorted {n : Node} {ns : List Node} (hs : ns.Pairwise Lower)
    (hn : ∀ m ∈ ns, n.minflag ≠ m.minflag) : (insertNode n ns).Pairwise Lower := by
  induction ns with
  | nil => simp [insertNode]
  | cons m rest ih =>
    obtain ⟨hm, hs'⟩ := List.pairwise_cons.1 hs
    simp only [insertNode]
    split
    · rename_i h
      have h := lower_iff.1 h
      refine List.pairwise_cons.2 ⟨fun k hk => ?_, hs⟩
      rcases List.mem_cons.1 hk with rfl | hk
      · exact h
      · exact h.trans (hm k hk)
    · rename_i h
      have h1 : ¬ Lower n m := fun hl => h (lower_iff.2 hl)
      refine List.pairwise_cons.2 ⟨fun k hk => ?_, ih hs' fun k hk => hn k (List.mem_cons_of_mem _ hk)⟩
      rcases List.mem_cons.1 ((insertNode_perm n rest).mem_iff.1 hk) with rfl | hk
      · exact Lower.of_not h1 (hn m List.mem_cons_self)
      · exact hm k hk

/-- The form of `N` the loop keeps: lowest first, minimum flags distinct (R123). -/
def NodesOk (ns : List Node) : Prop := ns.Pairwise Lower ∧ (ns.map Node.minflag).Nodup

theorem nodesOk_insert {n : Node} {ns : List Node} (h : NodesOk ns) (hn : n.minflag ∉ ns.map Node.minflag) :
    NodesOk (insertNode n ns) := by
  refine ⟨insertNode_sorted h.1 fun m hm he => hn (he ▸ List.mem_map_of_mem hm), ?_⟩
  exact ((insertNode_perm n ns).map Node.minflag).nodup_iff.2 (List.nodup_cons.2 ⟨hn, h.2⟩)

/-- The leaf of one entry of the table (R122). -/
def entryNode (e : Nat × Nat) : Node := ⟨e.2, e.1, .leaf e.1⟩

theorem foldl_leafNodes (fr : List (Nat × Nat)) (ns : List Node) (h : NodesOk ns)
    (hd : fr.Pairwise fun a b => a.1 < b.1) (hx : ∀ e ∈ fr, e.1 ∉ ns.map Node.minflag) :
    NodesOk (fr.foldl (fun ns e => insertNode ⟨e.2, e.1, .leaf e.1⟩ ns) ns) ∧
      (fr.foldl (fun ns e => insertNode ⟨e.2, e.1, .leaf e.1⟩ ns) ns).Perm (fr.map entryNode ++ ns) := by
  induction fr generalizing ns with
  | nil => exact ⟨h, List.Perm.refl _⟩
  | cons e fr ih =>
    obtain ⟨he, hd'⟩ := List.pairwise_cons.1 hd
    have hok := nodesOk_insert (n := entryNode e) h (hx e List.mem_cons_self)
    obtain ⟨h1, h2⟩ := ih (insertNode (entryNode e) ns) hok hd' fun e' he' hmem => by
      rcases List.mem_cons.1 (((insertNode_perm (entryNode e) ns).map Node.minflag).mem_iff.1 hmem) with h3 | h3
      · have := he e' he'
        have h4 : e'.1 = e.1 := h3
        omega
      · exact hx e' (List.mem_cons_of_mem _ he') h3
    refine ⟨h1, h2.trans ?_⟩
    rw [List.map_cons, List.cons_append]
    exact ((insertNode_perm (entryNode e) ns).append_left _).trans List.perm_middle

/-- The initial node set: the leaves of the table's entries, lowest first (R122). -/
theorem leafNodes_spec {fr : List (Nat × Nat)} (h : FreqOk fr) :
    NodesOk (leafNodes fr) ∧ (leafNodes fr).Perm (fr.map entryNode) := by
  obtain ⟨h1, h2⟩ := foldl_leafNodes fr [] ⟨List.Pairwise.nil, List.nodup_nil⟩ h.1 (by simp)
  exact ⟨h1, by simpa [leafNodes] using h2⟩

/-! ## Merging -/

theorem mergesTo_perm {ns ms : List Node} {t : Tree} (hp : ms.Perm ns) (h : MergesTo ns t) : MergesTo ms t := by
  cases h with
  | one n => rw [List.perm_singleton.1 hp]; exact .one n
  | merge _ rest n1 n2 _ hp' h1 h2 h3 => exact .merge ms rest n1 n2 t (hp.trans hp') h1 h2 h3

/-- The loop merges as R120 says, and ends with a tree over exactly the flags it was given. -/
theorem mergeLoop_spec (rounds : Nat) (ns : List Node) (h : NodesOk ns) (h0 : ns ≠ []) (hr : ns.length ≤ rounds + 1) :
    ∃ t, mergeLoop rounds ns = some t ∧ MergesTo ns t ∧
      (flagsOf t).Perm (ns.map fun n => flagsOf n.tree).flatten := by
  induction rounds generalizing ns with
  | zero =>
    rcases ns with _ | ⟨n, _ | ⟨m, rest⟩⟩
    · exact absurd rfl h0
    · exact ⟨n.tree, rfl, .one n, by simp⟩
    · simp at hr
  | succ k ih =>
    rcases ns with _ | ⟨n1, _ | ⟨n2, rest⟩⟩
    · exact absurd rfl h0
    · exact ⟨n1.tree, rfl, .one n1, by simp⟩
    · obtain ⟨hs, hn⟩ := h
      obtain ⟨h1, hs2⟩ := List.pairwise_cons.1 hs
      obtain ⟨h2, hs3⟩ := List.pairwise_cons.1 hs2
      simp only [List.map_cons, List.nodup_cons, List.mem_cons, not_or] at hn
      obtain ⟨⟨hn12, hn1⟩, hn2, hn3⟩ := hn
      have hmin : (mergeNodes n1 n2).minflag ∉ rest.map Node.minflag := by
        show min n1.minflag n2.minflag ∉ _
        rcases Nat.le_total n1.minflag n2.minflag with hle | hle
        · rw [Nat.min_eq_left hle]; exact hn1
        · rw [Nat.min_eq_right hle]; exact hn2
      have hperm := insertNode_perm (mergeNodes n1 n2) rest
      obtain ⟨t, e1, e2, e3⟩ := ih (insertNode (mergeNodes n1 n2) rest) (nodesOk_insert ⟨hs3, hn3⟩ hmin)
        (fun he => by rw [he] at hperm; exact absurd hperm.length_eq (by simp))
        (by rw [insertNode_length]; simp only [List.length_cons] at hr; omega)
      refine ⟨t, e1, ?_, ?_⟩
      · exact .merge _ rest n1 n2 t (List.Perm.refl _) h1 h2 (mergesTo_perm hperm.symm e2)
      · refine e3.trans ((hperm.map _).flatten.trans ?_)
        simp only [List.map_cons, List.flatten_cons, mergeNodes, flagsOf]
        rw [← List.append_assoc]
        exact List.perm_append_comm.append_right _

/-- The tree of a non-empty table: merged as R120 says, its leaves the table's flags, each once (R126). -/
theorem buildTree_spec {fr : List (Nat × Nat)} (h : FreqOk fr) (h0 : fr ≠ []) :
    ∃ t, buildTree fr = some t ∧ MergesTo (fr.map entryNode) t ∧ (flagsOf t).Perm (fr.map Prod.fst) := by
  obtain ⟨h1, h2⟩ := leafNodes_spec h
  obtain ⟨t, e1, e2, e3⟩ := mergeLoop_spec (leafNodes fr).length (leafNodes fr) h1
    (fun he => by
      rw [he] at h2
      have := h2.length_eq
      simp only [List.length_nil, List.length_map] at this
      exact h0 (List.length_eq_zero_iff.1 this.symm)) (Nat.le_succ _)
  refine ⟨t, e1, mergesTo_perm h2.symm e2, e3.trans ((h2.map _).flatten.trans ?_)⟩
  clear e1 e2 e3 h1 h2 h0 h
  induction fr with
  | nil => exact List.Perm.refl _
  | cons e fr ih => exact ih.cons e.1

theorem buildTree_nil : buildTree [] = none := rfl

/-- The flags of the tree BUILD makes of a token list are the tokens' flags, each once (R126a, R132). -/
theorem buildTree_flags (toks : List Token) :
    (codeTreeFlags (buildTree (freqOf toks))).Nodup ∧
      ∀ f, f ∈ codeTreeFlags (buildTree (freqOf toks)) ↔ ∃ t ∈ toks, t.flag = f := by
  have hok := freqOk_countFlags (toks.map Token.flag)
  by_cases h0 : countFlags (toks.map Token.flag) = []
  · have : toks = [] := by simpa using countFlags_eq_nil.1 h0
    subst this
    exact ⟨List.nodup_nil, fun f => by simp [freqOf, countFlags, buildTree_nil, codeTreeFlags]⟩
  · obtain ⟨t, e1, -, e3⟩ := buildTree_spec hok h0
    simp only [freqOf, e1, codeTreeFlags]
    refine ⟨e3.nodup_iff.2 ?_, fun f => ?_⟩
    · refine List.pairwise_map.2 (hok.1.imp fun hlt => Nat.ne_of_lt hlt)
    · rw [e3.mem_iff, List.mem_map]
      constructor
      · rintro ⟨⟨g, n⟩, he, rfl⟩
        obtain ⟨h1, h2⟩ := (mem_countFlags _ _ _).1 he
        have : g ∈ toks.map Token.flag := List.count_pos_iff.1 (by omega)
        simpa using this
      · intro hf
        have hmem : f ∈ toks.map Token.flag := by simpa using hf
        have := List.count_pos_iff.2 hmem
        exact ⟨(f, (toks.map Token.flag).count f), (mem_countFlags _ _ _).2 ⟨rfl, this⟩, rfl⟩

/-! ## Paths -/

/-- The path of a flag leads to a leaf of that flag (R128). -/
theorem follow_pathOf {f : Nat} {t : Tree} {code : Bits} (h : pathOf f t = some code) :
    follow t code = some (.leaf f) := by
  induction t generalizing code with
  | leaf g =>
    simp only [pathOf] at h
    split at h
    · rename_i hg
      obtain rfl := (Option.some.inj h).symm
      rw [hg]
      rfl
    · exact absurd h (by simp)
  | internal l r ihl ihr =>
    simp only [pathOf] at h
    rcases hl : pathOf f l with _ | a
    · rcases hr : pathOf f r with _ | b
      · simp [hl, hr] at h
      · simp only [hl, hr, Option.some.injEq] at h
        subst h
        simpa [follow] using ihr hr
    · simp only [hl, Option.some.injEq] at h
      subst h
      simpa [follow] using ihl hl

/-- A flag has no path exactly when no leaf holds it (R130). -/
theorem pathOf_eq_none {f : Nat} {t : Tree} : pathOf f t = none ↔ f ∉ flagsOf t := by
  induction t with
  | leaf g =>
    simp only [pathOf, flagsOf, List.mem_singleton]
    split
    · rename_i h; simp [h]
    · rename_i h; simp only [true_iff]; exact fun he => h he.symm
  | internal l r ihl ihr =>
    simp only [pathOf, flagsOf, List.mem_append, not_or, ← ihl, ← ihr]
    rcases hl : pathOf f l with _ | a
    · rcases hr : pathOf f r with _ | b <;> simp
    · simp

theorem mem_of_follow {f : Nat} {t : Tree} {code : Bits} (h : follow t code = some (.leaf f)) : f ∈ flagsOf t := by
  induction t generalizing code with
  | leaf g =>
    rcases code with _ | ⟨b, code⟩
    · simp only [follow, Option.some.injEq, Tree.leaf.injEq] at h
      simp [flagsOf, h]
    · exact absurd h (by simp [follow])
  | internal l r ihl ihr =>
    rcases code with _ | ⟨b, code⟩
    · exact absurd h (by simp [follow])
    · cases b
      · exact List.mem_append_left _ (ihl (by simpa [follow] using h))
      · exact List.mem_append_right _ (ihr (by simpa [follow] using h))

/-- The path found is the first in preorder among those that lead to a leaf of the flag (D15). -/
theorem pathOf_first {f : Nat} {t : Tree} {code other : Bits} (h : pathOf f t = some code)
    (h' : follow t other = some (.leaf f)) :
    code = other ∨ ∃ p a b, code = p ++ false :: a ∧ other = p ++ true :: b := by
  induction t generalizing code other with
  | leaf g =>
    rcases other with _ | ⟨b, other⟩
    · simp only [pathOf] at h
      split at h
      · exact .inl (Option.some.inj h).symm
      · exact absurd h (by simp)
    · exact absurd h' (by simp [follow])
  | internal l r ihl ihr =>
    rcases other with _ | ⟨b, other⟩
    · exact absurd h' (by simp [follow])
    · simp only [pathOf] at h
      cases b
      · have h'' : follow l other = some (.leaf f) := by simpa [follow] using h'
        rcases hl : pathOf f l with _ | a
        · exact absurd (mem_of_follow h'') (pathOf_eq_none.1 hl)
        · simp only [hl, Option.some.injEq] at h
          subst h
          rcases ihl hl h'' with rfl | ⟨p, x, y, rfl, rfl⟩
          · exact .inl rfl
          · exact .inr ⟨false :: p, x, y, rfl, rfl⟩
      · have h'' : follow r other = some (.leaf f) := by simpa [follow] using h'
        rcases hl : pathOf f l with _ | a
        · rcases hr : pathOf f r with _ | c
          · simp [hl, hr] at h
          · simp only [hl, hr, Option.some.injEq] at h
            subst h
            rcases ihr hr h'' with rfl | ⟨p, x, y, rfl, rfl⟩
            · exact .inl rfl
            · exact .inr ⟨true :: p, x, y, rfl, rfl⟩
        · simp only [hl, Option.some.injEq] at h
          subst h
          exact .inr ⟨[], a, other, rfl, rfl⟩

/-- Two paths to leaves, one a front of the other, are the same path: leaves have no children (R131). -/
theorem follow_front {t : Tree} {a b : Bits} {f g : Nat} (h : follow t a = some (.leaf f))
    (h' : follow t (a ++ b) = some (.leaf g)) : b = [] ∧ f = g := by
  induction t generalizing a with
  | leaf k =>
    rcases a with _ | ⟨x, a⟩
    · rcases b with _ | ⟨y, b⟩
      · simp only [follow, Option.some.injEq, List.append_nil] at h h'
        rw [h] at h'
        exact ⟨rfl, by simpa using h'⟩
      · exact absurd h' (by simp [follow])
    · exact absurd h (by simp [follow])
  | internal l r ihl ihr =>
    rcases a with _ | ⟨x, a⟩
    · exact absurd h (by simp [follow])
    · cases x
      · exact ihl (by simpa [follow] using h) (by simpa [follow] using h')
      · exact ihr (by simpa [follow] using h) (by simpa [follow] using h')

/-- Two paths that part lead to one flag only where the flag stands on two leaves. -/
theorem two_paths {t : Tree} {p a b : Bits} {f : Nat} (h : follow t (p ++ false :: a) = some (.leaf f))
    (h' : follow t (p ++ true :: b) = some (.leaf f)) : ¬ (flagsOf t).Nodup := by
  induction p generalizing t with
  | nil =>
    cases t with
    | leaf g => simp [follow] at h
    | internal l r =>
      simp [follow] at h h'
      intro hn
      exact List.disjoint_of_nodup_append hn (mem_of_follow h) (mem_of_follow h')
  | cons x p ih =>
    cases t with
    | leaf g => simp [follow] at h
    | internal l r =>
      intro hn
      have hn := List.nodup_append.1 hn
      cases x <;> simp [follow] at h h'
      · exact ih h h' hn.1
      · exact ih h h' hn.2.1

end Sys2Proof.Machine
end

