-- ==== Sys2Proof/Laws/Operands.lean ====
section
/-! SUPPORT. Fields of a width: what `fitField` can hold, and `TOK` and `FLAG` as the operations read them (10_state.md R27,
R30; log entry 19). -/

namespace Sys2Proof.Machine

theorem fitField_lt (n v : Nat) : fitField n v < 2 ^ n := by
  unfold fitField
  split
  · assumption
  · exact Nat.mod_lt _ (Nat.two_pow_pos n)

theorem fitField_of_lt {n v : Nat} (h : v < 2 ^ n) : fitField n v = v := if_pos h

/-- A value that a field holds is held again as it is. -/
@[simp] theorem fitField_idem (n v : Nat) : fitField n (fitField n v) = fitField n v := fitField_of_lt (fitField_lt n v)

theorem tokenFits_held (c : Cfg) (t : Token) : TokenFits c (heldToken c t) := ⟨fitField_lt _ _, fitField_lt _ _⟩

theorem heldToken_of_fits {c : Cfg} {t : Token} (h : TokenFits c t) : heldToken c t = t := by
  simp [heldToken, fitField_of_lt h.1, fitField_of_lt h.2]

theorem State.tokens_fit (s : State) : ∀ t ∈ s.tokens, TokenFits s.cfg t := by
  intro t ht
  obtain ⟨u, -, rfl⟩ := List.mem_map.1 ht
  exact tokenFits_held _ _

@[simp] theorem State.length_tokens (s : State) : s.tokens.length = s.tlen := List.length_map _

theorem State.tokens_of_fits {s : State} (h : ∀ t ∈ s.tok, TokenFits s.cfg t) : s.tokens = s.tok :=
  (List.map_congr_left fun t ht => heldToken_of_fits (h t ht)).trans (List.map_id _)

theorem State.tokens_eq_nil {s : State} : s.tokens = [] ↔ s.tok = [] := List.map_eq_nil_iff

theorem State.flagOperand_lt (s : State) : s.flagOperand < s.cfg.windowSize := fitField_lt _ _

theorem State.flagOperand_of_lt {s : State} (h : s.flag < s.cfg.windowSize) : s.flagOperand = s.flag := fitField_of_lt h

end Sys2Proof.Machine
end

