-- ==== Sys2Proof/Laws/TreeCodec.lean ====
section
/-! SUPPORT. What SERIALIZE's walk, HEADER's layout and DESERIALIZE's parser answer (44_treecodec.md R135 to R147), said
once each. -/

namespace Sys2Proof.Machine

/-! ## The walk -/

theorem serTree_internal (l r : Tree) :
    serTree (.internal l r) = (true :: ((serTree l).1 ++ (serTree r).1), (serTree l).2 ++ (serTree r).2) := rfl

/-- The leaf values are the flags in preorder (R135). -/
theorem serTree_values (t : Tree) : (serTree t).2 = flagsOf t := by
  induction t with
  | leaf f => rfl
  | internal l r ihl ihr => rw [serTree_internal, ihl, ihr]; rfl

theorem flagsOf_pos (t : Tree) : 1 ≤ (flagsOf t).length := by
  induction t with
  | leaf f => exact Nat.le_refl _
  | internal l r ihl ihr => simp only [flagsOf, List.length_append]; omega

/-- `S = 2L - 1` (R141). -/
theorem serTree_length (t : Tree) : (serTree t).1.length + 1 = 2 * (flagsOf t).length := by
  induction t with
  | leaf f => rfl
  | internal l r ihl ihr =>
    simp only [serTree_internal, flagsOf, List.length_cons, List.length_append]
    omega

/-- One leaf value for each 0 bit (R140). -/
theorem serTree_zeros (t : Tree) : (serTree t).1.count false = (flagsOf t).length := by
  induction t with
  | leaf f => rfl
  | internal l r ihl ihr =>
    simp only [serTree_internal, flagsOf, List.length_append, List.count_cons, List.count_append, ihl, ihr]
    simp

theorem serTree_length_pos (t : Tree) : 1 ≤ (serTree t).1.length := by
  have := serTree_length t
  have := flagsOf_pos t
  omega

theorem ser_values (t : CodeTree) : (ser t).2 = codeTreeFlags t := by
  cases t with
  | none => rfl
  | some t => exact serTree_values t

@[simp] theorem leafField_nil (c : Cfg) : leafField c [] = [] := rfl

@[simp] theorem leafField_cons (c : Cfg) (v : Nat) (vs : List Nat) :
    leafField c (v :: vs) = uN c.windowBits v ++ leafField c vs := by simp [leafField]

theorem leafField_append (c : Cfg) (vs us : List Nat) :
    leafField c (vs ++ us) = leafField c vs ++ leafField c us := by simp [leafField]

@[simp] theorem length_leafField (c : Cfg) (vs : List Nat) :
    (leafField c vs).length = vs.length * c.windowBits := by
  induction vs with
  | nil => simp
  | cons v vs ih => simp [ih, Nat.add_mul, Nat.add_comm]

@[simp] theorem length_sizeField (size : Nat) : (sizeField size).length = 64 := length_uN _ _

/-- The field `struct_size` where `u_64(S)` is defined (R141). -/
theorem sizeField_of_lt {size : Nat} (h : size < 2 ^ structSizeBits) : sizeField size = uN structSizeBits size := by
  rw [sizeField, fitField_of_lt h]

/-- A header that fits, written out (R137). -/
theorem treeHeader_of_fits {c : Cfg} {t : CodeTree} (h : HeaderFits c t) :
    treeHeader c t = uN structSizeBits (ser t).1.length ++ (ser t).1 ++ leafField c (ser t).2 := by
  rw [treeHeader, headerBits, sizeField_of_lt h.2]

/-- The length of a header (R137). -/
theorem length_headerBits (c : Cfg) (sb : Bits) (lv : List Nat) :
    (headerBits c sb lv).length = 64 + sb.length + lv.length * c.windowBits := by
  simp [headerBits, Nat.add_assoc]

/-! ## SERIALIZE -/

/-- A tree whose flags fit is serialised; one with a flag too wide is refused, by its first such flag (R136, D30). -/
theorem serialize_spec (c : Cfg) (t : CodeTree) :
    (Fits c t ∧ serialize c t = .ok (ser t)) ∨
      ∃ v, (codeTreeFlags t).find? (fun f => decide (c.windowSize ≤ f)) = some v ∧
        serialize c t = .error (.refuse (.leafTooWide v)) := by
  simp only [serialize, ser_values]
  split
  · rename_i v h
    exact .inr ⟨v, h, rfl⟩
  · rename_i h
    refine .inl ⟨fun f hf => ?_, rfl⟩
    have := List.find?_eq_none.1 h f hf
    simpa using this

theorem serialize_of_fits {c : Cfg} {t : CodeTree} (h : Fits c t) : serialize c t = .ok (ser t) := by
  rcases serialize_spec c t with h1 | ⟨v, h1, -⟩
  · exact h1.2
  · have h2 := List.find?_some h1
    have h3 := h v (List.mem_of_find?_eq_some h1)
    simp only [decide_eq_true_eq] at h2
    omega

/-! ## Parsing -/

/-- A tree's serialisation parses back to the tree, and what follows it is left (R147). -/
theorem parse_serTree {c : Cfg} {t : Tree} (hf : ∀ f ∈ flagsOf t, f < c.windowSize) (depth : Nat) (sb more : Bits)
    (rp : Nat) (lv : List Nat) (hd : (serTree t).1.length ≤ depth) :
    parse c depth ⟨(serTree t).1 ++ sb, ⟨rp, leafField c (serTree t).2 ++ more⟩, lv⟩ =
      .ok (t, ⟨sb, ⟨rp + (leafField c (serTree t).2).length, more⟩, lv ++ (serTree t).2⟩) := by
  induction t generalizing depth sb more rp lv with
  | leaf f =>
    cases depth with
    | zero => exact absurd hd (by simp [serTree])
    | succ n =>
      have h1 : f < 2 ^ c.windowBits := hf f List.mem_cons_self
      simp [serTree, parse, decodeNode, Reader.field_append _ _ _ _ _ h1]
  | internal l r ihl ihr =>
    cases depth with
    | zero => exact absurd hd (by simp [serTree_internal])
    | succ n =>
      have hd' : (serTree l).1.length + (serTree r).1.length ≤ n := by
        simp only [serTree_internal, List.length_cons, List.length_append] at hd
        omega
      have hl := ihl (fun f h => hf f (List.mem_append_left _ h)) n ((serTree r).1 ++ sb)
        (leafField c (serTree r).2 ++ more) rp lv (by omega)
      have hr := ihr (fun f h => hf f (List.mem_append_right _ h)) n sb more
        (rp + (leafField c (serTree l).2).length) (lv ++ (serTree l).2) (by omega)
      simp only [serTree_internal, List.cons_append, List.append_assoc, leafField_append, parse, decodeNode, hl, hr,
        List.length_append, Nat.add_assoc]

/-- What a parse that succeeds has read: the serialisation of its tree, whose flags fit (R147). -/
theorem parse_ok {c : Cfg} {depth : Nat} {k k' : Cursor} {t : Tree} (h : parse c depth k = .ok (t, k')) :
    (∀ f ∈ flagsOf t, f < c.windowSize) ∧ k.sb = (serTree t).1 ++ k'.sb ∧
      k.rd.unread = leafField c (serTree t).2 ++ k'.rd.unread ∧
      k'.rd.rp = k.rd.rp + (leafField c (serTree t).2).length ∧ k'.lv = k.lv ++ (serTree t).2 := by
  induction depth generalizing k k' t with
  | zero => exact absurd h (by simp [parse])
  | succ n ih =>
    simp only [parse, decodeNode] at h
    obtain ⟨sb, rd, lv⟩ := k
    rcases sb with _ | ⟨b, sb⟩
    · exact absurd h (by simp)
    · cases b
      · simp only at h
        rcases hr : rd.field c.windowBits .malformedHeader with e | ⟨v, rd'⟩
        · simp [hr] at h
        · simp only [hr, Except.ok.injEq, Prod.mk.injEq] at h
          obtain ⟨rfl, rfl⟩ := h
          obtain ⟨h1, h2, h3⟩ := Reader.field_eq_ok hr
          refine ⟨fun f hf => ?_, rfl, by simpa [serTree] using h2, by simpa [serTree] using h3, rfl⟩
          rw [show f = v from List.mem_singleton.1 hf]
          exact h1
      · simp only at h
        rcases h1 : parse c n ⟨sb, rd, lv⟩ with e | ⟨l, k1⟩
        · simp [h1] at h
        · rcases h2 : parse c n k1 with e | ⟨r, k2⟩
          · simp [h1, h2] at h
          · simp only [h1, h2, Except.ok.injEq, Prod.mk.injEq] at h
            obtain ⟨rfl, rfl⟩ := h
            obtain ⟨a1, a2, a3, a4, a5⟩ := ih h1
            obtain ⟨b1, b2, b3, b4, b5⟩ := ih h2
            simp only at a2 a3 a4 a5
            refine ⟨fun f hf => ?_, ?_, ?_, ?_, ?_⟩
            · rcases List.mem_append.1 hf with hf | hf
              · exact a1 f hf
              · exact b1 f hf
            · simp only [serTree_internal, a2, b2, List.cons_append, List.append_assoc]
            · simp only [serTree_internal, a3, b3, leafField_append, List.append_assoc]
            · simp only [serTree_internal, b4, a4, leafField_append, List.length_append]
              omega
            · simp only [serTree_internal, b5, a5, List.append_assoc]

/-- A parse fails in one kind only (R143). -/
theorem parse_error {c : Cfg} {depth : Nat} {k : Cursor} {e : ErrKind} (h : parse c depth k = .error e) :
    e = .malformedHeader := by
  induction depth generalizing k e with
  | zero => exact (Except.error.inj h).symm
  | succ n ih =>
    simp only [parse, decodeNode] at h
    obtain ⟨sb, rd, lv⟩ := k
    rcases sb with _ | ⟨b, sb⟩
    · exact (Except.error.inj h).symm
    · cases b
      · simp only at h
        rcases hr : rd.field c.windowBits .malformedHeader with e' | ⟨v, rd'⟩
        · simp only [hr, Except.error.injEq] at h
          exact h ▸ (Reader.field_eq_error.1 hr).1
        · simp [hr] at h
      · simp only at h
        rcases h1 : parse c n ⟨sb, rd, lv⟩ with e' | ⟨l, k1⟩
        · simp only [h1, Except.error.injEq] at h
          exact h ▸ ih h1
        · rcases h2 : parse c n k1 with e' | ⟨r, k2⟩
          · simp only [h1, h2, Except.error.injEq] at h
            exact h ▸ ih h2
          · simp [h1, h2] at h

theorem parseSubtree_serTree {c : Cfg} {t : Tree} (hf : ∀ f ∈ flagsOf t, f < c.windowSize) (sb more : Bits) (rp : Nat)
    (lv : List Nat) :
    parseSubtree c ⟨(serTree t).1 ++ sb, ⟨rp, leafField c (serTree t).2 ++ more⟩, lv⟩ =
      .ok (t, ⟨sb, ⟨rp + (leafField c (serTree t).2).length, more⟩, lv ++ (serTree t).2⟩) :=
  parse_serTree hf _ sb more rp lv (by simp only [List.length_append]; omega)

/-- `parse` at the front of a place, node first and then its subtrees: R142's own recursion. -/
theorem parseSubtree_eq {c : Cfg} (k : Cursor) :
    parseSubtree c k =
      match decodeNode c k.sb k.rd with
      | .error e => .error e
      | .ok (some v, sb, rd) => .ok (.leaf v, ⟨sb, rd, k.lv ++ [v]⟩)
      | .ok (none, sb, rd) =>
        match parseSubtree c ⟨sb, rd, k.lv⟩ with
        | .error e => .error e
        | .ok (l, k1) =>
          match parseSubtree c k1 with
          | .error e => .error e
          | .ok (r, k2) => .ok (.internal l r, k2) := by
  have mono : ∀ (d d' : Nat) (k : Cursor), k.sb.length < d → k.sb.length < d' → parse c d k = parse c d' k := by
    intro d d' k h h'
    rcases hp : parse c d k with e | ⟨t, k'⟩
    · rcases hp' : parse c d' k with e' | ⟨t, k'⟩
      · rw [parse_error hp, parse_error hp']
      · obtain ⟨a1, a2, a3, -, -⟩ := parse_ok hp'
        obtain ⟨sb, ⟨rp, un⟩, lv⟩ := k
        simp only at a2 a3 h
        subst a2 a3
        rw [parse_serTree a1 d _ _ _ _ (by simp only [List.length_append] at h; omega)] at hp
        exact absurd hp (by simp)
    · obtain ⟨a1, a2, a3, a4, a5⟩ := parse_ok hp
      obtain ⟨sb, ⟨rp, un⟩, lv⟩ := k
      obtain ⟨sb', ⟨rp', un'⟩, lv'⟩ := k'
      simp only at a2 a3 a4 a5 h'
      subst a2 a3 a4 a5
      rw [parse_serTree a1 d' _ _ _ _ (by simp only [List.length_append] at h'; omega)]
  obtain ⟨sb, rd, lv⟩ := k
  conv_lhs => rw [parseSubtree, parse]
  rcases sb with _ | ⟨b, sb⟩
  · rfl
  · cases b
    · simp only [decodeNode]
      rcases rd.field c.windowBits .malformedHeader with e | ⟨v, rd'⟩ <;> rfl
    · simp only [decodeNode, List.length_cons]
      rw [parseSubtree, mono (sb.length + 1) (sb.length + 1) _ (by simp) (by simp)]
      rcases h1 : parse c (sb.length + 1) ⟨sb, rd, lv⟩ with e | ⟨l, k1⟩
      · rfl
      · simp only
        have hk := (parse_ok h1).2.1
        simp only at hk
        have hlen : k1.sb.length ≤ sb.length := by rw [hk, List.length_append]; omega
        rw [parseSubtree, mono (sb.length + 1) (k1.sb.length + 1) k1 (by omega) (by omega)] <;> rfl

/-! ## DESERIALIZE -/

/-- A reader in front of a header gives the tree back, and stands behind the header (R147). -/
theorem deserialize_header {c : Cfg} {t : CodeTree} (h : HeaderFits c t) (rp : Nat) (more : Bits) :
    deserialize c ⟨rp, treeHeader c t ++ more⟩ =
      .ok ⟨t, (ser t).1, (ser t).2, ⟨rp + (treeHeader c t).length, more⟩, (ser t).1.length⟩ := by
  rw [treeHeader_of_fits h]
  obtain ⟨hf, hlen⟩ := h
  cases t with
  | none =>
    simp only [ser, List.length_nil, List.append_nil, leafField_nil, deserialize, decodeStructSize]
    rw [Reader.field_append _ _ _ _ _ (Nat.two_pow_pos _)]
    simp
  | some t =>
    have hpos := serTree_length_pos t
    simp only [ser] at hlen
    simp only [ser, List.append_assoc, deserialize, decodeStructSize]
    rw [Reader.field_append _ _ _ _ _ hlen]
    simp only
    rw [if_neg (by omega), readStructure, Reader.read_append _ _ _ _ rfl]
    have hp := parseSubtree_serTree (c := c) (t := t) hf [] more (rp + structSizeBits + (serTree t).1.length) []
    rw [List.append_nil] at hp
    simp only [hp, if_true]
    simp [Nat.add_assoc]

/-- What a successful DESERIALIZE has read: a header, which its tree determines (R147). -/
theorem deserialize_ok {c : Cfg} {r : Reader} {p : Parsed} (h : deserialize c r = .ok p) :
    HeaderFits c p.tree ∧ r.unread = treeHeader c p.tree ++ p.rd.unread ∧
      p.rd.rp = r.rp + (treeHeader c p.tree).length ∧ p.sb = (ser p.tree).1 ∧ p.lv = (ser p.tree).2 ∧
      p.si = (ser p.tree).1.length := by
  simp only [deserialize, decodeStructSize] at h
  rcases h1 : r.field structSizeBits .malformedHeader with e | ⟨size, r1⟩
  · simp [h1] at h
  · obtain ⟨hs, hu, hrp⟩ := Reader.field_eq_ok h1
    simp only [h1] at h
    by_cases h0 : size = 0
    · rw [if_pos h0] at h
      obtain rfl := (Except.ok.inj h).symm
      subst h0
      have hfit : HeaderFits c none := ⟨fun f hf => absurd hf (by simp [codeTreeFlags]), Nat.two_pow_pos _⟩
      refine ⟨hfit, ?_, ?_, rfl, rfl, rfl⟩ <;> rw [treeHeader_of_fits hfit]
      · simpa [ser] using hu
      · simpa [ser] using hrp
    · rw [if_neg h0] at h
      simp only [readStructure] at h
      rcases h2 : r1.read size with _ | ⟨sb, r2⟩
      · simp [h2] at h
      · obtain ⟨hb, hu2, hrp2⟩ := Reader.read_eq_some h2
        simp only [h2] at h
        rcases h3 : parseSubtree c ⟨sb, r2, []⟩ with e | ⟨t, k⟩
        · simp [h3] at h
        · simp only [h3] at h
          obtain ⟨a1, a2, a3, a4, a5⟩ := parse_ok h3
          simp only at a2 a3 a4 a5
          by_cases hk : k.sb = []
          · rw [if_pos hk] at h
            obtain rfl := (Except.ok.inj h).symm
            rw [hk, List.append_nil] at a2
            have hfit : HeaderFits c (some t) := by
              refine ⟨a1, ?_⟩
              simp only [ser]
              rw [← a2, hb]
              exact hs
            refine ⟨hfit, ?_, ?_, a2, by simpa [ser] using a5, ?_⟩
            · rw [treeHeader_of_fits hfit]
              simp only [ser, List.append_assoc]
              rw [hu, hu2, a3, a2, ← hb, a2]
            · rw [treeHeader_of_fits hfit]
              simp only [ser, List.length_append, length_uN]
              rw [a4, hrp2, hrp, ← a2, hb]
              omega
            · simp only [ser]
              rw [← a2, hb]
          · rw [if_neg hk] at h
            exact absurd h (by simp)

/-- DESERIALIZE fails in one kind only (R143). -/
theorem deserialize_error {c : Cfg} {r : Reader} {e : ErrKind} (h : deserialize c r = .error e) :
    e = .malformedHeader := by
  simp only [deserialize, decodeStructSize] at h
  rcases h1 : r.field structSizeBits .malformedHeader with e' | ⟨size, r1⟩
  · simp only [h1, Except.error.injEq] at h
    exact h ▸ (Reader.field_eq_error.1 h1).1
  · simp only [h1] at h
    by_cases h0 : size = 0
    · rw [if_pos h0] at h
      exact absurd h (by simp)
    · rw [if_neg h0] at h
      simp only [readStructure] at h
      rcases h2 : r1.read size with _ | ⟨sb, r2⟩
      · simp only [h2, Except.error.injEq] at h
        exact h.symm
      · simp only [h2] at h
        rcases h3 : parseSubtree c ⟨sb, r2, []⟩ with e' | ⟨t, k⟩
        · simp only [h3, Except.error.injEq] at h
          exact h ▸ parse_error h3
        · simp only [h3] at h
          by_cases hk : k.sb = []
          · rw [if_pos hk] at h
            exact absurd h (by simp)
          · rw [if_neg hk] at h
            exact (Except.error.inj h).symm

/-- No tree's structure is a proper front of another's. -/
theorem serTree_front {t u : Tree} {a b : Bits} (h : (serTree t).1 ++ a = (serTree u).1 ++ b) :
    (serTree t).1 = (serTree u).1 ∧ a = b := by
  induction t generalizing u a b with
  | leaf f =>
    cases u with
    | leaf g => simpa [serTree] using h
    | internal l r => simp [serTree] at h
  | internal l r ihl ihr =>
    cases u with
    | leaf g => simp [serTree] at h
    | internal l' r' =>
      simp only [serTree_internal, List.cons_append, List.cons.injEq, true_and, List.append_assoc] at h ⊢
      obtain ⟨h1, h2⟩ := ihl h
      obtain ⟨h3, h4⟩ := ihr h2
      rw [h1, h3]; exact ⟨rfl, h4⟩

theorem structure_index {sb x rest : Bits} {si : Nat} (h : sb.drop si = x ++ rest) (hx : 1 ≤ x.length) :
    sb.length - rest.length = si + x.length := by
  have := congrArg List.length h
  simp at this
  omega

end Sys2Proof.Machine
end

