-- ==== Sys2Proof/Laws/Container.lean ====
section
/-! SUPPORT. What the token loop and the coding of tokens answer (45_container.md R150 to R164), said once each. -/

namespace Sys2Proof.Machine

/-! ## A well-formed configuration (00_scope.md R14) -/

theorem wf_lengthBits {c : Cfg} (h : c.wf = true) : 8 ≤ c.lengthBits := by
  simp only [Cfg.wf, Bool.and_eq_true, decide_eq_true_eq] at h
  exact h.1.1.1

theorem wf_windowBits {c : Cfg} (h : c.wf = true) : 1 ≤ c.windowBits ∧ c.windowBits ≤ 62 := by
  simp only [Cfg.wf, Bool.and_eq_true, decide_eq_true_eq] at h
  exact ⟨h.1.1.2, h.1.2⟩

/-- A single-leaf container never ends on a byte boundary (R14c, R201). -/
theorem wf_single_leaf {c : Cfg} (h : c.wf = true) {k : Nat} (hk : 1 ≤ k) :
    (65 + c.windowBits + k * c.lengthBits) % 8 ≠ 0 := by
  simp only [Cfg.wf, Bool.and_eq_true, List.all_eq_true, List.mem_range, bne_iff_ne] at h
  have hj : (k - 1) % 8 < 8 := Nat.mod_lt _ (by decide)
  have h3 := h.2 ((k - 1) % 8) hj
  obtain ⟨q, hq⟩ : ∃ q, k = (k - 1) % 8 + 1 + 8 * q := ⟨(k - 1) / 8, by omega⟩
  intro h0
  apply h3
  rw [hq] at h0
  have e : ((k - 1) % 8 + 1 + 8 * q) * c.lengthBits = ((k - 1) % 8 + 1) * c.lengthBits + 8 * (q * c.lengthBits) := by ring
  rw [e, ← Nat.add_assoc] at h0
  omega

/-! ## The tree walk -/

/-- The walk follows a path to its leaf and reads exactly its bits (R158). -/
theorem walk_follow {t : Tree} {code : Bits} {f : Nat} (h : follow t code = some (.leaf f)) (rp : Nat) (rest : Bits) :
    walk t ⟨rp, code ++ rest⟩ = .ok (f, ⟨rp + code.length, rest⟩) := by
  induction t generalizing code rp with
  | leaf g =>
    rcases code with _ | ⟨b, code⟩
    · simp only [follow, Option.some.injEq, Tree.leaf.injEq] at h
      simp [walk, h]
    · exact absurd h (by simp [follow])
  | internal l r ihl ihr =>
    rcases code with _ | ⟨b, code⟩
    · exact absurd h (by simp [follow])
    · cases b
      · simp only [List.cons_append, walk, List.length_cons]
        rw [ihl (by simpa [follow] using h)]
        rw [Nat.add_assoc, Nat.add_comm 1]
      · simp only [List.cons_append, walk, List.length_cons]
        rw [ihr (by simpa [follow] using h)]
        rw [Nat.add_assoc, Nat.add_comm 1]

/-- What a walk that ends has read: a path to a leaf. -/
theorem walk_ok {t : Tree} {r r' : Reader} {f : Nat} (h : walk t r = .ok (f, r')) :
    ∃ code, follow t code = some (.leaf f) ∧ r.unread = code ++ r'.unread ∧ r'.rp = r.rp + code.length := by
  induction t generalizing r with
  | leaf g =>
    obtain ⟨rfl, rfl⟩ := Prod.mk.inj (Except.ok.inj h)
    exact ⟨[], rfl, rfl, rfl⟩
  | internal left right ihl ihr =>
    simp only [walk] at h
    obtain ⟨rp, un⟩ := r
    rcases un with _ | ⟨b, un⟩
    · exact absurd h (by simp)
    · cases b
      · obtain ⟨code, h1, h2, h3⟩ := ihl h
        exact ⟨false :: code, by simpa [follow] using h1, by simpa using h2, by simp only at h3 ⊢; simp; omega⟩
      · obtain ⟨code, h1, h2, h3⟩ := ihr h
        exact ⟨true :: code, by simpa [follow] using h1, by simpa using h2, by simp only at h3 ⊢; simp; omega⟩

/-- A walk fails in one kind only (R159). -/
theorem walk_error {t : Tree} {r : Reader} {e : ErrKind} (h : walk t r = .error e) : e = .truncatedStream := by
  induction t generalizing r with
  | leaf g => exact absurd h (by simp [walk])
  | internal left right ihl ihr =>
    simp only [walk] at h
    obtain ⟨rp, un⟩ := r
    rcases un with _ | ⟨b, un⟩
    · exact (Except.error.inj h).symm
    · cases b
      · exact ihl h
      · exact ihr h

/-- A coded token decodes to itself (30_encoding.md R67, R72). -/
theorem decodeToken_coded {c : Cfg} {t : Tree} {code : Bits} {k : Token} (h : follow t code = some (.leaf k.flag))
    (hp : k.payload < c.lengthSize) (rp : Nat) (rest : Bits) :
    decodeToken c (some t) ⟨rp, code ++ uN c.lengthBits k.payload ++ rest⟩ =
      .ok (k, ⟨rp + code.length + c.lengthBits, rest⟩) := by
  simp only [decodeToken, List.append_assoc]
  rw [walk_follow h]
  simp only
  rw [Reader.field_append _ _ _ _ _ hp]

/-- What a token that decodes has read (30_encoding.md R67). -/
theorem decodeToken_ok {c : Cfg} {tree : CodeTree} {r r' : Reader} {k : Token}
    (h : decodeToken c tree r = .ok (k, r')) :
    ∃ t code, tree = some t ∧ follow t code = some (.leaf k.flag) ∧ k.payload < c.lengthSize ∧
      r.unread = code ++ uN c.lengthBits k.payload ++ r'.unread ∧ r'.rp = r.rp + code.length + c.lengthBits := by
  cases tree with
  | none => exact absurd h (by simp [decodeToken])
  | some t =>
    simp only [decodeToken] at h
    rcases hw : walk t r with e | ⟨f, r1⟩
    · simp [hw] at h
    · simp only [hw] at h
      rcases hf : r1.field c.lengthBits .truncatedStream with e | ⟨p, r2⟩
      · simp [hf] at h
      · simp only [hf, Except.ok.injEq, Prod.mk.injEq] at h
        obtain ⟨rfl, rfl⟩ := h
        obtain ⟨code, h1, h2, h3⟩ := walk_ok hw
        obtain ⟨g1, g2, g3⟩ := Reader.field_eq_ok hf
        exact ⟨t, code, rfl, h1, g1, by rw [h2, g2, List.append_assoc], by rw [g3, h3]⟩

/-- The kinds a token can fail in (R159, R160). -/
theorem decodeToken_error {c : Cfg} {tree : CodeTree} {r : Reader} {e : ErrKind} (h : decodeToken c tree r = .error e) :
    (tree = none ∧ e = .malformedHeader) ∨ ((∃ t, tree = some t) ∧ e = .truncatedStream) := by
  cases tree with
  | none => exact .inl ⟨rfl, (Except.error.inj h).symm⟩
  | some t =>
    refine .inr ⟨⟨t, rfl⟩, ?_⟩
    simp only [decodeToken] at h
    rcases hw : walk t r with e' | ⟨f, r1⟩
    · simp only [hw, Except.error.injEq] at h
      exact h ▸ walk_error hw
    · simp only [hw] at h
      rcases hf : r1.field c.lengthBits .truncatedStream with e' | ⟨p, r2⟩
      · simp only [hf, Except.error.injEq] at h
        exact h ▸ (Reader.field_eq_error.1 hf).1
      · simp [hf] at h

/-! ## The token loop -/

/-- A code to a leaf is empty only in a single-leaf tree (43_treebuilder.md R129). -/
theorem follow_nil {t : Tree} {f : Nat} (h : follow t [] = some (.leaf f)) : t = .leaf f := by
  simpa [follow] using h

/-- The loop reads a coded token list and stops before the residual bits (R157, R158, R164): these are at most
`LENGTH_BITS`, and at least one where the tree is a single leaf and there is a token. -/
theorem tokenLoop_coded {c : Cfg} {t : Tree} {ks : List Token} {body residual : Bits} (hc : CodedAs c t ks body)
    (hres : residual.length ≤ c.lengthBits) (hleaf : ∀ f, t = .leaf f → ks ≠ [] → residual ≠ [])
    (rounds rp : Nat) (hr : ks.length ≤ rounds) (toks : List Token) :
    tokenLoop c (some t) rounds ⟨rp, body ++ residual⟩ toks = .ok (toks ++ ks, ⟨rp + body.length, residual⟩) := by
  induction ks generalizing body rounds rp toks with
  | nil =>
    obtain rfl : body = [] := hc
    cases rounds with
    | zero => simp [tokenLoop]
    | succ n => simp [tokenLoop, Reader.remaining, Nat.not_lt.2 hres]
  | cons k ks ih =>
    obtain ⟨code, rest, h1, h2, h3, rfl⟩ := hc
    cases rounds with
    | zero => exact absurd hr (by simp)
    | succ n =>
      have hlt : c.lengthBits < Reader.remaining ⟨rp, code ++ uN c.lengthBits k.payload ++ rest ++ residual⟩ := by
        simp only [Reader.remaining, List.length_append, length_uN]
        rcases code with _ | ⟨b, code⟩
        · have := List.length_pos_iff.2 (hleaf _ (follow_nil h1) (by simp))
          omega
        · simp only [List.length_cons]
          omega
      simp only [tokenLoop]
      rw [if_pos hlt, List.append_assoc, decodeToken_coded h1 h2]
      simp only
      rw [ih h3 (fun f hf hne => hleaf f hf (by simp)) n _ (by simpa using hr)]
      simp [Nat.add_assoc]

/-- The loop goes over coded tokens while more than `LENGTH_BITS` bits follow them. -/
theorem tokenLoop_front {c : Cfg} {t : Tree} {ks : List Token} {body more : Bits} (hc : CodedAs c t ks body)
    (hmore : c.lengthBits < more.length) (rounds rp : Nat) (toks : List Token) :
    tokenLoop c (some t) (rounds + ks.length) ⟨rp, body ++ more⟩ toks =
      tokenLoop c (some t) rounds ⟨rp + body.length, more⟩ (toks ++ ks) := by
  induction ks generalizing body rp toks with
  | nil =>
    obtain rfl : body = [] := hc
    simp
  | cons k ks ih =>
    obtain ⟨code, rest, h1, h2, h3, rfl⟩ := hc
    have hlt : c.lengthBits < Reader.remaining ⟨rp, code ++ uN c.lengthBits k.payload ++ rest ++ more⟩ := by
      simp only [Reader.remaining, List.length_append, length_uN]
      omega
    rw [List.length_cons, ← Nat.add_assoc]
    simp only [tokenLoop]
    rw [if_pos hlt, List.append_assoc, decodeToken_coded h1 h2]
    simp only
    rw [ih h3]
    simp [Nat.add_assoc]

/-- What a token loop that ends has read: a coded token list, and at most `LENGTH_BITS` bits are left (R157). -/
theorem tokenLoop_ok {c : Cfg} {tree : CodeTree} (hL : 1 ≤ c.lengthBits) {rounds : Nat} {r r' : Reader}
    {toks toks' : List Token} (h : tokenLoop c tree rounds r toks = .ok (toks', r')) (hr : r.remaining ≤ rounds) :
    ∃ ks body, toks' = toks ++ ks ∧ CodedUnder c tree ks body ∧ r.unread = body ++ r'.unread ∧
      r'.rp = r.rp + body.length ∧ r'.remaining ≤ c.lengthBits := by
  have nil : CodedUnder c tree [] [] := by cases tree <;> simp [CodedUnder, CodedAs]
  induction rounds generalizing r toks with
  | zero =>
    obtain ⟨rfl, rfl⟩ := Prod.mk.inj (Except.ok.inj h)
    exact ⟨[], [], by simp, nil, rfl, rfl, by omega⟩
  | succ n ih =>
    simp only [tokenLoop] at h
    by_cases hlt : c.lengthBits < r.remaining
    · rw [if_pos hlt] at h
      rcases hd : decodeToken c tree r with e | ⟨k, r1⟩
      · simp [hd] at h
      · simp only [hd] at h
        obtain ⟨t, code, rfl, g1, g2, g3, g4⟩ := decodeToken_ok hd
        have hlen : r1.remaining + c.lengthBits ≤ r.remaining := by
          simp only [Reader.remaining, g3, List.length_append, length_uN]
          omega
        obtain ⟨ks, body, e1, e2, e3, e4, e5⟩ := ih h (by omega)
        refine ⟨k :: ks, code ++ uN c.lengthBits k.payload ++ body, by simp [e1], ⟨code, body, g1, g2, e2, rfl⟩, ?_, ?_, e5⟩
        · rw [g3, e3]
          simp
        · rw [e4, g4]
          simp [Nat.add_assoc]
    · rw [if_neg hlt] at h
      obtain ⟨rfl, rfl⟩ := Prod.mk.inj (Except.ok.inj h)
      exact ⟨[], [], by simp, nil, rfl, rfl, by omega⟩

/-- The kinds a token loop can fail in (R159, R160, R161). -/
theorem tokenLoop_error {c : Cfg} {tree : CodeTree} {rounds : Nat} {r : Reader} {toks : List Token} {e : ErrKind}
    (h : tokenLoop c tree rounds r toks = .error e) : e = .malformedHeader ∨ e = .truncatedStream := by
  induction rounds generalizing r toks with
  | zero => exact absurd h (by simp [tokenLoop])
  | succ n ih =>
    simp only [tokenLoop] at h
    by_cases hlt : c.lengthBits < r.remaining
    · rw [if_pos hlt] at h
      rcases hd : decodeToken c tree r with e' | ⟨k, r1⟩
      · simp only [hd, Except.error.injEq] at h
        rcases decodeToken_error hd with ⟨-, h1⟩ | ⟨-, h1⟩
        · exact .inl (h ▸ h1)
        · exact .inr (h ▸ h1)
      · simp only [hd] at h
        exact ih h
    · rw [if_neg hlt] at h
      exact absurd h (by simp)

/-- A copy fails in one kind only: the byte it reads always exists (42_tokenstream.md R113; 20_memory.md R41). -/
theorem Out.copy_error {d l : Nat} {o : Out} {s : Stop} (h : Out.copy d l o = .error s) : s = .raise .decodeUnderrun := by
  induction l generalizing o with
  | zero => exact absurd h (by simp [Out.copy])
  | succ l ih =>
    by_cases hd : d = 0 ∨ o.cur < d
    · rw [Out.copy_underrun hd] at h
      exact (Except.error.inj h).symm
    · rw [Out.copy_step (by omega) (by omega)] at h
      exact ih h

/-- A replay raises DecodeUnderrunError or refuses a literal, and nothing else (42_tokenstream.md R110, R111). -/
theorem replay_error {ts : List Token} {o : Out} {s : Stop} (h : replay ts o = .error s) :
    s = .raise .decodeUnderrun ∨ ∃ t ∈ ts, t.flag = 0 ∧ 255 < t.payload ∧ s = .refuse (.literalTooWide t.payload) := by
  induction ts generalizing o with
  | nil => exact absurd h (by simp [replay])
  | cons t ts ih =>
    simp only [replay] at h
    rcases ht : o.token t with s' | o'
    · simp only [ht, Except.error.injEq] at h
      subst h
      simp only [Out.token] at ht
      split at ht
      · rename_i hf
        simp only [Out.lit] at ht
        split at ht
        · exact absurd ht (by simp)
        · exact .inr ⟨t, List.mem_cons_self, hf, by omega, (Except.error.inj ht).symm⟩
      · exact .inl (Out.copy_error ht)
    · simp only [ht] at h
      exact (ih h).imp_right fun ⟨u, hu, h'⟩ => ⟨u, List.mem_cons_of_mem _ hu, h'⟩

/-- A replay that ends leaves a canonical buffer. -/
theorem Out.copy_ok {d l : Nat} {o o' : Out} (ho : o.Ok) (h : Out.copy d l o = .ok o') : o'.Ok := by
  induction l generalizing o with
  | zero => exact Except.ok.inj h ▸ ho
  | succ l ih =>
    by_cases hd : d = 0 ∨ o.cur < d
    · rw [Out.copy_underrun hd] at h
      exact absurd h (by simp)
    · rw [Out.copy_step (by omega) (by omega)] at h
      exact ih (Out.ok_append ho _) h

theorem Out.lit_ok {p : Nat} {o o' : Out} (ho : o.Ok) (h : o.lit p = .ok o') : o'.Ok := by
  simp only [Out.lit] at h
  split at h
  · exact Except.ok.inj h ▸ Out.ok_append ho _
  · exact absurd h (by simp)

theorem replay_ok {ts : List Token} {o o' : Out} (ho : o.Ok) (h : replay ts o = .ok o') : o'.Ok := by
  induction ts generalizing o with
  | nil => exact Except.ok.inj h ▸ ho
  | cons t ts ih =>
    simp only [replay] at h
    rcases ht : o.token t with s | o1
    · simp [ht] at h
    · simp only [ht] at h
      refine ih ?_ h
      simp only [Out.token] at ht
      split at ht
      · exact Out.lit_ok ho ht
      · exact Out.copy_ok ho ht

/-! ## Coding tokens -/

/-- Tokens whose flags the tree holds and whose payloads fit are coded (R151). -/
theorem codeTokens_spec {c : Cfg} {t : Tree} {ks : List Token} (h : ∀ k ∈ ks, k.flag ∈ flagsOf t ∧ k.payload < c.lengthSize) :
    ∃ body, codeTokens c (some t) ks = .ok body ∧ CodedAs c t ks body := by
  induction ks with
  | nil => exact ⟨[], rfl, rfl⟩
  | cons k ks ih =>
    obtain ⟨rest, h1, h2⟩ := ih fun u hu => h u (List.mem_cons_of_mem _ hu)
    obtain ⟨hf, hp⟩ := h k List.mem_cons_self
    rcases hc : pathOf k.flag t with _ | code
    · exact absurd hf (pathOf_eq_none.1 hc)
    · refine ⟨code ++ uN c.lengthBits k.payload ++ rest, ?_, code, rest, follow_pathOf hc, hp, h2, rfl⟩
      simp [codeTokens, tokenBits, codeOf, hc, h1]

/-- In a single-leaf tree every token is `LENGTH_BITS` bits (30_encoding.md R80). -/
theorem length_codedAs_leaf {c : Cfg} {f : Nat} {ks : List Token} {body : Bits} (h : CodedAs c (.leaf f) ks body) :
    body.length = ks.length * c.lengthBits := by
  induction ks generalizing body with
  | nil => obtain rfl : body = [] := h; simp
  | cons k ks ih =>
    obtain ⟨code, rest, h1, -, h3, rfl⟩ := h
    rcases code with _ | ⟨b, code⟩
    · simp only [List.nil_append, List.length_append, length_uN, ih h3, List.length_cons, Nat.add_mul]
      omega
    · exact absurd h1 (by simp [follow])

/-- The number of structure bits of a tree over distinct flags that fit is far below `2^64` (44_treecodec.md R141). -/
theorem headerFits_of_distinct {c : Cfg} (hc : c.wf = true) {t : CodeTree} (hf : Fits c t) (hn : (codeTreeFlags t).Nodup) :
    HeaderFits c t := by
  refine ⟨hf, ?_⟩
  cases t with
  | none => exact Nat.two_pow_pos _
  | some t =>
    have hlen := serTree_length t
    have hcard : (flagsOf t).length ≤ c.windowSize := by
      have := (List.subperm_of_subset hn (l₂ := List.range c.windowSize) fun f h => List.mem_range.2 (hf f h)).length_le
      simpa [codeTreeFlags] using this
    have hw := (wf_windowBits hc).2
    have hpow : c.windowSize ≤ 2 ^ 62 := Nat.pow_le_pow_right (by decide) hw
    simp only [ser, structSizeBits]
    have e : (2 : Nat) ^ 64 = 2 ^ 62 * 4 := by norm_num
    omega

/-- Every token of a scan fits its fields (42_tokenstream.md R117). -/
theorem ScansTo.tokens_fit {c : Cfg} {text : List Byte} {p : Nat} {ts : List Token} (h : ScansTo c text p ts)
    (hc : c.wf = true) : ∀ t ∈ ts, TokenFits c t := by
  intro t ht
  have hw : 0 < c.windowSize := Nat.two_pow_pos _
  have hl : 2 ^ 8 ≤ c.lengthSize := Nat.pow_le_pow_right (by decide) (wf_lengthBits hc)
  rcases h.token_bounds t ht with ⟨h1, h2⟩ | ⟨-, h1, -, h2⟩
  · exact ⟨by omega, by omega⟩
  · simp only [Cfg.maxDist, Cfg.maxLen] at h1 h2
    exact ⟨by omega, by omega⟩

/-- Every token coded under a tree whose flags fit has fields that fit (45_container.md R155). -/
theorem CodedUnder.tokens_fit {c : Cfg} {t : CodeTree} {ks : List Token} {body : Bits} (h : CodedUnder c t ks body)
    (hf : Fits c t) : ∀ k ∈ ks, TokenFits c k := by
  cases t with
  | none => rw [h.1]; exact fun k hk => absurd hk List.not_mem_nil
  | some t =>
    have h : CodedAs c t ks body := h
    induction ks generalizing body with
    | nil => exact fun k hk => absurd hk List.not_mem_nil
    | cons k ks ih =>
      obtain ⟨code, rest, h1, h2, h3, -⟩ := h
      intro u hu
      rcases List.mem_cons.1 hu with rfl | hu
      · exact ⟨hf _ (mem_of_follow h1), h2⟩
      · exact ih h3 h3 u hu

/-- Everything steps 2 to 5 of R150 do with the tokens of a scan: they end, with the container's bits in `W` and its
bytes in the output. -/
theorem encodeScan_spec {s : State} {a : Scan} (hc : s.cfg.wf = true) (hs : ScansTo s.cfg s.text 0 a.toks) :
    ∃ body, CodedUnder s.cfg (buildTree (freqOf a.toks)) a.toks body ∧
      HeaderFits s.cfg (buildTree (freqOf a.toks)) ∧
      encodeScan s a = .ok (({ s.withScan a with
        freq := freqOf a.toks
        tree := buildTree (freqOf a.toks)
        sb := (ser (buildTree (freqOf a.toks))).1
        lv := (ser (buildTree (freqOf a.toks))).2
        w := padBits (treeHeader s.cfg (buildTree (freqOf a.toks)) ++ body)
        flag := lastFlag a.toks
        code := lastCode (buildTree (freqOf a.toks)) a.toks } : State).withOut
          (packOut (padBits (treeHeader s.cfg (buildTree (freqOf a.toks)) ++ body)))).done := by
  obtain ⟨hn, hmem⟩ := buildTree_flags a.toks
  have htoks := hs.tokens_fit hc
  have hfit : Fits s.cfg (buildTree (freqOf a.toks)) := by
    intro f hf
    obtain ⟨t, ht, rfl⟩ := (hmem f).1 hf
    exact (htoks t ht).1
  have hcoded : ∃ body, codeTokens s.cfg (buildTree (freqOf a.toks)) a.toks = .ok body ∧
      CodedUnder s.cfg (buildTree (freqOf a.toks)) a.toks body := by
    rcases hb : buildTree (freqOf a.toks) with _ | t
    · have hnil : a.toks = [] := by
        rcases hk : a.toks with _ | ⟨k, ks⟩
        · rfl
        · have := (hmem k.flag).2 ⟨k, by rw [hk]; exact List.mem_cons_self, rfl⟩
          rw [hb] at this
          exact absurd this List.not_mem_nil
      exact ⟨[], by rw [hnil]; rfl, by rw [hnil]; exact ⟨rfl, rfl⟩⟩
    · obtain ⟨body, h1, h2⟩ := codeTokens_spec (c := s.cfg) (t := t) (ks := a.toks) fun k hk => by
        refine ⟨?_, (htoks k hk).2⟩
        have := (hmem k.flag).2 ⟨k, hk, rfl⟩
        rwa [hb] at this
      exact ⟨body, h1, h2⟩
  obtain ⟨body, h1, h2⟩ := hcoded
  refine ⟨body, h2, headerFits_of_distinct hc hfit hn, ?_⟩
  simp only [encodeScan, serialize_of_fits hfit, h1]
  rfl

/-- A coded token takes at least one bit. -/
theorem length_codedAs {c : Cfg} {t : Tree} {ks : List Token} {body : Bits} (hL : 1 ≤ c.lengthBits)
    (h : CodedAs c t ks body) : ks.length ≤ body.length := by
  induction ks generalizing body with
  | nil => simp
  | cons k ks ih =>
    obtain ⟨code, rest, -, -, h, rfl⟩ := h
    have := ih h
    simp only [List.length_cons, List.length_append, length_uN]
    omega

end Sys2Proof.Machine
end

