-- ==== Sys2Proof/Laws/PerInstr.lean ====
section
/-! SUPPORT. Statements made for every instruction, one lemma per constructor. -/

namespace Sys2Proof.Laws.EncodeShape

/-- The container form an instruction is; none for a command (30_encoding.md R81, R83, R84). -/
def formOf : Instr → Option Form
  | .find | .tokenize | .detokenize | .build | .getcode | .serialize | .header | .deserialize | .encode | .decode => none
  | .lit _ | .copy _ _ => some .token
  | .internal | .leaf _ => some .node
  | .structSize _ => some .structSize
  | .pad => some .pad

/-- How many structure bits and main-stream bits a form takes (30_encoding.md R61, R65, R67, R70). -/
def Widths (c : Cfg) : Form → Nat → Nat → Prop
  | .token, sbits, main => sbits = 0 ∧ c.lengthBits ≤ main
  | .node, sbits, main => sbits = 1 ∧ (main = 0 ∨ main = c.windowBits)
  | .structSize, sbits, main => sbits = 0 ∧ main = structSizeBits
  | .pad, sbits, main => sbits = 0 ∧ main < 8

/-- An instruction encodes in its own format: a command as the code that decodes to it, a form with the widths of its
format. -/
def Statement (i : Instr) : Prop :=
  ∀ (c : Cfg) (tree : CodeTree) (n : Nat),
    match formOf i with
    | none => ∃ code, encode c tree n i = some (.command code) ∧ decodeCommand code = .ok i
    | some f => ∀ e, encode c tree n i = some e → ∃ sb main, e = .container f sb main ∧ Widths c f sb.length main.length

theorem find : Statement .find := fun _ _ _ => ⟨1, rfl, rfl⟩
theorem tokenize : Statement .tokenize := fun _ _ _ => ⟨2, rfl, rfl⟩
theorem detokenize : Statement .detokenize := fun _ _ _ => ⟨3, rfl, rfl⟩
theorem build : Statement .build := fun _ _ _ => ⟨4, rfl, rfl⟩
theorem getcode : Statement .getcode := fun _ _ _ => ⟨5, rfl, rfl⟩
theorem serialize : Statement .serialize := fun _ _ _ => ⟨6, rfl, rfl⟩
theorem header : Statement .header := fun _ _ _ => ⟨7, rfl, rfl⟩
theorem deserialize : Statement .deserialize := fun _ _ _ => ⟨8, rfl, rfl⟩
theorem encode : Statement .encode := fun _ _ _ => ⟨9, rfl, rfl⟩
theorem decode : Statement .decode := fun _ _ _ => ⟨10, rfl, rfl⟩

/-- A token's bits hold at least its payload field. -/
theorem length_tokenBits {c : Cfg} {tree : CodeTree} {t : Token} {b : Bits} (h : tokenBits c tree t = some b) :
    c.lengthBits ≤ b.length := by
  unfold tokenBits at h
  split at h
  · cases h
  · rw [← Option.some.inj h, List.length_append, length_uN]
    exact Nat.le_add_left _ _

/-- Both token forms encode as their token's bits. -/
theorem token_shape {c : Cfg} {tree : CodeTree} {t : Token} {e : Encoding}
    (h : (tokenBits c tree t).map (Encoding.container .token []) = some e) :
    ∃ sb main, e = .container .token sb main ∧ Widths c .token sb.length main.length := by
  obtain ⟨b, hb, rfl⟩ := Option.map_eq_some_iff.1 h
  exact ⟨[], b, rfl, rfl, length_tokenBits hb⟩

theorem lit (p : Nat) : Statement (.lit p) := fun _ _ _ _ h => token_shape h
theorem copy (d l : Nat) : Statement (.copy d l) := fun _ _ _ _ h => token_shape h
theorem internal : Statement .internal := fun _ _ _ _ h => ⟨[true], [], (Option.some.inj h).symm, rfl, .inl rfl⟩
theorem leaf (v : Nat) : Statement (.leaf v) := fun _ _ _ _ h =>
  ⟨[false], _, (Option.some.inj h).symm, rfl, .inr (length_uN _ _)⟩
theorem structSize (s : Nat) : Statement (.structSize s) := fun _ _ _ _ h =>
  ⟨[], _, (Option.some.inj h).symm, rfl, length_uN _ _⟩
theorem pad : Statement .pad := fun _ _ n _ h =>
  ⟨[], _, (Option.some.inj h).symm, rfl, by rw [List.length_replicate]; exact padLength_lt n⟩

end Sys2Proof.Laws.EncodeShape
end

