-- ==== Sys2Proof/Laws/State.lean ====
section
/-! SUPPORT. One lemma per field per state update: what each named update of the state does to each field. -/

namespace Sys2Proof.Machine

section Done
variable (s : State)
@[simp] theorem State.done_ibuf : (s.done).ibuf = s.ibuf := rfl
@[simp] theorem State.done_ilen : (s.done).ilen = s.ilen := rfl
@[simp] theorem State.done_obuf : (s.done).obuf = s.obuf := rfl
@[simp] theorem State.done_cur : (s.done).cur = s.cur := rfl
@[simp] theorem State.done_pos : (s.done).pos = s.pos := rfl
@[simp] theorem State.done_dist : (s.done).dist = s.dist := rfl
@[simp] theorem State.done_len : (s.done).len = s.len := rfl
@[simp] theorem State.done_tok : (s.done).tok = s.tok := rfl
@[simp] theorem State.done_freq : (s.done).freq = s.freq := rfl
@[simp] theorem State.done_tree : (s.done).tree = s.tree := rfl
@[simp] theorem State.done_flag : (s.done).flag = s.flag := rfl
@[simp] theorem State.done_code : (s.done).code = s.code := rfl
@[simp] theorem State.done_sb : (s.done).sb = s.sb := rfl
@[simp] theorem State.done_lv : (s.done).lv = s.lv := rfl
@[simp] theorem State.done_w : (s.done).w = s.w := rfl
@[simp] theorem State.done_rp : (s.done).rp = s.rp := rfl
@[simp] theorem State.done_cfg : (s.done).cfg = s.cfg := rfl
@[simp] theorem State.done_status : (s.done).status = .done := rfl
@[simp] theorem State.done_err : (s.done).err = none := rfl
@[simp] theorem State.done_si : (s.done).si = s.si := rfl
@[simp] theorem State.done_events : (s.done).events = s.events := rfl
@[simp] theorem State.done_failures : (s.done).failures = s.failures := rfl
@[simp] theorem State.done_tokens : (s.done).tokens = s.tokens := rfl
@[simp] theorem State.done_flagOperand : (s.done).flagOperand = s.flagOperand := rfl
end Done

section Failed
variable (s : State) (e : ErrKind)
@[simp] theorem State.failed_ibuf : (s.failed e).ibuf = s.ibuf := rfl
@[simp] theorem State.failed_ilen : (s.failed e).ilen = s.ilen := rfl
@[simp] theorem State.failed_obuf : (s.failed e).obuf = s.obuf := rfl
@[simp] theorem State.failed_cur : (s.failed e).cur = s.cur := rfl
@[simp] theorem State.failed_pos : (s.failed e).pos = s.pos := rfl
@[simp] theorem State.failed_dist : (s.failed e).dist = s.dist := rfl
@[simp] theorem State.failed_len : (s.failed e).len = s.len := rfl
@[simp] theorem State.failed_tok : (s.failed e).tok = s.tok := rfl
@[simp] theorem State.failed_freq : (s.failed e).freq = s.freq := rfl
@[simp] theorem State.failed_tree : (s.failed e).tree = s.tree := rfl
@[simp] theorem State.failed_flag : (s.failed e).flag = s.flag := rfl
@[simp] theorem State.failed_code : (s.failed e).code = s.code := rfl
@[simp] theorem State.failed_sb : (s.failed e).sb = s.sb := rfl
@[simp] theorem State.failed_lv : (s.failed e).lv = s.lv := rfl
@[simp] theorem State.failed_w : (s.failed e).w = s.w := rfl
@[simp] theorem State.failed_rp : (s.failed e).rp = s.rp := rfl
@[simp] theorem State.failed_cfg : (s.failed e).cfg = s.cfg := rfl
@[simp] theorem State.failed_status : (s.failed e).status = .failed := rfl
@[simp] theorem State.failed_err : (s.failed e).err = some e := rfl
@[simp] theorem State.failed_si : (s.failed e).si = s.si := rfl
@[simp] theorem State.failed_events : (s.failed e).events = s.events := rfl
@[simp] theorem State.failed_failures : (s.failed e).failures = s.failures := rfl
@[simp] theorem State.failed_tokens : (s.failed e).tokens = s.tokens := rfl
@[simp] theorem State.failed_flagOperand : (s.failed e).flagOperand = s.flagOperand := rfl
end Failed

section Without
variable (s : State) (o : Out)
@[simp] theorem State.withOut_ibuf : (s.withOut o).ibuf = s.ibuf := rfl
@[simp] theorem State.withOut_ilen : (s.withOut o).ilen = s.ilen := rfl
@[simp] theorem State.withOut_obuf : (s.withOut o).obuf = o.mem := rfl
@[simp] theorem State.withOut_cur : (s.withOut o).cur = o.cur := rfl
@[simp] theorem State.withOut_pos : (s.withOut o).pos = s.pos := rfl
@[simp] theorem State.withOut_dist : (s.withOut o).dist = s.dist := rfl
@[simp] theorem State.withOut_len : (s.withOut o).len = s.len := rfl
@[simp] theorem State.withOut_tok : (s.withOut o).tok = s.tok := rfl
@[simp] theorem State.withOut_freq : (s.withOut o).freq = s.freq := rfl
@[simp] theorem State.withOut_tree : (s.withOut o).tree = s.tree := rfl
@[simp] theorem State.withOut_flag : (s.withOut o).flag = s.flag := rfl
@[simp] theorem State.withOut_code : (s.withOut o).code = s.code := rfl
@[simp] theorem State.withOut_sb : (s.withOut o).sb = s.sb := rfl
@[simp] theorem State.withOut_lv : (s.withOut o).lv = s.lv := rfl
@[simp] theorem State.withOut_w : (s.withOut o).w = s.w := rfl
@[simp] theorem State.withOut_rp : (s.withOut o).rp = s.rp := rfl
@[simp] theorem State.withOut_cfg : (s.withOut o).cfg = s.cfg := rfl
@[simp] theorem State.withOut_status : (s.withOut o).status = s.status := rfl
@[simp] theorem State.withOut_err : (s.withOut o).err = s.err := rfl
@[simp] theorem State.withOut_si : (s.withOut o).si = s.si := rfl
@[simp] theorem State.withOut_events : (s.withOut o).events = s.events := rfl
@[simp] theorem State.withOut_failures : (s.withOut o).failures = s.failures := rfl
@[simp] theorem State.withOut_tokens : (s.withOut o).tokens = s.tokens := rfl
@[simp] theorem State.withOut_flagOperand : (s.withOut o).flagOperand = s.flagOperand := rfl
end Without

section Withscan
variable (s : State) (a : Scan)
@[simp] theorem State.withScan_ibuf : (s.withScan a).ibuf = s.ibuf := rfl
@[simp] theorem State.withScan_ilen : (s.withScan a).ilen = s.ilen := rfl
@[simp] theorem State.withScan_obuf : (s.withScan a).obuf = s.obuf := rfl
@[simp] theorem State.withScan_cur : (s.withScan a).cur = s.cur := rfl
@[simp] theorem State.withScan_pos : (s.withScan a).pos = a.pos := rfl
@[simp] theorem State.withScan_dist : (s.withScan a).dist = a.dist := rfl
@[simp] theorem State.withScan_len : (s.withScan a).len = a.len := rfl
@[simp] theorem State.withScan_tok : (s.withScan a).tok = a.toks := rfl
@[simp] theorem State.withScan_freq : (s.withScan a).freq = s.freq := rfl
@[simp] theorem State.withScan_tree : (s.withScan a).tree = s.tree := rfl
@[simp] theorem State.withScan_flag : (s.withScan a).flag = s.flag := rfl
@[simp] theorem State.withScan_code : (s.withScan a).code = s.code := rfl
@[simp] theorem State.withScan_sb : (s.withScan a).sb = s.sb := rfl
@[simp] theorem State.withScan_lv : (s.withScan a).lv = s.lv := rfl
@[simp] theorem State.withScan_w : (s.withScan a).w = s.w := rfl
@[simp] theorem State.withScan_rp : (s.withScan a).rp = s.rp := rfl
@[simp] theorem State.withScan_cfg : (s.withScan a).cfg = s.cfg := rfl
@[simp] theorem State.withScan_status : (s.withScan a).status = s.status := rfl
@[simp] theorem State.withScan_err : (s.withScan a).err = s.err := rfl
@[simp] theorem State.withScan_si : (s.withScan a).si = s.si := rfl
@[simp] theorem State.withScan_events : (s.withScan a).events = s.events := rfl
@[simp] theorem State.withScan_failures : (s.withScan a).failures = s.failures := rfl
end Withscan

section Withparsed
variable (s : State) (p : Parsed)
@[simp] theorem State.withParsed_ibuf : (s.withParsed p).ibuf = s.ibuf := rfl
@[simp] theorem State.withParsed_ilen : (s.withParsed p).ilen = s.ilen := rfl
@[simp] theorem State.withParsed_obuf : (s.withParsed p).obuf = s.obuf := rfl
@[simp] theorem State.withParsed_cur : (s.withParsed p).cur = s.cur := rfl
@[simp] theorem State.withParsed_pos : (s.withParsed p).pos = s.pos := rfl
@[simp] theorem State.withParsed_dist : (s.withParsed p).dist = s.dist := rfl
@[simp] theorem State.withParsed_len : (s.withParsed p).len = s.len := rfl
@[simp] theorem State.withParsed_tok : (s.withParsed p).tok = s.tok := rfl
@[simp] theorem State.withParsed_freq : (s.withParsed p).freq = s.freq := rfl
@[simp] theorem State.withParsed_tree : (s.withParsed p).tree = p.tree := rfl
@[simp] theorem State.withParsed_flag : (s.withParsed p).flag = s.flag := rfl
@[simp] theorem State.withParsed_code : (s.withParsed p).code = s.code := rfl
@[simp] theorem State.withParsed_sb : (s.withParsed p).sb = p.sb := rfl
@[simp] theorem State.withParsed_lv : (s.withParsed p).lv = p.lv := rfl
@[simp] theorem State.withParsed_w : (s.withParsed p).w = s.w := rfl
@[simp] theorem State.withParsed_rp : (s.withParsed p).rp = p.rd.rp := rfl
@[simp] theorem State.withParsed_cfg : (s.withParsed p).cfg = s.cfg := rfl
@[simp] theorem State.withParsed_status : (s.withParsed p).status = s.status := rfl
@[simp] theorem State.withParsed_err : (s.withParsed p).err = s.err := rfl
@[simp] theorem State.withParsed_si : (s.withParsed p).si = p.si := rfl
@[simp] theorem State.withParsed_events : (s.withParsed p).events = s.events := rfl
@[simp] theorem State.withParsed_failures : (s.withParsed p).failures = s.failures := rfl
@[simp] theorem State.withParsed_tokens : (s.withParsed p).tokens = s.tokens := rfl
@[simp] theorem State.withParsed_flagOperand : (s.withParsed p).flagOperand = s.flagOperand := rfl
end Withparsed

section Withcursor
variable (s : State) (c : Cursor)
@[simp] theorem State.withCursor_ibuf : (s.withCursor c).ibuf = s.ibuf := rfl
@[simp] theorem State.withCursor_ilen : (s.withCursor c).ilen = s.ilen := rfl
@[simp] theorem State.withCursor_obuf : (s.withCursor c).obuf = s.obuf := rfl
@[simp] theorem State.withCursor_cur : (s.withCursor c).cur = s.cur := rfl
@[simp] theorem State.withCursor_pos : (s.withCursor c).pos = s.pos := rfl
@[simp] theorem State.withCursor_dist : (s.withCursor c).dist = s.dist := rfl
@[simp] theorem State.withCursor_len : (s.withCursor c).len = s.len := rfl
@[simp] theorem State.withCursor_tok : (s.withCursor c).tok = s.tok := rfl
@[simp] theorem State.withCursor_freq : (s.withCursor c).freq = s.freq := rfl
@[simp] theorem State.withCursor_tree : (s.withCursor c).tree = s.tree := rfl
@[simp] theorem State.withCursor_flag : (s.withCursor c).flag = s.flag := rfl
@[simp] theorem State.withCursor_code : (s.withCursor c).code = s.code := rfl
@[simp] theorem State.withCursor_sb : (s.withCursor c).sb = s.sb := rfl
@[simp] theorem State.withCursor_lv : (s.withCursor c).lv = c.lv := rfl
@[simp] theorem State.withCursor_w : (s.withCursor c).w = s.w := rfl
@[simp] theorem State.withCursor_rp : (s.withCursor c).rp = c.rd.rp := rfl
@[simp] theorem State.withCursor_cfg : (s.withCursor c).cfg = s.cfg := rfl
@[simp] theorem State.withCursor_status : (s.withCursor c).status = s.status := rfl
@[simp] theorem State.withCursor_err : (s.withCursor c).err = s.err := rfl
@[simp] theorem State.withCursor_si : (s.withCursor c).si = s.sb.length - c.sb.length := rfl
@[simp] theorem State.withCursor_events : (s.withCursor c).events = s.events := rfl
@[simp] theorem State.withCursor_failures : (s.withCursor c).failures = s.failures := rfl
@[simp] theorem State.withCursor_tokens : (s.withCursor c).tokens = s.tokens := rfl
@[simp] theorem State.withCursor_flagOperand : (s.withCursor c).flagOperand = s.flagOperand := rfl
end Withcursor

section Views
variable (s : State)
@[simp] theorem State.done_text : s.done.text = s.text := rfl
@[simp] theorem State.done_out : s.done.out = s.out := rfl
@[simp] theorem State.withOut_out (o : Out) : (s.withOut o).out = o := rfl
@[simp] theorem State.withOut_text (o : Out) : (s.withOut o).text = s.text := rfl
@[simp] theorem State.reader_rp : s.reader.rp = s.rp := rfl
@[simp] theorem State.reader_unread : s.reader.unread = s.inputBits.drop s.rp := rfl
theorem State.done_eq_completed : s.done = { s with status := .done, err := none } := rfl
end Views

/-! ## Raising an error: the input, the configuration and the pending moves stay (60_exceptions.md R178d) -/

section Raise
variable (u : Undefined) (s : State) (es : List Elem) (e : ErrKind)
@[simp] theorem Elem.forget_ibuf (x : Elem) : (x.forget u s).ibuf = s.ibuf := by cases x <;> rfl
@[simp] theorem Elem.forget_ilen (x : Elem) : (x.forget u s).ilen = s.ilen := by cases x <;> rfl
@[simp] theorem Elem.forget_cfg (x : Elem) : (x.forget u s).cfg = s.cfg := by cases x <;> rfl
@[simp] theorem Elem.forget_events (x : Elem) : (x.forget u s).events = s.events := by cases x <;> rfl
@[simp] theorem Elem.forget_status (x : Elem) : (x.forget u s).status = s.status := by cases x <;> rfl
@[simp] theorem Elem.forget_err (x : Elem) : (x.forget u s).err = s.err := by cases x <;> rfl
@[simp] theorem Elem.forget_failures (x : Elem) : (x.forget u s).failures = s.failures := by cases x <;> rfl
theorem foldl_forget_ibuf : (es.foldl (Elem.forget u) s).ibuf = s.ibuf := by
  induction es generalizing s with
  | nil => rfl
  | cons x xs ih => rw [List.foldl_cons, ih, Elem.forget_ibuf]
theorem foldl_forget_ilen : (es.foldl (Elem.forget u) s).ilen = s.ilen := by
  induction es generalizing s with
  | nil => rfl
  | cons x xs ih => rw [List.foldl_cons, ih, Elem.forget_ilen]
theorem foldl_forget_cfg : (es.foldl (Elem.forget u) s).cfg = s.cfg := by
  induction es generalizing s with
  | nil => rfl
  | cons x xs ih => rw [List.foldl_cons, ih, Elem.forget_cfg]
theorem foldl_forget_events : (es.foldl (Elem.forget u) s).events = s.events := by
  induction es generalizing s with
  | nil => rfl
  | cons x xs ih => rw [List.foldl_cons, ih, Elem.forget_events]
theorem foldl_forget_status : (es.foldl (Elem.forget u) s).status = s.status := by
  induction es generalizing s with
  | nil => rfl
  | cons x xs ih => rw [List.foldl_cons, ih, Elem.forget_status]
theorem foldl_forget_err : (es.foldl (Elem.forget u) s).err = s.err := by
  induction es generalizing s with
  | nil => rfl
  | cons x xs ih => rw [List.foldl_cons, ih, Elem.forget_err]
theorem foldl_forget_failures : (es.foldl (Elem.forget u) s).failures = s.failures := by
  induction es generalizing s with
  | nil => rfl
  | cons x xs ih => rw [List.foldl_cons, ih, Elem.forget_failures]
@[simp] theorem State.raise_ibuf : (s.raise es e).ibuf = s.ibuf := foldl_forget_ibuf _ s es
@[simp] theorem State.raise_ilen : (s.raise es e).ilen = s.ilen := foldl_forget_ilen _ s es
@[simp] theorem State.raise_cfg : (s.raise es e).cfg = s.cfg := foldl_forget_cfg _ s es
@[simp] theorem State.raise_events : (s.raise es e).events = s.events := foldl_forget_events _ s es
@[simp] theorem State.raise_status : (s.raise es e).status = .failed := rfl
@[simp] theorem State.raise_err : (s.raise es e).err = some e := rfl
@[simp] theorem State.raise_failures : (s.raise es e).failures = s.failures + 1 := rfl

/-! Raising leaves every element alone that is not among those named. -/
theorem foldl_forget_obuf (h : Elem.obuf ∉ es) : (es.foldl (Elem.forget u) s).obuf = s.obuf := by
  induction es generalizing s with
  | nil => rfl
  | cons x xs ih =>
    rw [List.foldl_cons, ih _ (fun hx => h (List.mem_cons_of_mem _ hx))]
    cases x <;> first | rfl | exact absurd List.mem_cons_self h
theorem State.raise_obuf (h : Elem.obuf ∉ es) : (s.raise es e).obuf = s.obuf := foldl_forget_obuf _ s es h
theorem foldl_forget_cur (h : Elem.obuf ∉ es) : (es.foldl (Elem.forget u) s).cur = s.cur := by
  induction es generalizing s with
  | nil => rfl
  | cons x xs ih =>
    rw [List.foldl_cons, ih _ (fun hx => h (List.mem_cons_of_mem _ hx))]
    cases x <;> first | rfl | exact absurd List.mem_cons_self h
theorem State.raise_cur (h : Elem.obuf ∉ es) : (s.raise es e).cur = s.cur := foldl_forget_cur _ s es h
theorem foldl_forget_tok (h : Elem.tok ∉ es) : (es.foldl (Elem.forget u) s).tok = s.tok := by
  induction es generalizing s with
  | nil => rfl
  | cons x xs ih =>
    rw [List.foldl_cons, ih _ (fun hx => h (List.mem_cons_of_mem _ hx))]
    cases x <;> first | rfl | exact absurd List.mem_cons_self h
theorem State.raise_tok (h : Elem.tok ∉ es) : (s.raise es e).tok = s.tok := foldl_forget_tok _ s es h
theorem foldl_forget_freq (h : Elem.freq ∉ es) : (es.foldl (Elem.forget u) s).freq = s.freq := by
  induction es generalizing s with
  | nil => rfl
  | cons x xs ih =>
    rw [List.foldl_cons, ih _ (fun hx => h (List.mem_cons_of_mem _ hx))]
    cases x <;> first | rfl | exact absurd List.mem_cons_self h
theorem State.raise_freq (h : Elem.freq ∉ es) : (s.raise es e).freq = s.freq := foldl_forget_freq _ s es h
theorem foldl_forget_tree (h : Elem.tree ∉ es) : (es.foldl (Elem.forget u) s).tree = s.tree := by
  induction es generalizing s with
  | nil => rfl
  | cons x xs ih =>
    rw [List.foldl_cons, ih _ (fun hx => h (List.mem_cons_of_mem _ hx))]
    cases x <;> first | rfl | exact absurd List.mem_cons_self h
theorem State.raise_tree (h : Elem.tree ∉ es) : (s.raise es e).tree = s.tree := foldl_forget_tree _ s es h
theorem foldl_forget_pos (h : Elem.pos ∉ es) : (es.foldl (Elem.forget u) s).pos = s.pos := by
  induction es generalizing s with
  | nil => rfl
  | cons x xs ih =>
    rw [List.foldl_cons, ih _ (fun hx => h (List.mem_cons_of_mem _ hx))]
    cases x <;> first | rfl | exact absurd List.mem_cons_self h
theorem State.raise_pos (h : Elem.pos ∉ es) : (s.raise es e).pos = s.pos := foldl_forget_pos _ s es h
theorem foldl_forget_dist (h : Elem.found ∉ es) : (es.foldl (Elem.forget u) s).dist = s.dist := by
  induction es generalizing s with
  | nil => rfl
  | cons x xs ih =>
    rw [List.foldl_cons, ih _ (fun hx => h (List.mem_cons_of_mem _ hx))]
    cases x <;> first | rfl | exact absurd List.mem_cons_self h
theorem State.raise_dist (h : Elem.found ∉ es) : (s.raise es e).dist = s.dist := foldl_forget_dist _ s es h
theorem foldl_forget_len (h : Elem.found ∉ es) : (es.foldl (Elem.forget u) s).len = s.len := by
  induction es generalizing s with
  | nil => rfl
  | cons x xs ih =>
    rw [List.foldl_cons, ih _ (fun hx => h (List.mem_cons_of_mem _ hx))]
    cases x <;> first | rfl | exact absurd List.mem_cons_self h
theorem State.raise_len (h : Elem.found ∉ es) : (s.raise es e).len = s.len := foldl_forget_len _ s es h
theorem foldl_forget_flag (h : Elem.flag ∉ es) : (es.foldl (Elem.forget u) s).flag = s.flag := by
  induction es generalizing s with
  | nil => rfl
  | cons x xs ih =>
    rw [List.foldl_cons, ih _ (fun hx => h (List.mem_cons_of_mem _ hx))]
    cases x <;> first | rfl | exact absurd List.mem_cons_self h
theorem State.raise_flag (h : Elem.flag ∉ es) : (s.raise es e).flag = s.flag := foldl_forget_flag _ s es h
theorem foldl_forget_code (h : Elem.code ∉ es) : (es.foldl (Elem.forget u) s).code = s.code := by
  induction es generalizing s with
  | nil => rfl
  | cons x xs ih =>
    rw [List.foldl_cons, ih _ (fun hx => h (List.mem_cons_of_mem _ hx))]
    cases x <;> first | rfl | exact absurd List.mem_cons_self h
theorem State.raise_code (h : Elem.code ∉ es) : (s.raise es e).code = s.code := foldl_forget_code _ s es h
theorem foldl_forget_sb (h : Elem.sb ∉ es) : (es.foldl (Elem.forget u) s).sb = s.sb := by
  induction es generalizing s with
  | nil => rfl
  | cons x xs ih =>
    rw [List.foldl_cons, ih _ (fun hx => h (List.mem_cons_of_mem _ hx))]
    cases x <;> first | rfl | exact absurd List.mem_cons_self h
theorem State.raise_sb (h : Elem.sb ∉ es) : (s.raise es e).sb = s.sb := foldl_forget_sb _ s es h
theorem foldl_forget_si (h : Elem.sb ∉ es) : (es.foldl (Elem.forget u) s).si = s.si := by
  induction es generalizing s with
  | nil => rfl
  | cons x xs ih =>
    rw [List.foldl_cons, ih _ (fun hx => h (List.mem_cons_of_mem _ hx))]
    cases x <;> first | rfl | exact absurd List.mem_cons_self h
theorem State.raise_si (h : Elem.sb ∉ es) : (s.raise es e).si = s.si := foldl_forget_si _ s es h
theorem foldl_forget_lv (h : Elem.lv ∉ es) : (es.foldl (Elem.forget u) s).lv = s.lv := by
  induction es generalizing s with
  | nil => rfl
  | cons x xs ih =>
    rw [List.foldl_cons, ih _ (fun hx => h (List.mem_cons_of_mem _ hx))]
    cases x <;> first | rfl | exact absurd List.mem_cons_self h
theorem State.raise_lv (h : Elem.lv ∉ es) : (s.raise es e).lv = s.lv := foldl_forget_lv _ s es h
theorem foldl_forget_w (h : Elem.w ∉ es) : (es.foldl (Elem.forget u) s).w = s.w := by
  induction es generalizing s with
  | nil => rfl
  | cons x xs ih =>
    rw [List.foldl_cons, ih _ (fun hx => h (List.mem_cons_of_mem _ hx))]
    cases x <;> first | rfl | exact absurd List.mem_cons_self h
theorem State.raise_w (h : Elem.w ∉ es) : (s.raise es e).w = s.w := foldl_forget_w _ s es h
theorem foldl_forget_rp (h : Elem.rp ∉ es) : (es.foldl (Elem.forget u) s).rp = s.rp := by
  induction es generalizing s with
  | nil => rfl
  | cons x xs ih =>
    rw [List.foldl_cons, ih _ (fun hx => h (List.mem_cons_of_mem _ hx))]
    cases x <;> first | rfl | exact absurd List.mem_cons_self h
theorem State.raise_rp (h : Elem.rp ∉ es) : (s.raise es e).rp = s.rp := foldl_forget_rp _ s es h
end Raise

end Sys2Proof.Machine
end

