-- ==== Sys2Proof/Laws/Step.lean ====
section
/-! SUPPORT. What the shared endings of a meaning, the raising of an error, the taking up of a move and a run of steps
can do, each said once. -/

namespace Sys2Proof.Machine

/-- A meaning that ends through `conclude` goes on with its own state, or with an error raised. -/
theorem conclude_next {U : List Elem} {s t : State} {r : Except Stop State} :
    conclude U s r = .next t ↔ r = .ok t ∨ ∃ e, r = .error (.raise e) ∧ t = s.raise U e := by
  unfold conclude
  split
  · simp only [Host.Outcome.next.injEq, Except.ok.injEq, reduceCtorEq, false_and, exists_false, or_false]
  · simp only [Host.Outcome.next.injEq, reduceCtorEq, Except.error.injEq, Stop.raise.injEq, exists_eq_left', false_or]
    exact eq_comm
  · simp
  · simp

/-- An operation that goes on had a well-formed configuration. -/
theorem underConfig_next {s t : State} {k : Host.Outcome State Fault Refusal} :
    underConfig s k = .next t ↔ s.cfg.wf = true ∧ k = .next t := by
  unfold underConfig
  split <;> simp [*]

theorem forget_same {x e : Elem} (u : Undefined) (s : State) (h : e ≠ x) : e.same s (Elem.forget u s x) := by
  cases x <;> cases e <;> simp [Elem.same, Elem.forget] at h ⊢

theorem Elem.same_trans {e : Elem} {s t u : State} (h : e.same s t) (h' : e.same t u) : e.same s u := by
  cases e <;> simp_all [Elem.same]

theorem foldl_same {e : Elem} (u : Undefined) (U : List Elem) (s : State) (h : e ∉ U) :
    e.same s (U.foldl (Elem.forget u) s) := by
  induction U generalizing s with
  | nil => cases e <;> simp [Elem.same]
  | cons x xs ih =>
    simp at h
    exact Elem.same_trans (forget_same u s h.1) (ih _ h.2)

/-- A raise leaves every element alone that it does not name. -/
theorem raise_same {e : Elem} {U : List Elem} (k : ErrKind) (s : State) (h : e ∉ U) : e.same s (s.raise U k) := by
  have := foldl_same (Config.undefinedAfter s.failures) U s h
  cases e <;> exact this

/-- Reading a container form gives an instruction, an error, residual bits or a refusal. -/
theorem fetchForm_cases (f : Form) (s : State) :
    (∃ (i : Instr) (sb : Bits) (r : Reader), fetchForm f s = .run i { s with
      si := s.sb.length - sb.length, rp := r.rp, tok := s.tok ++ asTokens i }) ∨
    (∃ e, fetchForm f s = .raises e (formElems f) s) ∨
    fetchForm f s = .moved s ∨ fetchForm f s = .refuses .illFormedConfig := by
  unfold fetchForm
  split
  · split
    · split
      · exact .inl ⟨_, _, _, rfl⟩
      · exact .inr (.inl ⟨_, rfl⟩)
    · simp
  · simp

/-- A run takes its first step first. -/
theorem run_next {n : Nat} {s t : State} (h : step s = .next t) :
    (Sys2Proof.core.run (n + 1) s : Host.Outcome State Fault Refusal) = Sys2Proof.core.run n t := by
  have h : Sys2Proof.core.step s = .next t := h
  simp only [Host.Core.run, h]

end Sys2Proof.Machine
end

