-- ==== Sys2Proof/Tests/Slice0.lean ====
section
/-! SUPPORT. The model's own tests: ill-formed terms refused, words written out from the spec's encodings, one step of each
instruction on the spec's test vectors (95_test_vectors.md, V<n>), and a witness for the hypotheses of each statement. -/

namespace Sys2Proof.Tests

/-! One theorem after the other: elaborated side by side, each waiting for the kernel's check of those before it, they take
more threads than the check's memory limit admits. -/
set_option Elab.async false

open Sys2Proof.Machine

/-! ## Helpers -/

/-- The next state of an outcome. -/
def nextOf (o : Host.Outcome State Fault Refusal) : Option State :=
  match o with
  | .next t => some t
  | .fault _ => none
  | .refused _ => none

/-- The refusal of an outcome. -/
def refusalOf (o : Host.Outcome State Fault Refusal) : Option Refusal :=
  match o with
  | .next _ => none
  | .fault _ => none
  | .refused r => some r

/-- How an outcome reports its end. -/
def ended (o : Host.Outcome State Fault Refusal) : Option (Status × Option ErrKind) :=
  (nextOf o).map fun t => (t.status, t.err)

/-- The reset state with these input bytes. -/
def holding (bytes : List Byte) : State :=
  { State.reset with ibuf := Memory.ofBytes bytes, ilen := bytes.length }

/-- "abababab". -/
def abab : State := holding [97, 98, 97, 98, 97, 98, 97, 98]

/-- The container of "abababab" (V20). -/
def v20 : State := holding [0, 0, 0, 0, 0, 0, 0, 3, 0x80, 0, 0, 0, 0x46, 0x13, 0x14, 0x18]

/-- The container of "a" (V22). -/
def v22 : State := holding [0, 0, 0, 0, 0, 0, 0, 1, 0, 0, 0x30, 0x80]

/-- The tree of V20. -/
def pair : Tree := .internal (.leaf 0) (.leaf 2)

/-- The tokens of V20. -/
def ababTokens : List Token := [⟨0, 97⟩, ⟨0, 98⟩, ⟨2, 6⟩]

/-- The coded tokens of V20, bit by bit: `0 01100001`, `0 01100010`, `1 00000110`. -/
def ababBody : Bits :=
  [false, false, true, true, false, false, false, false, true] ++
    [false, false, true, true, false, false, false, true, false] ++
    [true, false, false, false, false, false, true, true, false]

/-- A state with one pending move. -/
def pending (e : Event) (s : State) : State := { s with events := [e] }

/-- An outcome with a next state. -/
theorem exists_next {o : Host.Outcome State Fault Refusal} (h : (nextOf o).isSome = true) : ∃ t, o = .next t := by
  cases o with
  | next t => exact ⟨t, rfl⟩
  | fault f => simp [nextOf] at h
  | refused r => simp [nextOf] at h

/-! ## Well-formedness: an ill-formed term for each check -/

/-- 00_scope.md R14 (a), (b) on both sides, (c). -/
theorem test_wf_config :
    (Cfg.wf ⟨7, 16⟩, Cfg.wf ⟨8, 0⟩, Cfg.wf ⟨8, 63⟩, Cfg.wf ⟨8, 15⟩, Cfg.wf ⟨9, 16⟩) = (false, false, false, false, false) ∧
      Cfg.wf ⟨8, 16⟩ = true ∧ Cfg.wf ⟨8, 2⟩ = true ∧ Cfg.wf ⟨8, 62⟩ = true := by decide

theorem test_wf_lit : (Instr.lit 256).wf Cfg.default = false ∧ (Instr.lit 255).wf Cfg.default = true := by decide

theorem test_wf_copy :
    (Instr.copy 0 1).wf Cfg.default = false ∧ (Instr.copy 65536 1).wf Cfg.default = false ∧
      (Instr.copy 1 256).wf Cfg.default = false ∧ (Instr.copy 65535 255).wf Cfg.default = true := by decide

theorem test_wf_leaf : (Instr.leaf 65536).wf Cfg.default = false ∧ (Instr.leaf 65535).wf Cfg.default = true := by decide

theorem test_wf_structSize :
    (Instr.structSize (2 ^ 64)).wf Cfg.default = false ∧ (Instr.structSize (2 ^ 64 - 1)).wf Cfg.default = true := by decide

/-! ## Decoding: words written out bit by bit -/

/-- 30_encoding.md R81, R82: the sixteen codes. -/
theorem test_decode_commands :
    [0b0001, 0b0010, 0b0011, 0b0100, 0b0101, 0b0110, 0b0111, 0b1000, 0b1001, 0b1010].map (fun c => (decodeCommand c).toOption) =
      [some .find, some .tokenize, some .detokenize, some .build, some .getcode, some .serialize, some .header,
        some .deserialize, some .encode, some .decode] ∧
    [0b0000, 0b1011, 0b1100, 0b1101, 0b1110, 0b1111].all (fun c => (decodeCommand c).toOption == none) := by decide

/-- R68: in the tree of V80 flag 0 has the code `01`; then `01100010`. -/
theorem test_decode_lit :
    decodeForm Cfg.default (some (.internal (.internal (.leaf 1) (.leaf 0)) (.leaf 2))) .token []
      ⟨0, [false, true, false, true, true, false, false, false, true, false]⟩ = .ok (.lit 98, [], ⟨10, []⟩) := by decide

/-- R69: in the tree of V80 flag 1 has the code `00`; then `00000111`. -/
theorem test_decode_copy :
    decodeForm Cfg.default (some (.internal (.internal (.leaf 1) (.leaf 0)) (.leaf 2))) .token []
      ⟨0, [false, false, false, false, false, false, false, true, true, true]⟩ = .ok (.copy 1 7, [], ⟨10, []⟩) := by decide

/-- R70: structure bit 1. -/
theorem test_decode_internal :
    decodeForm Cfg.default none .node [true, false] ⟨5, [true]⟩ = .ok (.internal, [false], ⟨5, [true]⟩) := by decide

/-- R70: structure bit 0, and the leaf value `0000000000000101` from the main stream (V95). -/
theorem test_decode_leaf :
    decodeForm Cfg.default none .node [false]
      ⟨65, [false, false, false, false, false, false, false, false, false, false, false, false, false, true, false, true]⟩ =
      .ok (.leaf 5, [], ⟨81, []⟩) := by decide

/-- R61, R45: the first eight bytes `00 .. 00 03` as one field. -/
theorem test_decode_structSize :
    decodeForm Cfg.default none .structSize [] ⟨0, bitsOf [0, 0, 0, 0, 0, 0, 0, 3] ++ [true]⟩ =
      .ok (.structSize 3, [], ⟨64, [true]⟩) := by decide +kernel

/-- R65: 126 bits before the padding leave two zero bits (V7); the decoder reads none of them (R78). -/
theorem test_encode_pad :
    encode Cfg.default none 126 .pad = some (.container .pad [] [false, false]) ∧
      decodeForm Cfg.default none .pad [] ⟨126, [false, false]⟩ = .ok (.pad, [], ⟨126, [false, false]⟩) := by decide

/-- The host's words: the ten commands, LEAF and STRUCT_SIZE of all zeros (log entry 15). -/
theorem test_table_words :
    ([1, 2, 3, 4, 5, 6, 7, 8, 9, 10, 0].map (decodeTableWord 8)) =
      [some .find, some .tokenize, some .detokenize, some .build, some .getcode, some .serialize, some .header,
        some .deserialize, some .encode, some .decode, some (.leaf 0)] ∧
    decodeTableWord 64 0 = some (.structSize 0) ∧ decodeTableWord 0 0 = some .pad ∧
    decodeTableWord 1 1 = some .internal := by decide +kernel

/-- A table word placed at reset is what the very next step runs: BUILD, and INTERNAL with its two leaves. -/
theorem test_withFetchWord :
    ended (step (State.reset.withFetchWord 8 4)) = some (.done, none) ∧
      (nextOf (step (State.reset.withFetchWord 1 1))).map State.tree = some (some (.internal (.leaf 0) (.leaf 0))) := by
  decide +kernel

/-! ## One step of each instruction -/

/-- V32, V33. -/
theorem test_find_overlap :
    (nextOf (exec .find { abab with pos := 2 })).map (fun t => (t.dist, t.len)) = some (2, 6) ∧
      (nextOf (exec .find { abab with pos := 8 })).map (fun t => (t.dist, t.len)) = some (0, 0) := by decide +kernel

/-- V37 "abcXabcYabc": the most recent of two equal matches; V45 "abcda" under WINDOW_BITS 2: outside the window. -/
theorem test_find_most_recent :
    (nextOf (exec .find { holding [97, 98, 99, 88, 97, 98, 99, 89, 97, 98, 99] with pos := 8 })).map
        (fun t => (t.dist, t.len)) = some (4, 3) ∧
      (nextOf (exec .find { holding [97, 98, 99, 100, 97] with pos := 4, cfg := ⟨8, 2⟩ })).map
        (fun t => (t.dist, t.len)) = some (0, 0) := by decide +kernel

/-- V54 and V57 "aab". -/
theorem test_tokenize :
    (nextOf (exec .tokenize abab)).map (fun t => (t.tok, t.pos, t.dist, t.len)) = some (ababTokens, 8, 2, 6) ∧
      (nextOf (exec .tokenize (holding [97, 97, 98]))).map (fun t => (t.tok, t.pos, t.dist, t.len)) =
        some ([⟨0, 97⟩, ⟨1, 1⟩, ⟨0, 98⟩], 3, 0, 0) := by decide +kernel

/-- V66, V71; and a payload 16 bits wide under (16, 16) (10_state.md R27). -/
theorem test_detokenize :
    (nextOf (exec .detokenize { State.reset with tok := ababTokens })).map (fun t => t.obuf.bytes t.cur) =
        some [97, 98, 97, 98, 97, 98, 97, 98] ∧
      (nextOf (exec .detokenize { State.reset with tok := [⟨5, 0⟩, ⟨0, 97⟩, ⟨1, 0⟩, ⟨1, 2⟩] })).map
        (fun t => t.obuf.bytes t.cur) = some [97, 97, 97] ∧
      (nextOf (exec .detokenize { State.reset with cfg := ⟨16, 16⟩, tok := [⟨0, 97⟩, ⟨1, 256⟩] })).map State.cur =
        some 257 := by decide +kernel

/-- V69, V73. -/
theorem test_detokenize_underrun :
    ended (exec .detokenize { State.reset with tok := [⟨0, 97⟩, ⟨2, 1⟩] }) = some (.failed, some .decodeUnderrun) ∧
      ended (exec .detokenize { State.reset with tok := [⟨0, 97⟩, ⟨0, 98⟩, ⟨2, 3⟩, ⟨6, 1⟩] }) =
        some (.failed, some .decodeUnderrun) := by decide +kernel

/-- V80, V83: table and tree. -/
theorem test_build :
    (nextOf (exec .build { State.reset with tok := [⟨0, 1⟩, ⟨1, 1⟩, ⟨2, 1⟩] })).map (fun t => (t.freq, t.tree)) =
        some ([(0, 1), (1, 1), (2, 1)], some (.internal (.internal (.leaf 1) (.leaf 0)) (.leaf 2))) ∧
      (nextOf (exec .build { State.reset with
          tok := [⟨0, 1⟩, ⟨0, 2⟩, ⟨0, 3⟩, ⟨1, 1⟩, ⟨2, 1⟩, ⟨3, 1⟩, ⟨3, 2⟩] })).map (fun t => (t.freq, t.tree)) =
        some ([(0, 3), (1, 1), (2, 1), (3, 2)],
          some (.internal (.internal (.leaf 3) (.internal (.leaf 2) (.leaf 1))) (.leaf 0))) := by decide +kernel

/-- V86: a tree of five equal counts; V75: no token. -/
theorem test_build_ties :
    (nextOf (exec .build { State.reset with tok := [⟨1, 1⟩, ⟨2, 1⟩, ⟨3, 1⟩, ⟨4, 1⟩, ⟨5, 1⟩] })).map State.tree =
        some (some (.internal (.internal (.internal (.leaf 2) (.leaf 1)) (.leaf 5)) (.internal (.leaf 4) (.leaf 3)))) ∧
      (nextOf (exec .build State.reset)).map (fun t => (t.freq, t.tree)) = some ([], none) := by decide +kernel

/-- V87, V90, V92. -/
theorem test_getcode :
    (nextOf (exec .getcode { State.reset with tree := some (.leaf 0) })).map State.code = some [] ∧
      (nextOf (exec .getcode { State.reset with
        flag := 9
        tree := some (.internal (.internal (.leaf 3) (.internal (.leaf 9) (.leaf 0))) (.leaf 7)) })).map State.code =
        some [false, true, false] ∧
      (nextOf (exec .getcode { State.reset with tree := some (.internal (.leaf 0) (.leaf 0)) })).map State.code =
        some [false] := by decide +kernel

/-- V88, V89. -/
theorem test_getcode_absent :
    ended (exec .getcode { State.reset with flag := 1, tree := some (.leaf 0) }) = some (.failed, some .treeLookup) ∧
      ended (exec .getcode State.reset) = some (.failed, some .treeLookup) := by decide +kernel

/-- V97, V93. -/
theorem test_serialize :
    (nextOf (exec .serialize { State.reset with tree := some (.internal (.internal (.leaf 1) (.leaf 0)) (.leaf 2)) })).map
        (fun t => (t.sb, t.lv)) = some ([true, true, false, false, false], [1, 0, 2]) ∧
      (nextOf (exec .serialize State.reset)).map (fun t => (t.sb, t.lv)) = some ([], []) := by decide +kernel

/-- V100: the header's bytes, padded; the flag 65536 is refused (D30). -/
theorem test_header :
    (nextOf (exec .header { State.reset with tree := some (.internal (.leaf 65535) (.leaf 0)) })).map
        (fun t => (t.wlen, packBits (padBits t.w))) =
        some (99, [0, 0, 0, 0, 0, 0, 0, 3, 0x9F, 0xFF, 0xE0, 0, 0]) ∧
      refusalOf (exec .header { State.reset with tree := some (.leaf 65536) }) = some (.leafTooWide 65536) := by
  decide +kernel

/-- V110, and V111 with `RP` = 64. -/
theorem test_deserialize :
    (nextOf (exec .deserialize (holding [0, 0, 0, 0, 0, 0, 0, 3, 0x80, 0, 0, 0, 6, 0x13, 0x14]))).map
        (fun t => (t.tree, t.lv, t.rp)) = some (some (.internal (.leaf 0) (.leaf 0)), [0, 0], 99) ∧
      (nextOf (exec .deserialize (holding [0, 0, 0, 0, 0, 0, 0, 0, 0xFF, 0xFF]))).map
        (fun t => (t.tree, t.sb, t.rp)) = some (none, [], 64) := by decide +kernel

/-- V101 to V109. -/
theorem test_deserialize_malformed :
    ([[], [0, 0, 0, 0, 0, 0, 0], [0, 0, 0, 0, 0, 0, 0, 3], [0, 0, 0, 0, 0, 0, 0, 0x10, 0x80],
      [0, 0, 0, 0, 0, 0, 0, 1, 0x80, 0, 0, 0], [0, 0, 0, 0, 0, 0, 0, 2, 0, 0, 0, 0, 0],
      [0, 0, 0, 0, 0, 0, 0, 2, 0x80, 0, 0, 0, 0], [0, 0, 0, 0, 0, 0, 0, 3, 0x80, 0, 0],
      [0, 0, 0, 0, 0, 0, 0, 1, 0, 0]] : List (List Byte)).all
      (fun bytes => ended (exec .deserialize (holding bytes)) == some (.failed, some .malformedHeader)) = true := by
  decide +kernel

/-- V20, V22. -/
theorem test_encode :
    (nextOf (exec .encode abab)).map (fun t => t.obuf.bytes t.cur) =
        some [0, 0, 0, 0, 0, 0, 0, 3, 0x80, 0, 0, 0, 0x46, 0x13, 0x14, 0x18] ∧
      (nextOf (exec .encode (holding [97]))).map (fun t => t.obuf.bytes t.cur) =
        some [0, 0, 0, 0, 0, 0, 0, 1, 0, 0, 0x30, 0x80] := by decide +kernel

/-- V114: "abca" under WINDOW_BITS 2; and what ENCODE leaves in `FLAG` and `CODE` (log entry 8). -/
theorem test_encode_narrow_window :
    (nextOf (exec .encode { holding [97, 98, 99, 97] with cfg := ⟨8, 2⟩ })).map
        (fun t => (t.obuf.bytes t.cur, t.flag, t.code)) =
      some ([0, 0, 0, 0, 0, 0, 0, 3, 0x86, 0x61, 0x31, 0x18, 0xE0, 0x20], 3, [true]) := by decide +kernel

/-- V20 decoded; V124: residual bits set; V125: a cut that is not detected; V126. -/
theorem test_decode :
    (nextOf (exec .decode v20)).map (fun t => (t.obuf.bytes t.cur, t.tok, t.rp)) =
        some ([97, 98, 97, 98, 97, 98, 97, 98], ababTokens, 126) ∧
      ([[0, 0, 0, 0, 0, 0, 0, 1, 0, 0, 0x30, 0xFF], [0, 0, 0, 0, 0, 0, 0, 1, 0, 0, 0x30],
        [0, 0, 0, 0, 0, 0, 0, 3, 0x80, 0, 0, 0, 0x46, 0x13, 0x14]] : List (List Byte)).map
        (fun bytes => (nextOf (exec .decode (holding bytes))).map fun t => t.obuf.bytes t.cur) =
        [some [97], some [], some [97, 98]] := by decide +kernel

/-- V123, V132, V129, V131. -/
theorem test_decode_errors :
    ([[0, 0, 0, 0, 0, 0, 0, 0, 0, 0], [0, 0, 0, 0, 0, 0, 0, 5, 0xC0, 0, 0x18, 0, 8, 0, 0, 0, 0],
      [0, 0, 0, 0, 0, 0, 0, 3, 0x80, 0, 0, 0, 0x46, 0x18, 8],
      [0, 0, 0, 0, 0, 0, 0, 1, 0, 2, 0x80, 0x80]] : List (List Byte)).map
      (fun bytes => ended (exec .decode (holding bytes))) =
      [some (.failed, some .malformedHeader), some (.failed, some .truncatedStream),
        some (.failed, some .decodeUnderrun), some (.failed, some .decodeUnderrun)] := by decide +kernel

/-- 42_tokenstream.md R111: the example, and a payload that is no byte. -/
theorem test_lit :
    (nextOf (exec (.lit 97) State.reset)).map (fun t => (t.obuf, t.cur)) = some ([(0, 97)], 1) ∧
      refusalOf (exec (.lit 256) State.reset) = some (.literalTooWide 256) := by decide +kernel

/-- R112: the example "ab", `COPY 2, 6`; R113: `CUR` = 1, `COPY 2, 1`. -/
theorem test_copy :
    (nextOf (exec (.copy 2 6) { State.reset with obuf := [(0, 97), (1, 98)], cur := 2 })).map
        (fun t => t.obuf.bytes t.cur) = some [97, 98, 97, 98, 97, 98, 97, 98] ∧
      ended (exec (.copy 2 1) { State.reset with obuf := [(0, 97)], cur := 1 }) = some (.failed, some .decodeUnderrun) := by
  decide +kernel

/-- 44_treecodec.md R142 on the structure `100` and the leaf values 0 and 2, the bit 1 read. -/
theorem test_internal :
    (nextOf (exec .internal { holding [0, 0, 0, 2] with sb := [true, false, false], si := 1 })).map
        (fun t => (t.tree, t.si, t.rp, t.lv)) = some (some pair, 3, 32, [0, 2]) ∧
      ended (exec .internal { holding [0, 0, 0] with sb := [true, false, false], si := 1 }) =
        some (.failed, some .malformedHeader) := by decide +kernel

theorem test_leaf :
    (nextOf (exec (.leaf 5) { State.reset with lv := [3] })).map (fun t => (t.tree, t.lv)) = some (some (.leaf 5), [3, 5]) := by
  decide +kernel

/-- The structure bits `100` behind 64 bits of size. -/
theorem test_structSize :
    (nextOf (exec (.structSize 3) { v20 with rp := 64 })).map (fun t => (t.sb, t.rp)) = some ([true, false, false], 67) ∧
      ended (exec (.structSize 65) { v20 with rp := 64 }) = some (.failed, some .malformedHeader) := by decide +kernel

/-- V7 to V9. -/
theorem test_pad :
    [126, 89, 64].map (fun n => (nextOf (exec .pad { State.reset with w := List.replicate n true })).map State.wlen) =
      [some 128, some 96, some 64] := by decide +kernel

/-! ## Witnesses: states and operands that meet each statement's hypotheses -/

theorem witness_ResetValues : (pending .reset abab).events = .reset :: [] := rfl

theorem witness_EveryStepKeepsInvariant :
    Inv (pending (.command 1) abab) ∧ ∃ t, step (pending (.command 1) abab) = .next t := by
  refine ⟨?_, exists_next (by decide +kernel)⟩
  constructor <;> decide

theorem witness_HostWritesChangeOneElement :
    State.reset.events = [] ∧ (pending (.loadInput [1, 0, 2]) abab).events = .loadInput [1, 0, 2] :: [] ∧
      (pending (.setCfg ⟨7, 0⟩) abab).events = .setCfg ⟨7, 0⟩ :: [] ∧ (pending (.setPos 9) abab).events = .setPos 9 :: [] ∧
      (pending (.setTok ababTokens) abab).events = .setTok ababTokens :: [] ∧
      (pending (.setFlag 65536) abab).events = .setFlag 65536 :: [] ∧
      (pending (.setTree (some pair)) abab).events = .setTree (some pair) :: [] ∧
      (pending (.setRp 65) abab).events = .setRp 65 :: [] := ⟨rfl, rfl, rfl, rfl, rfl, rfl, rfl, rfl⟩

theorem witness_OnlyTheHostWritesInput :
    (∃ t, step (pending (.command 9) abab) = .next t) ∧ (∃ t, step (pending (.loadInput [1]) abab) = .next t) ∧
      (∃ t, step (pending (.setCfg ⟨8, 2⟩) abab) = .next t) ∧ ∃ t, step (pending .reset abab) = .next t :=
  ⟨exists_next (by decide +kernel), exists_next (by decide +kernel), exists_next (by decide +kernel),
    exists_next (by decide +kernel)⟩

theorem witness_StepRunsTheCommand :
    (pending (.command 1) abab).events = .command 1 :: [] ∧ decodeCommand 1 = .ok .find ∧
      (pending (.command 10) abab).events = .command 10 :: [] ∧ decodeCommand 10 = .ok .decode := ⟨rfl, rfl, rfl, rfl⟩

/-- A token with 8 bits left (nothing happens), one with 9 (read), one under `EMPTY` (an error), and the other forms. -/
theorem witness_StepRunsTheForm :
    State.reset.cfg.wf = true ∧ (holding [0]).bitRemaining = 8 ∧
      ({ holding [0, 97] with rp := 7, tree := some pair } : State).bitRemaining = 9 ∧
      decodeForm Cfg.default (some pair) .token [] ({ holding [0, 97] with rp := 7, tree := some pair } : State).reader =
        .ok (.lit 97, [], ⟨16, []⟩) ∧
      decodeForm Cfg.default none .token [] (holding [0, 97]).reader = .error .malformedHeader ∧
      decodeForm Cfg.default none .node [true] State.reset.reader = .ok (.internal, [], ⟨0, []⟩) ∧
      decodeForm Cfg.default none .node [] State.reset.reader = .error .malformedHeader ∧
      decodeForm Cfg.default none .pad [] State.reset.reader = .ok (.pad, [], ⟨0, []⟩) ∧
      decodeForm Cfg.default none .structSize [] v22.reader = .ok (.structSize 1, [], ⟨64, v22.inputBits.drop 64⟩) := by
  refine ⟨?_, ?_, ?_, ?_, ?_, ?_, ?_, ?_, ?_⟩ <;> decide +kernel

theorem witness_ReservedCommandsRefused :
    [0, 11, 15].all (fun c : BitVec 4 => decide (c = 0 ∨ 11 ≤ c.toNat)) = true ∧
      (pending (.command 0) abab).events = .command 0 :: [] := by decide

theorem witness_IllFormedConfigRefused :
    Instr.find ∈ operations ∧ Instr.decode ∈ operations ∧ ({ abab with cfg := ⟨8, 15⟩ } : State).cfg.wf = false ∧
      (pending (.interpret .pad) { abab with cfg := ⟨8, 15⟩ }).events = .interpret .pad :: [] := by decide

theorem witness_FieldsRoundTrip : 255 < 2 ^ 8 ∧ 0 < 2 ^ 0 ∧ 2 ^ 64 - 1 < 2 ^ 64 := by decide

theorem witness_InputBitAddressing : 0 < 8 * abab.ilen ∧ 63 < 8 * abab.ilen := by decide

theorem witness_PackedBitsReadBack :
    (List.replicate 8 true).length % 8 = 0 ∧ (packOut (List.replicate 8 true)).mem = (holding [0xFF]).ibuf ∧
      (packOut (List.replicate 8 true)).cur = (holding [0xFF]).ilen ∧ ([] : Bits).length % 8 = 0 := by decide +kernel

/-- Each form at the end of its range. -/
theorem witness_DecodeOfEncode :
    [Instr.lit 255, .copy 65535 255, .copy 65535 0, .internal, .leaf 65535, .structSize (2 ^ 64 - 1), .pad].all
      (fun i => i.wf Cfg.default &&
        (match encode Cfg.default (some (.internal (.leaf 0) (.leaf 65535))) 89 i with
          | some (.container _ _ _) => true
          | _ => false)) = true := by decide +kernel

theorem witness_EncodeOfDecode :
    (codeTreeFlags (some pair)).Nodup ∧ Fits Cfg.default (some pair) ∧
      decodeForm Cfg.default (some pair) .token [] ⟨99, ababBody⟩ = .ok (.lit 97, [], ⟨108, ababBody.drop 9⟩) ∧
      decodeForm Cfg.default none .node [false] ⟨83, List.replicate 16 true⟩ = .ok (.leaf 65535, [], ⟨99, []⟩) ∧
      decodeForm Cfg.default none .node [true] ⟨0, []⟩ = .ok (.internal, [], ⟨0, []⟩) ∧
      decodeForm Cfg.default none .structSize [] ⟨0, List.replicate 64 true⟩ =
        .ok (.structSize (2 ^ 64 - 1), [], ⟨64, []⟩) := by
  refine ⟨by decide, ?_, by decide +kernel, by decide +kernel, by decide, by decide +kernel⟩
  show ∀ f ∈ [0, 2], f < 2 ^ 16
  decide

/-- For the statements whose only hypothesis is a well-formed configuration. -/
theorem witness_wellFormed : abab.cfg.wf = true ∧ ({ abab with cfg := ⟨16, 2⟩ } : State).cfg.wf = true := by decide

theorem witness_after_tokenize : (∃ t, exec .tokenize abab = .next t) ∧ ∃ t, exec .tokenize State.reset = .next t :=
  ⟨exists_next (by decide +kernel), exists_next (by decide +kernel)⟩

/-- A copy at the very start of the output, one longer than its distance, and one of no byte. -/
theorem witness_DetokenizeReplays :
    ({ State.reset with tok := ⟨9, 0⟩ :: ababTokens } : State).tokens = ⟨9, 0⟩ :: ababTokens ∧
      Replayable 0 (⟨9, 0⟩ :: ababTokens) := by
  refine ⟨by decide +kernel, .inl rfl, by decide, by decide, .inr (by decide), trivial⟩

theorem witness_DetokenizeUnderrun :
    Replayable 0 [⟨0, 97⟩] ∧ 1 ≤ (⟨2, 1⟩ : Token).payload ∧ ([⟨0, 97⟩].map spanOf).sum < (⟨2, 1⟩ : Token).flag ∧
      ({ State.reset with tok := [⟨0, 97⟩, ⟨2, 1⟩] } : State).tokens = [⟨0, 97⟩] ++ ⟨2, 1⟩ :: [] := by
  exact ⟨⟨by decide, trivial⟩, by decide, by decide, by decide +kernel⟩

/-- A literal above 255 needs `LENGTH_BITS` above 8 (R111); `witness_WideLiteralInContainer` is DECODE's. -/
theorem witness_WideLiteralRefused :
    Cfg.wf ⟨16, 16⟩ = true ∧ Replayable 0 [⟨0, 255⟩] ∧ (⟨0, 256⟩ : Token).flag = 0 ∧ 255 < (⟨0, 256⟩ : Token).payload ∧
      ({ State.reset with cfg := ⟨16, 16⟩, tok := [⟨0, 255⟩, ⟨0, 256⟩] } : State).tokens =
        [⟨0, 255⟩] ++ ⟨0, 256⟩ :: [] := by
  exact ⟨by decide, ⟨by decide, trivial⟩, by decide, by decide, by decide +kernel⟩

theorem witness_LitAppendsItsByte : 0 ≤ 255 ∧ 255 ≤ 255 ∧ State.reset.obuf.wf := by
  exact ⟨by decide, by decide, List.Pairwise.nil, fun _ h => absurd h List.not_mem_nil⟩

/-- The nearest and the farthest distance the output admits. -/
theorem witness_CopyRepeatsTheLastBytes :
    Memory.wf [(0, 97), (1, 98)] ∧ 1 ≤ 1 ∧ 1 ≤ ({ State.reset with obuf := [(0, 97), (1, 98)], cur := 2 } : State).cur ∧
      2 ≤ ({ State.reset with obuf := [(0, 97), (1, 98)], cur := 2 } : State).cur := by
  refine ⟨⟨by decide, by decide⟩, by decide, by decide, by decide⟩

theorem witness_CopyZeroAndUnderrun : 1 ≤ 1 ∧ State.reset.cur < 1 ∧ ({ State.reset with cur := 2 } : State).cur < 3 := by decide

theorem witness_BuildOneLeafPerFlag : ∃ t, exec .build { State.reset with tok := ababTokens } = .next t :=
  exists_next (by decide +kernel)

theorem witness_BuildIgnoresOrder :
    (({ State.reset with tok := [⟨0, 1⟩, ⟨5, 2⟩] } : State).tokens.map Token.flag).Perm
        (({ State.reset with tok := [⟨5, 7⟩, ⟨0, 9⟩] } : State).tokens.map Token.flag) ∧
      (∃ t, exec .build { State.reset with tok := [⟨0, 1⟩, ⟨5, 2⟩] } = .next t) ∧
      ∃ t, exec .build { State.reset with tok := [⟨5, 7⟩, ⟨0, 9⟩] } = .next t :=
  ⟨by decide +kernel, exists_next (by decide +kernel), exists_next (by decide +kernel)⟩

theorem witness_GetcodeGivesThePath :
    ({ State.reset with flag := 2, tree := some pair } : State).flagOperand ∈ flagsOf pair ∧
      0 ∈ flagsOf (.internal (.leaf 0) (.leaf 0)) ∧ 5 ∈ flagsOf (.leaf 5) := by
  decide +kernel

theorem witness_GetcodeAbsentFlag :
    ({ State.reset with flag := 1 } : State).flagOperand ∉ codeTreeFlags (some pair) ∧ 0 ∉ codeTreeFlags none ∧
      (∃ t, exec .build { State.reset with tok := ababTokens } = .next t) ∧
      ⟨2, 6⟩ ∈ ({ State.reset with tok := ababTokens } : State).tokens ∧
      ∃ t, exec .encode abab = .next t :=
  ⟨by decide +kernel, by decide, exists_next (by decide +kernel), by decide +kernel, exists_next (by decide +kernel)⟩

theorem witness_CodesArePrefixFree :
    (codeTreeFlags (some pair)).Nodup ∧
      ({ State.reset with tree := some pair, flag := 0 } : State).flagOperand ≠
        ({ State.reset with tree := some pair, flag := 2 } : State).flagOperand ∧
      ended (exec .getcode { State.reset with tree := some pair, flag := 0 }) = some (.done, none) ∧
      ended (exec .getcode { State.reset with tree := some pair, flag := 2 }) = some (.done, none) := by decide +kernel

theorem witness_SerializePreorder :
    65535 < Cfg.default.windowSize ∧ Fits Cfg.default (some (.internal (.leaf 65535) (.leaf 0))) := by
  refine ⟨by decide, ?_⟩
  show ∀ f ∈ [65535, 0], f < 2 ^ 16
  decide

theorem witness_SerializeCounts : ∃ u, exec .serialize { State.reset with tree := some pair } = .next u :=
  exists_next (by decide +kernel)

theorem witness_WideLeafRefused :
    codeTreeFlags (some (.internal (.leaf 65535) (.leaf 65536))) = [65535] ++ 65536 :: [] ∧
      (∀ f ∈ [65535], f < Cfg.default.windowSize) ∧ Cfg.default.windowSize ≤ 65536 := by decide

theorem headerFits_pair : HeaderFits Cfg.default (some pair) := by
  refine ⟨?_, by decide⟩
  show ∀ f ∈ [0, 2], f < 2 ^ 16
  decide

theorem headerFits_none : HeaderFits Cfg.default none := ⟨fun _ h => absurd h List.not_mem_nil, by decide⟩

theorem headerFits_leaf : HeaderFits Cfg.default (some (.leaf 0)) := by
  refine ⟨?_, by decide⟩
  show ∀ f ∈ [0], f < 2 ^ 16
  decide

/-- A header at `RP` = 0 with tokens behind it, and the header of `EMPTY` with nothing behind it. -/
theorem witness_DeserializeReadsHeader :
    HeaderFits Cfg.default (some pair) ∧
      v20.inputBits.drop v20.rp = treeHeader Cfg.default (some pair) ++ (ababBody ++ [false, false]) ∧
      (holding [0, 0, 0, 0, 0, 0, 0, 0]).inputBits.drop 0 = treeHeader Cfg.default none ++ [] :=
  ⟨headerFits_pair, by decide +kernel, by decide +kernel⟩

/-- One state for each clause: 63 bits; `S` one more than there is; structure that ends too soon, that is left over, whose
leaf value is one bit short, and whose leaf value just fits. -/
theorem witness_DeserializeMalformed :
    ({ v20 with rp := 65 } : State).bitRemaining = 63 ∧
      ((holding [0, 0, 0, 0, 0, 0, 0, 9, 0]).inputBits.drop 0 = uN 64 9 ++ List.replicate 8 false ∧
        (List.replicate 8 false).length < 9) ∧
      ((holding [0, 0, 0, 0, 0, 0, 0, 1, 0x80]).inputBits.drop 0 = uN 64 1 ++ [true] ++ List.replicate 7 false ∧
        ∀ (t : Tree) (extra : Bits), [true] ≠ (serTree t).1 ++ extra) ∧
      ((holding [0, 0, 0, 0, 0, 0, 0, 2, 0]).inputBits.drop 0 = uN 64 2 ++ [false, false] ++ List.replicate 6 false ∧
        [false, false] = (serTree (.leaf 0)).1 ++ [false]) ∧
      ((holding [0, 0, 0, 0, 0, 0, 0, 1, 0, 0]).inputBits.drop 0 = uN 64 1 ++ [false] ++ List.replicate 15 false ∧
        (List.replicate 15 false).length < (flagsOf (.leaf 0)).length * 16) ∧
      (({ holding [0, 0, 0, 0, 0, 0, 0, 0, 0x02, 0, 0] with rp := 7 } : State).inputBits.drop 7 =
          uN 64 1 ++ [false] ++ List.replicate 16 false ∧
        (flagsOf (.leaf 0)).length * 16 ≤ (List.replicate 16 false).length) ∧
      ∃ u, exec .deserialize v20 = .next u := by
  refine ⟨by decide +kernel, by decide +kernel, ⟨by decide +kernel, ?_⟩, by decide +kernel, by decide +kernel,
    by decide +kernel, exists_next (by decide +kernel)⟩
  intro t extra h
  cases t with
  | leaf f => simp [serTree] at h
  | internal l r =>
    have hl : 1 ≤ (serTree l).1.length := by cases l <;> simp [serTree]
    simp [serTree] at h
    simp [h.1] at hl

theorem witness_NodeForms :
    ({ holding [0, 0, 0, 2] with sb := [true, false, false], si := 1 } : State).sb.drop 1 =
        (serTree (.leaf 0)).1 ++ (serTree (.leaf 2)).1 ++ [] ∧
      (holding [0, 0, 0, 2]).inputBits.drop 0 = (flagsOf (.leaf 0) ++ flagsOf (.leaf 2)).flatMap (uN 16) ++ [] ∧
      Fits Cfg.default (some pair) := ⟨rfl, by decide +kernel, headerFits_pair.1⟩

theorem witness_InternalMalformed :
    ∀ (l r : Tree) (rest more : Bits), Fits State.reset.cfg (some (.internal l r)) →
      State.reset.sb.drop State.reset.si = (serTree l).1 ++ (serTree r).1 ++ rest →
      State.reset.inputBits.drop State.reset.rp ≠
        (flagsOf l ++ flagsOf r).flatMap (uN State.reset.cfg.windowBits) ++ more := by
  intro l r rest more _ h
  have : 1 ≤ (serTree l).1.length := by cases l <;> simp [serTree]
  have := congrArg List.length h
  simp [State.reset] at this
  omega

theorem witness_NodeStepParses :
    (pending (.interpret .node) { holding [0, 0, 0, 2] with sb := [true, false, false] }).events = .interpret .node :: [] ∧
      [true, false, false].drop 0 = (serTree pair).1 ++ [] ∧
      (holding [0, 0, 0, 2]).inputBits.drop 0 = (flagsOf pair).flatMap (uN 16) ++ [] ∧ Fits Cfg.default (some pair) :=
  ⟨rfl, rfl, by decide +kernel, headerFits_pair.1⟩

/-- As many structure bits as are left, and one more than are left. -/
theorem witness_StructSizeForm :
    (holding [0x80]).inputBits.drop 0 = (true :: List.replicate 7 false) ++ [] ∧ 0 < 8 ∧ (holding [0x80]).bitRemaining < 9 := by
  decide +kernel

theorem witness_EncodeLeavesTheLastCode :
    (nextOf (exec .encode State.reset)).map State.tok = some [] ∧
      (nextOf (exec .encode abab)).map (fun t => t.tok.getLast?) = some (some ⟨2, 6⟩) := by decide +kernel

theorem witness_EncodeEmptyText : State.reset.cfg.wf = true ∧ State.reset.ilen = 0 := by decide

theorem witness_DecodeOfEncodeIsTheText :
    abab.cfg.wf = true ∧ v20.cfg = abab.cfg ∧
      (nextOf (exec .encode abab)).map (fun t => decide (v20.text = t.obuf.bytes t.cur)) = some true := by decide +kernel

theorem codedAs_abab : CodedAs Cfg.default pair ababTokens ababBody := by
  refine ⟨[false], ababBody.drop 9, rfl, by decide, ?_, by decide⟩
  refine ⟨[false], ababBody.drop 18, rfl, by decide, ?_, by decide⟩
  exact ⟨[true], [], rfl, by decide, rfl, by decide⟩

theorem codedAs_a : CodedAs Cfg.default (.leaf 0) [⟨0, 97⟩] (uN 8 97) :=
  ⟨[], [], rfl, by decide, rfl, by decide⟩

/-- V20; the single-leaf container V22; the container of the empty text. -/
theorem witness_DecodeReadsTheContainer :
    (HeaderFits Cfg.default (some pair) ∧ CodedUnder Cfg.default (some pair) ababTokens ababBody ∧
        v20.inputBits = treeHeader Cfg.default (some pair) ++ ababBody ++ [false, false] ∧ Replayable 0 ababTokens) ∧
      (HeaderFits Cfg.default (some (.leaf 0)) ∧ CodedUnder Cfg.default (some (.leaf 0)) [⟨0, 97⟩] (uN 8 97) ∧
        v22.inputBits = treeHeader Cfg.default (some (.leaf 0)) ++ uN 8 97 ++ List.replicate 7 false ∧
        List.replicate 7 false ≠ [] ∧ Replayable 0 [⟨0, 97⟩]) ∧
      (HeaderFits Cfg.default none ∧ CodedUnder Cfg.default none [] [] ∧
        (holding [0, 0, 0, 0, 0, 0, 0, 0]).inputBits = treeHeader Cfg.default none ++ [] ++ []) :=
  ⟨⟨headerFits_pair, codedAs_abab, by decide +kernel, by decide, by decide, .inr (by decide), trivial⟩,
    ⟨headerFits_leaf, codedAs_a, by decide +kernel, by decide, by decide, trivial⟩,
    ⟨headerFits_none, ⟨rfl, rfl⟩, by decide +kernel⟩⟩

/-- The tree `Leaf(0)` and the token (0, 256) under (16, 16). -/
theorem witness_WideLiteralInContainer :
    HeaderFits ⟨16, 16⟩ (some (.leaf 0)) ∧ CodedUnder ⟨16, 16⟩ (some (.leaf 0)) ([] ++ ⟨0, 256⟩ :: []) (uN 16 256) ∧
      (holding [0, 0, 0, 0, 0, 0, 0, 1, 0, 0, 0, 0x80, 0]).inputBits =
        treeHeader ⟨16, 16⟩ (some (.leaf 0)) ++ uN 16 256 ++ List.replicate 7 false ∧
      (List.replicate 7 false).length ≤ 16 ∧ List.replicate 7 false ≠ [] ∧ Replayable 0 [] ∧ 255 < (⟨0, 256⟩ : Token).payload ∧
      refusalOf (exec .decode { holding [0, 0, 0, 0, 0, 0, 0, 1, 0, 0, 0, 0x80, 0] with cfg := ⟨16, 16⟩ }) =
        some (.literalTooWide 256) := by
  refine ⟨⟨?_, by decide⟩, ⟨[], [], rfl, by decide, rfl, by decide⟩, by decide +kernel, by decide, by decide, trivial, by decide,
    by decide +kernel⟩
  show ∀ f ∈ [0], f < 2 ^ 16
  decide

/-- Seven bytes are no header. -/
theorem witness_DeserializeOnlyHeaders :
    (∀ t more, HeaderFits Cfg.default t →
      (holding [0, 0, 0, 0, 0, 0, 0]).inputBits ≠ treeHeader Cfg.default t ++ more) ∧
      ended (exec .decode (holding [0, 0, 0, 0, 0, 0, 0])) = some (.failed, some .malformedHeader) := by
  refine ⟨fun t more _ h => ?_, by decide +kernel⟩
  have hl : (holding [0, 0, 0, 0, 0, 0, 0]).inputBits.length = 56 := by decide +kernel
  rw [h, List.length_append, treeHeader, length_headerBits] at hl
  omega

/-- Eight bits behind the empty header, and sixteen (V122, V123). -/
theorem witness_DecodeEmptyTree :
    (holding [0, 0, 0, 0, 0, 0, 0, 0, 0xFF]).inputBits = List.replicate 64 false ++ List.replicate 8 true ∧
      (List.replicate 8 true).length ≤ Cfg.default.lengthBits ∧
      (holding [0, 0, 0, 0, 0, 0, 0, 0, 0, 0]).inputBits = List.replicate 64 false ++ List.replicate 16 false ∧
      Cfg.default.lengthBits < (List.replicate 16 false).length := by decide +kernel

/-- V132's tree `Internal(Internal(Leaf(3), Leaf(1)), Leaf(0))`, the token `00 00000000`, and nine zero bits. -/
theorem witness_DecodeTruncated :
    CodedAs Cfg.default (.internal (.internal (.leaf 3) (.leaf 1)) (.leaf 0)) [⟨3, 0⟩] (List.replicate 10 false) ∧
      (holding [0, 0, 0, 0, 0, 0, 0, 5, 0xC0, 0, 0x18, 0, 8, 0, 0, 0, 0]).inputBits =
        treeHeader Cfg.default (some (.internal (.internal (.leaf 3) (.leaf 1)) (.leaf 0))) ++ List.replicate 10 false ++
          List.replicate 9 false ∧
      Cfg.default.lengthBits < (List.replicate 9 false).length ∧
      (∀ code f tail, List.replicate 9 false = code ++ tail →
        follow (.internal (.internal (.leaf 3) (.leaf 1)) (.leaf 0)) code = some (.leaf f) →
          tail.length < Cfg.default.lengthBits) ∧
      HeaderFits Cfg.default (some (.internal (.internal (.leaf 3) (.leaf 1)) (.leaf 0))) := by
  refine ⟨⟨[false, false], [], rfl, by decide, rfl, by decide⟩, by decide +kernel, by decide, ?_, ?_, by decide⟩
  · intro code f tail h hf
    have hl := congrArg List.length h
    rcases code with _ | ⟨a, _ | ⟨b, code⟩⟩
    · simp [follow] at hf
    · simp only [List.replicate, List.cons_append, List.cons.injEq] at h
      rw [← h.1] at hf
      simp [follow] at hf
    · simp only [List.length_replicate, List.length_append, List.length_cons] at hl
      show tail.length < 8
      omega
  · show ∀ f ∈ [3, 1, 0], f < 2 ^ 16
    decide

/-- V128: the token `COPY 2, 1` at the start of the output. -/
theorem witness_DecodeUnderrun :
    HeaderFits Cfg.default (some pair) ∧
      CodedUnder Cfg.default (some pair) ([] ++ ⟨2, 1⟩ :: []) (true :: uN 8 1) ∧
      (holding [0, 0, 0, 0, 0, 0, 0, 3, 0x80, 0, 0, 0, 0x50, 0x10]).inputBits =
        treeHeader Cfg.default (some pair) ++ (true :: uN 8 1) ++ List.replicate 4 false ∧
      (List.replicate 4 false).length ≤ Cfg.default.lengthBits ∧ Replayable 0 [] ∧ 1 ≤ (⟨2, 1⟩ : Token).payload ∧
      (([] : List Token).map spanOf).sum < (⟨2, 1⟩ : Token).flag :=
  ⟨headerFits_pair, ⟨[true], [], rfl, by decide, rfl, by decide⟩, by decide +kernel, by decide, trivial, by decide, by decide⟩

/-- V20 read form by form: beside the hypotheses of `witness_DecodeReadsTheContainer`, the reset output and cursors. -/
theorem witness_FormByFormEqualsDecode :
    v20.obuf = [] ∧ v20.cur = 0 ∧ v20.rp = 0 ∧ v20.tok = [] ∧
      ({ v20 with events := .interpret .structSize :: ([.interpret .node] ++ List.replicate 3 (.interpret .token)) } :
        State).events = .interpret .structSize ::
          ((if some pair = none then [] else [.interpret .node]) ++ List.replicate ababTokens.length (.interpret .token)) := by
  decide

theorem witness_OperationsReportTheirEnd :
    Instr.getcode ∈ operations ∧ (∃ t, exec .getcode State.reset = .next t) ∧ Instr.encode ∈ operations ∧
      ∃ t, exec .encode abab = .next t :=
  ⟨by decide, exists_next (by decide +kernel), by decide, exists_next (by decide +kernel)⟩

theorem witness_FrameOfEveryInstruction :
    (∃ t, exec .find abab = .next t) ∧ (∃ t, exec (.lit 0) abab = .next t) ∧ (∃ t, exec .internal abab = .next t) ∧
      Elem.obuf ∉ writes .find :=
  ⟨exists_next (by decide +kernel), exists_next (by decide +kernel), exists_next (by decide +kernel), by decide⟩

/-- The widest fields under (8, 16), and a payload that fits under (16, 16) alone. -/
theorem witness_FieldsHoldTheirWidth :
    TokenFits Cfg.default ⟨65535, 255⟩ ∧ TokenFits ⟨16, 16⟩ ⟨1, 256⟩ ∧ ¬TokenFits Cfg.default ⟨1, 256⟩ ∧
      65535 < Cfg.default.windowSize ∧ ended (exec .tokenize abab) = some (.done, none) ∧
      ended (exec .encode abab) = some (.done, none) ∧ ended (exec .decode v20) = some (.done, none) := by
  refine ⟨⟨by decide, by decide⟩, ⟨by decide, by decide⟩, fun h => absurd h.2 (by decide), by decide, by decide +kernel,
    by decide +kernel, by decide +kernel⟩

theorem witness_OutputsDependOnInputsOnly :
    AgreeOnReads abab { abab with w := [true], rp := 3 } .encode ∧ abab ≠ { abab with w := [true], rp := 3 } :=
  ⟨⟨rfl, rfl⟩, by decide⟩

end Sys2Proof.Tests
end

section
/-! SUPPORT. FIND as a whole operation (41_matcher.md): it completes with the pair `findMatch` searches for. -/

namespace Sys2Proof.Machine

/-- FIND under a well-formed configuration: it writes `DIST` and `LEN`, and only `STATUS` and `ERR` beside them
(R95, R102). -/
theorem exec_find_of_wf {s : State} (hwf : s.cfg.wf = true) :
    exec .find s = .next (completed { s with
      dist := (findMatch s.cfg s.text s.pos).1, len := (findMatch s.cfg s.text s.pos).2 }) :=
  underConfig_next.2 ⟨hwf, rfl⟩

/-- Settles O18: the pair FIND writes is `findMatch`, and `findMatch_best` says that this pair is the best match. -/
theorem findLongestMostRecent : Obligations.FindLongestMostRecent := by
  intro s hwf
  exact ⟨_, _, exec_find_of_wf hwf, findMatch_best s.cfg s.text s.pos⟩

end Sys2Proof.Machine
end

section
/-! SUPPORT. TOKENIZE as a whole operation (42_tokenstream.md): it completes with the scan of the text. -/

namespace Sys2Proof.Machine

/-- TOKENIZE under a well-formed configuration, where the text's scan ends in `a`: it writes the scan's elements, and only
`STATUS` and `ERR` beside them (R105). -/
theorem exec_tokenize_of_scan {s : State} {a : Scan} (hwf : s.cfg.wf = true)
    (ha : tokenizeText s.cfg s.text = .ok a) : exec .tokenize s = .next (completed (s.withScan a)) :=
  underConfig_next.2 ⟨hwf, conclude_next.2 (.inl (by rw [ha]; rfl))⟩

/-- Settles O19: the tokens are those of `tokenizeText_spec`, which also says that the scan ends at the end of the text with
the last token's pair in `DIST`, `LEN`; the text's length is `ILEN`. -/
theorem tokenizeScansTheText : Obligations.TokenizeScansTheText := by
  intro s hwf
  obtain ⟨toks, hscan, hrun⟩ := tokenizeText_spec s.cfg s.text
  rw [State.text_length] at hrun
  exact ⟨toks, _, _, exec_tokenize_of_scan hwf hrun, hscan, rfl⟩

end Sys2Proof.Machine
end

section
/-! SUPPORT. BUILD and GETCODE as whole operations (43_treebuilder.md): what BUILD's table and tree amount to, when GETCODE
finds a code, and that ENCODE asks only for codes that are there. -/

namespace Sys2Proof.Machine

/-! ## BUILD -/

/-- BUILD under a well-formed configuration: it writes the table and its tree, and only `STATUS` and `ERR` beside them
(R120). -/
theorem exec_build_of_wf {s : State} (hwf : s.cfg.wf = true) :
    exec .build s = .next (completed { s with
      freq := freqOf s.tokens, tree := buildTree (freqOf s.tokens) }) :=
  underConfig_next.2 ⟨hwf, rfl⟩

/-- A BUILD that goes on had a well-formed configuration, and ended as `exec_build_of_wf` says. -/
theorem exec_build_next {s t : State} (h : exec .build s = .next t) :
    t = completed { s with freq := freqOf s.tokens, tree := buildTree (freqOf s.tokens) } :=
  (Host.Outcome.next.inj (underConfig_next.1 h).2).symm

/-- Counting a flag adds one to the sum of the counts. -/
theorem sum_countFlag (f : Nat) (t : List (Nat × Nat)) :
    ((countFlag f t).map Prod.snd).sum = (t.map Prod.snd).sum + 1 := by
  induction t with
  | nil => rfl
  | cons e rest ih =>
    simp only [countFlag]
    split_ifs <;> simp only [List.map_cons, List.sum_cons] <;> omega

/-- The counts of the table of a list sum to the list's length. -/
theorem sum_countFlags (fl : List Nat) : ((countFlags fl).map Prod.snd).sum = fl.length := by
  have h (t : List (Nat × Nat)) :
      ((fl.foldl (fun t f => countFlag f t) t).map Prod.snd).sum = (t.map Prod.snd).sum + fl.length := by
    induction fl generalizing t with
    | nil => rfl
    | cons f fl ih => rw [List.foldl_cons, ih, sum_countFlag, List.length_cons]; omega
  exact (h []).trans (Nat.zero_add _)

/-- Settles O28: the table is `countFlags` of the tokens' flags, which rises, holds each flag's count (`mem_countFlags`), and
whose counts sum to the number of tokens (`sum_countFlags`). -/
theorem buildCountsFlags : Obligations.BuildCountsFlags := by
  intro s hwf
  refine ⟨_, _, exec_build_of_wf hwf, (freqOk_countFlags _).1, mem_countFlags _, ?_⟩
  calc ((freqOf s.tokens).map Prod.snd).sum = (s.tokens.map Token.flag).length := sum_countFlags _
    _ = s.tlen := by rw [List.length_map, State.length_tokens]

/-- The tree of a table has one leaf per entry (R126). -/
theorem length_buildTree {fr : List (Nat × Nat)} (h : FreqOk fr) :
    (codeTreeFlags (buildTree fr)).length = fr.length := by
  by_cases h0 : fr = []
  · subst h0
    rfl
  · obtain ⟨t, ht, -, hperm⟩ := buildTree_spec h h0
    calc (codeTreeFlags (buildTree fr)).length = (flagsOf t).length := by rw [ht]; rfl
      _ = (fr.map Prod.fst).length := hperm.length_eq
      _ = fr.length := List.length_map _

/-- Settles O30: `buildTree_flags` gives the distinct leaves and which flags they hold, `length_buildTree` their number. -/
theorem buildOneLeafPerFlag : Obligations.BuildOneLeafPerFlag := by
  intro s t h
  obtain rfl := exec_build_next h
  obtain ⟨hnodup, hmem⟩ := buildTree_flags s.tokens
  exact ⟨hnodup, hmem, length_buildTree (freqOk_countFlags _)⟩

/-! ## GETCODE -/

/-- A flag has no code exactly when no leaf of the code tree holds it (R130). -/
theorem codeOf_eq_none {f : Nat} {t : CodeTree} : codeOf f t = none ↔ f ∉ codeTreeFlags t := by
  cases t with
  | none => simp [codeOf, codeTreeFlags]
  | some t => exact pathOf_eq_none

/-- GETCODE of a flag with a code writes the code, and only `STATUS` and `ERR` beside it (R128). -/
theorem exec_getcode_of_code {s : State} {code : Bits} (hwf : s.cfg.wf = true)
    (h : codeOf s.flagOperand s.tree = some code) :
    exec .getcode s = .next (completed { s with code := code }) :=
  underConfig_next.2 ⟨hwf, conclude_next.2 (.inl (by rw [h]; rfl))⟩

/-- GETCODE of a flag without a code raises TreeLookupError over `CODE` (R130). -/
theorem exec_getcode_of_absent {s : State} (hwf : s.cfg.wf = true) (h : codeOf s.flagOperand s.tree = none) :
    exec .getcode s = .next (s.raise [.code] .treeLookup) :=
  underConfig_next.2 ⟨hwf, conclude_next.2 (.inr ⟨_, by rw [h], rfl⟩)⟩

/-- GETCODE of a token's flag after BUILD of the tokens completes: the flag fits `FLAG`, and some leaf holds it (R130,
R132). -/
theorem getcode_after_build_done {s t : State} {k : Token} (h : exec .build s = .next t) (hk : k ∈ s.tokens) :
    ∃ u, exec .getcode { t with flag := k.flag } = .next u ∧ u.status = .done := by
  have hwf : s.cfg.wf = true := (underConfig_next.1 h).1
  obtain rfl := exec_build_next h
  have hflag : fitField s.cfg.windowBits k.flag = k.flag := fitField_of_lt (s.tokens_fit k hk).1
  have hleaf : k.flag ∈ codeTreeFlags (buildTree (freqOf s.tokens)) := ((buildTree_flags s.tokens).2 _).2 ⟨k, hk, rfl⟩
  obtain ⟨code, hcode⟩ := Option.ne_none_iff_exists'.1 fun hnone => codeOf_eq_none.1 hnone hleaf
  refine ⟨_, exec_getcode_of_code (code := code) hwf ?_, rfl⟩
  show codeOf (fitField s.cfg.windowBits k.flag) (buildTree (freqOf s.tokens)) = some code
  rw [hflag, hcode]

/-! ## TreeLookupError in ENCODE -/

/-- A text's scan ends, with tokens that scan the text (R105). -/
theorem exists_tokenizeText (c : Cfg) (text : List Byte) : ∃ a, tokenizeText c text = .ok a ∧ ScansTo c text 0 a.toks := by
  obtain ⟨toks, hscan, htok⟩ := tokenizeText_spec c text
  exact ⟨_, htok, hscan⟩

/-- Where steps 2 to 5 of R150 complete on the text's scan, ENCODE completes with their state. -/
theorem exec_encode_of_scan {s u : State} {a : Scan} (hwf : s.cfg.wf = true) (ha : tokenizeText s.cfg s.text = .ok a)
    (hu : encodeScan s a = .ok u) : exec .encode s = .next u :=
  underConfig_next.2 ⟨hwf, conclude_next.2 (.inl (by rw [ha]; exact hu))⟩

/-- An ENCODE that goes on raised no error: by `encodeScan_spec` every token of the scan is coded. -/
theorem exec_encode_err {s t : State} (h : exec .encode s = .next t) : t.err = none := by
  have hwf : s.cfg.wf = true := (underConfig_next.1 h).1
  obtain ⟨a, ha, hscan⟩ := exists_tokenizeText s.cfg s.text
  obtain ⟨body, -, -, henc⟩ := encodeScan_spec hwf hscan
  obtain rfl := Host.Outcome.next.inj ((exec_encode_of_scan hwf ha henc).symm.trans h)
  exact State.done_err _

/-- Settles O33: without a leaf there is no code and the raise touches `CODE` alone; BUILD's tree has a leaf for each flag of
its tokens; and ENCODE raises nothing. -/
theorem getcodeAbsentFlag : Obligations.GetcodeAbsentFlag := by
  refine ⟨fun s hwf habsent => ?_, fun s t k => getcode_after_build_done, fun s t h => ?_⟩
  · exact ⟨_, exec_getcode_of_absent hwf (codeOf_eq_none.2 habsent)⟩
  · rw [exec_encode_err h]
    exact (Option.some_ne_none _).symm

end Sys2Proof.Machine
end

section
/-! SUPPORT. SERIALIZE, HEADER and DESERIALIZE as whole operations (44_treecodec.md): what the first two write for a tree
whose flags fit, and that DESERIALIZE completes in front of a header and fails everywhere else. -/

namespace Sys2Proof.Machine

/-! ## SERIALIZE and HEADER -/

/-- SERIALIZE of a tree whose flags fit writes the walk, and only `STATUS` and `ERR` beside it (R135). -/
theorem exec_serialize_of_fits {s : State} {t : CodeTree} (hwf : s.cfg.wf = true) (ht : s.tree = t) (hf : Fits s.cfg t) :
    exec .serialize s = .next (completed { s with sb := (ser t).1, lv := (ser t).2 }) :=
  underConfig_next.2 ⟨hwf, conclude_next.2 (.inl (by rw [ht, serialize_of_fits hf]; rfl))⟩

/-- HEADER of a tree whose flags fit writes its header and the walk, and only `STATUS` and `ERR` beside them (R137). -/
theorem exec_header_of_fits {s : State} (hwf : s.cfg.wf = true) (hf : Fits s.cfg s.tree) :
    exec .header s = .next (completed { s with
      sb := (ser s.tree).1, lv := (ser s.tree).2, w := treeHeader s.cfg s.tree }) :=
  underConfig_next.2 ⟨hwf, conclude_next.2 (.inl (by rw [serialize_of_fits hf]; rfl))⟩

/-- The flags of an internal node fit where those of both subtrees do. -/
theorem fits_internal {c : Cfg} {l r : Tree} :
    Fits c (some (.internal l r)) ↔ Fits c (some l) ∧ Fits c (some r) := List.forall_mem_append

/-- Settles O35: each clause is `exec_serialize_of_fits` at its tree, where `ser` computes by its own recursion. -/
theorem serializePreorder : Obligations.SerializePreorder := by
  intro s hwf
  refine ⟨fun ht => ?_, fun f ht hlt => ?_, fun l r ht hf => ?_⟩
  · exact exec_serialize_of_fits hwf ht fun f hf => absurd hf List.not_mem_nil
  · exact exec_serialize_of_fits hwf ht (List.forall_mem_singleton.2 hlt)
  · rw [ht] at hf
    obtain ⟨hl, hr⟩ := fits_internal.1 hf
    exact ⟨_, _, _, _, exec_serialize_of_fits (s := { s with tree := some l }) hwf rfl hl,
      exec_serialize_of_fits (s := { s with tree := some r }) hwf rfl hr, exec_serialize_of_fits hwf ht hf⟩

/-- Settles O38: `W` is `treeHeader`, whose size field is `u_64(S)` wherever that is defined (`sizeField_of_lt`), which it is
for distinct flags (`headerFits_of_distinct`); its length is `length_headerBits`. -/
theorem headerLayout : Obligations.HeaderLayout := by
  intro s hwf hf
  exact ⟨(ser s.tree).1, (ser s.tree).2, sizeField (ser s.tree).1.length, exec_serialize_of_fits hwf rfl hf,
    exec_header_of_fits hwf hf, sizeField_of_lt, fun hn => (headerFits_of_distinct hwf hf hn).2, length_headerBits _ _ _⟩

/-! ## DESERIALIZE -/

/-- DESERIALIZE completes with what it reads from the reader, where it reads a header (R142). -/
theorem exec_deserialize_of_ok {s : State} {p : Parsed} (hwf : s.cfg.wf = true) (h : deserialize s.cfg s.reader = .ok p) :
    exec .deserialize s = .next (completed (s.withParsed p)) :=
  underConfig_next.2 ⟨hwf, conclude_next.2 (.inl (by rw [h]; rfl))⟩

/-- DESERIALIZE raises MalformedHeaderError over a header's elements, whatever stops its reading (R143). -/
theorem exec_deserialize_of_error {s : State} {e : ErrKind} (hwf : s.cfg.wf = true)
    (h : deserialize s.cfg s.reader = .error e) :
    exec .deserialize s = .next (s.raise headerElems .malformedHeader) := by
  obtain rfl := deserialize_error h
  exact underConfig_next.2 ⟨hwf, conclude_next.2 (.inr ⟨_, by rw [h], rfl⟩)⟩

/-- A DESERIALIZE that goes on raised nothing or MalformedHeaderError (R143). -/
theorem exec_deserialize_err {s u : State} (h : exec .deserialize s = .next u) :
    u.err = none ∨ u.err = some .malformedHeader := by
  have hwf : s.cfg.wf = true := (underConfig_next.1 h).1
  cases hd : deserialize s.cfg s.reader with
  | ok p =>
    obtain rfl := Host.Outcome.next.inj ((exec_deserialize_of_ok hwf hd).symm.trans h)
    exact .inl rfl
  | error e =>
    obtain rfl := Host.Outcome.next.inj ((exec_deserialize_of_error hwf hd).symm.trans h)
    exact .inr (State.raise_err _ _ _)

/-- DESERIALIZE in front of a header that fits completes with its tree (R147). -/
theorem exec_deserialize_of_header {s : State} {t : CodeTree} {more : Bits} (hwf : s.cfg.wf = true)
    (hfit : HeaderFits s.cfg t) (h : s.inputBits.drop s.rp = treeHeader s.cfg t ++ more) :
    exec .deserialize s = .next (completed (s.withParsed
      ⟨t, (ser t).1, (ser t).2, ⟨s.rp + (treeHeader s.cfg t).length, more⟩, (ser t).1.length⟩)) :=
  exec_deserialize_of_ok hwf (by rw [State.reader, h, deserialize_header hfit])

/-- DESERIALIZE where no header that fits stands in front of the reader fails (R143, R147). -/
theorem exec_deserialize_of_no_header {s : State} (hwf : s.cfg.wf = true)
    (h : ∀ t more, HeaderFits s.cfg t → s.inputBits.drop s.rp ≠ treeHeader s.cfg t ++ more) :
    ∃ u, exec .deserialize s = .next u ∧ Failed .malformedHeader u := by
  cases hd : deserialize s.cfg s.reader with
  | ok p =>
    obtain ⟨hfit, hread, -⟩ := deserialize_ok hd
    exact absurd hread (h _ _ hfit)
  | error e => exact ⟨_, exec_deserialize_of_error hwf hd, State.raise_status _ _ _, State.raise_err _ _ _⟩

/-- Bits that start with a header that fits and with a size: the size is that of the header's structure bits, which follow
it, and then its leaf values. -/
theorem treeHeader_split {c : Cfg} {t : CodeTree} {size : Nat} {rest more : Bits} (hfit : HeaderFits c t)
    (hsize : size < 2 ^ structSizeBits) (h : uN structSizeBits size ++ rest = treeHeader c t ++ more) :
    size = (ser t).1.length ∧ rest = (ser t).1 ++ (leafField c (ser t).2 ++ more) := by
  rw [treeHeader_of_fits hfit, List.append_assoc, List.append_assoc] at h
  obtain ⟨hfield, hrest⟩ := List.append_inj h (by rw [length_uN, length_uN])
  refine ⟨?_, hrest⟩
  rw [← bval_uN hsize, hfield, bval_uN hfit.2]

/-- Bits that start with a header that fits and with a size and so many bits: these are a tree's structure, and bits enough
for its leaf values follow. -/
theorem treeHeader_split_structure {c : Cfg} {t : CodeTree} {sb rest more : Bits} (hfit : HeaderFits c t)
    (h0 : 0 < sb.length) (hsize : sb.length < 2 ^ structSizeBits)
    (h : uN structSizeBits sb.length ++ sb ++ rest = treeHeader c t ++ more) :
    ∃ t', sb = (serTree t').1 ∧ (flagsOf t').length * c.windowBits ≤ rest.length := by
  rw [List.append_assoc] at h
  obtain ⟨hlen, hrest⟩ := treeHeader_split hfit hsize h
  obtain ⟨hsb, hvalues⟩ := List.append_inj hrest hlen
  cases t with
  | none => exact absurd h0 (by rw [hsb]; exact Nat.lt_irrefl 0)
  | some t =>
    refine ⟨t, hsb, ?_⟩
    rw [hvalues, List.length_append, length_leafField, ser_values]
    exact Nat.le_add_right _ _

/-- Trees of one structure have equally many leaves (R140). -/
theorem length_flagsOf_congr {t u : Tree} (h : (serTree t).1 = (serTree u).1) :
    (flagsOf t).length = (flagsOf u).length := by
  rw [← serTree_zeros, h, serTree_zeros]

/-- Any bits, enough for a tree's leaf values, are the leaf values of a tree of its structure. -/
theorem exists_tree_of_leafField {c : Cfg} (t : Tree) {b : Bits} (h : b.length = (flagsOf t).length * c.windowBits) :
    ∃ t', (serTree t').1 = (serTree t).1 ∧ Fits c (some t') ∧ leafField c (flagsOf t') = b := by
  induction t generalizing b with
  | leaf f =>
    have hlen : b.length = c.windowBits := h.trans (Nat.one_mul _)
    refine ⟨.leaf (bval b), rfl, List.forall_mem_singleton.2 ?_, ?_⟩
    · exact (bval_lt b).trans_eq (congrArg (2 ^ ·) hlen)
    · rw [flagsOf, leafField_cons, leafField_nil, List.append_nil, ← hlen, uN_bval]
  | internal l r ihl ihr =>
    rw [flagsOf, List.length_append, Nat.add_mul] at h
    obtain ⟨l', hl, hfl, hbl⟩ := ihl (b := b.take ((flagsOf l).length * c.windowBits)) (by rw [List.length_take]; omega)
    obtain ⟨r', hr, hfr, hbr⟩ := ihr (b := b.drop ((flagsOf l).length * c.windowBits)) (by rw [List.length_drop]; omega)
    refine ⟨.internal l' r', ?_, fits_internal.2 ⟨hfl, hfr⟩, ?_⟩
    · rw [serTree_internal, serTree_internal, hl, hr]
    · rw [flagsOf, leafField_append, hbl, hbr, List.take_append_drop]

/-- DESERIALIZE of a tree's structure with bits enough behind it completes and takes those bits as leaf values (R143). -/
theorem exec_deserialize_of_structure {s : State} {t : Tree} {rest : Bits} (hwf : s.cfg.wf = true)
    (hsize : (serTree t).1.length < 2 ^ structSizeBits)
    (h : s.inputBits.drop s.rp = uN structSizeBits (serTree t).1.length ++ (serTree t).1 ++ rest)
    (hlong : (flagsOf t).length * s.cfg.windowBits ≤ rest.length) :
    ∃ u, exec .deserialize s = .next u ∧ u.status = .done ∧ u.lv.length = (flagsOf t).length ∧
      leafField s.cfg u.lv = rest.take ((flagsOf t).length * s.cfg.windowBits) := by
  obtain ⟨t', hsb, hfits, hvalues⟩ := exists_tree_of_leafField (c := s.cfg) t (List.length_take_of_le hlong)
  have hfit : HeaderFits s.cfg (some t') := ⟨hfits, hsb ▸ hsize⟩
  have hheader : s.inputBits.drop s.rp =
      treeHeader s.cfg (some t') ++ rest.drop ((flagsOf t).length * s.cfg.windowBits) := by
    rw [treeHeader_of_fits hfit, ser_values, codeTreeFlags, hvalues, ser, hsb, List.append_assoc, List.take_append_drop, h]
  have hlv : (ser (some t')).2 = flagsOf t' := serTree_values t'
  refine ⟨_, exec_deserialize_of_header hwf hfit hheader, rfl, ?_, ?_⟩
  · exact (congrArg List.length hlv).trans (length_flagsOf_congr hsb)
  · exact (congrArg (leafField s.cfg) hlv).trans hvalues

/-- Settles O41: in each of the five places no header that fits stands in front of the reader, for its length, its size field,
its structure or its leaf values would differ; a tree's structure with bits enough is one that does. -/
theorem deserializeMalformed : Obligations.DeserializeMalformed := by
  intro s hwf
  refine ⟨fun hshort => ?_, fun size rest hsize hbits hshort => ?_, fun sb rest h0 hsize hbits => ⟨fun hbad => ?_, ?_⟩,
    fun u => exec_deserialize_err⟩
  · refine exec_deserialize_of_no_header hwf fun t more hfit h => ?_
    have hlen : s.bitRemaining = (treeHeader s.cfg t ++ more).length := congrArg List.length h
    rw [List.length_append, treeHeader, length_headerBits] at hlen
    omega
  · refine exec_deserialize_of_no_header hwf fun t more hfit h => ?_
    obtain ⟨hlen, hrest⟩ := treeHeader_split hfit hsize (hbits.symm.trans h)
    rw [hrest, List.length_append] at hshort
    omega
  · refine exec_deserialize_of_no_header hwf fun t more hfit h => ?_
    obtain ⟨t', hsb, hlong⟩ := treeHeader_split_structure hfit h0 hsize (hbits.symm.trans h)
    rcases hbad with hnone | ⟨t₁, extra, hover, hextra⟩ | ⟨t₁, hsb₁, hfew⟩
    · exact hnone t' [] (hsb.trans (List.append_nil _).symm)
    · exact hextra (serTree_front ((hover.symm.trans hsb).trans (List.append_nil _).symm)).2
    · rw [length_flagsOf_congr (hsb₁.symm.trans hsb)] at hfew
      omega
  · rintro t rfl hlong
    exact exec_deserialize_of_structure hwf hsize hbits hlong

end Sys2Proof.Machine
end

section
/-! SUPPORT. ENCODE as a whole operation (45_container.md R150): it completes with the scan, the tree and the container. -/

namespace Sys2Proof.Machine

/-- BUILD of tokens that fit: it reads them as they are (R120; 10_state.md R27). -/
theorem exec_build_of_fits {s : State} (hwf : s.cfg.wf = true) (hf : ∀ k ∈ s.tok, TokenFits s.cfg k) :
    exec .build s = .next (completed { s with freq := freqOf s.tok, tree := buildTree (freqOf s.tok) }) := by
  rw [exec_build_of_wf hwf, State.tokens_of_fits hf]

/-- Settles O47: ENCODE runs `encodeScan` on the scan of `tokenizeText_spec`, and `encodeScan_spec` says what that leaves;
BUILD reads the same tokens, for they fit; `W` is padded to whole bytes, so packing it loses no bit. -/
theorem encodeWritesTheContainer : Obligations.EncodeWritesTheContainer := by
  intro s hwf
  obtain ⟨toks, hscan, htok⟩ := tokenizeText_spec s.cfg s.text
  obtain ⟨body, hcoded, hfit, henc⟩ := encodeScan_spec hwf (a := ⟨toks, _, _, _⟩) hscan
  have hbytes := bitsOf_packOut _ (length_padBits (treeHeader s.cfg (buildTree (freqOf toks)) ++ body))
  refine ⟨_, _, body, exec_encode_of_scan hwf htok henc, hscan,
    exec_build_of_fits (s := { s with tok := toks }) hwf (hscan.tokens_fit hwf), hfit, hcoded, ?_,
    (packOut_ok _).1, hbytes, ?_⟩
  · rw [State.text_length]
    rfl
  · have hlen := congrArg List.length hbytes
    rwa [length_bitsOf, Out.bytes_length] at hlen

end Sys2Proof.Machine
end

section
/-! SUPPORT. DECODE as a whole operation (45_container.md R155 to R164): what it reads from a container that decodes, and
that ENCODE's containers are such. -/

namespace Sys2Proof.Machine

/-- The token loop reads nothing where at most `LENGTH_BITS` bits are left, under any code tree (R157). -/
theorem tokenLoop_residual {c : Cfg} {tree : CodeTree} {r : Reader} (hres : r.remaining ≤ c.lengthBits) (rounds : Nat)
    (toks : List Token) : tokenLoop c tree rounds r toks = .ok (toks, r) := by
  cases rounds with
  | zero => rfl
  | succ n => rw [tokenLoop, if_neg (Nat.not_lt.2 hres)]

/-- The token loop, from behind the header on, reads a coded token list and stops before the residual bits. -/
theorem tokenLoop_codedUnder {c : Cfg} {t : CodeTree} {toks : List Token} {body residual : Bits} (hL : 1 ≤ c.lengthBits)
    (hc : CodedUnder c t toks body) (hres : residual.length ≤ c.lengthBits)
    (hleaf : ∀ f, t = some (.leaf f) → toks ≠ [] → residual ≠ []) (rp : Nat) :
    tokenLoop c t (body ++ residual).length ⟨rp, body ++ residual⟩ [] = .ok (toks, ⟨rp + body.length, residual⟩) := by
  cases t with
  | none =>
    obtain ⟨rfl, rfl⟩ := hc
    exact tokenLoop_residual (r := ⟨rp, residual⟩) hres _ _
  | some t =>
    have hrounds : toks.length ≤ (body ++ residual).length :=
      (length_codedAs hL hc).trans (by rw [List.length_append]; exact Nat.le_add_right _ _)
    exact tokenLoop_coded hc hres (fun f hf => hleaf f (congrArg some hf)) _ rp hrounds []

/-- DECODE of a header, coded tokens that replay and residual bits too few for a token completes with the tree, the tokens
and the bytes they stand for (R155 to R158, R162). -/
theorem exec_decode_of_container {s : State} {t : CodeTree} {toks : List Token} {body residual : Bits}
    (hwf : s.cfg.wf = true) (hfit : HeaderFits s.cfg t) (hc : CodedUnder s.cfg t toks body)
    (hbits : s.inputBits = treeHeader s.cfg t ++ body ++ residual) (hres : residual.length ≤ s.cfg.lengthBits)
    (hleaf : ∀ f, t = some (.leaf f) → toks ≠ [] → residual ≠ []) (hrep : Replayable 0 toks) :
    ∃ m : Memory, exec .decode s = .next (completed { s with
        obuf := m, cur := (expand toks []).length, tok := toks, tree := t, sb := (ser t).1, lv := (ser t).2
        si := (ser t).1.length, rp := (treeHeader s.cfg t).length + body.length }) ∧
      m.wf ∧ m.bytes (expand toks []).length = expand toks [] := by
  have hL : 1 ≤ s.cfg.lengthBits := (by decide : 1 ≤ 8).trans (wf_lengthBits hwf)
  have hheader := deserialize_header hfit 0 (body ++ residual)
  rw [← List.append_assoc, ← hbits, Nat.zero_add] at hheader
  have hloop := tokenLoop_codedUnder hL hc hres hleaf (treeHeader s.cfg t).length
  obtain ⟨⟨m, cur⟩, hreplay, ⟨hm, -⟩, -, hbytes⟩ := replay_spec Out.ok_empty hrep
  obtain rfl : cur = (expand toks []).length := (Out.bytes_length _).symm.trans (congrArg List.length hbytes)
  refine ⟨m, underConfig_next.2 ⟨hwf, conclude_next.2 (.inl ?_)⟩, hm, hbytes⟩
  simp only [decodeBits, hheader, Reader.remaining, hloop, hreplay]
  rfl

/-- The padding behind the tokens of a single-leaf container is not empty: such a container never ends on a byte boundary
(R14c, R201). -/
theorem padLength_pos_of_leaf {c : Cfg} {f : Nat} {toks : List Token} {body : Bits} (hwf : c.wf = true)
    (hc : CodedUnder c (some (.leaf f)) toks body) (hne : toks ≠ []) :
    0 < padLength (treeHeader c (some (.leaf f)) ++ body).length := by
  have hlen : (treeHeader c (some (.leaf f)) ++ body).length = 65 + c.windowBits + toks.length * c.lengthBits := by
    rw [List.length_append, treeHeader, length_headerBits, length_codedAs_leaf hc]
    simp [ser, serTree]
  have hodd := wf_single_leaf hwf (List.length_pos_iff.2 hne)
  rw [hlen, padLength]
  omega

/-- Settles O50: ENCODE's container is a header, the coded scan and less than a byte of padding, so DECODE reads it back
(`exec_decode_of_container`); the scan replays to the text (`ScansTo.replays`). -/
theorem decodeOfEncodeIsTheText : Obligations.DecodeOfEncodeIsTheText := by
  intro s hwf
  obtain ⟨t, b, body, henc, hscan, -, hfit, hcoded, ht, -, hbits, -⟩ := encodeWritesTheContainer s hwf
  have hstatus : t.status = .done := (congrArg State.status ht :)
  have htree : t.tree = b.tree := (congrArg State.tree ht :)
  have hw : t.w = treeHeader s.cfg b.tree ++ body ++
    List.replicate (padLength (treeHeader s.cfg b.tree ++ body).length) false := (congrArg State.w ht :)
  obtain ⟨hrep, hexp⟩ := hscan.replays
  refine ⟨t, henc, hstatus, fun u hcfg htext => ?_⟩
  have hinput : u.inputBits = t.w := by rw [State.inputBits, htext, hbits]
  rw [← hcfg] at hwf hfit hcoded hw
  obtain ⟨m, hdec, -, hbytes⟩ := exec_decode_of_container hwf hfit hcoded (hinput.trans hw)
    (by
      rw [List.length_replicate]
      exact (padLength_lt _).le.trans (wf_lengthBits hwf))
    (fun f hf hne => by
      rw [hf] at hcoded ⊢
      exact List.ne_nil_of_length_pos (by simpa using padLength_pos_of_leaf hwf hcoded hne)) hrep
  rw [List.take_zero] at hexp
  rw [hexp] at hdec hbytes
  exact ⟨_, hdec, rfl, rfl, s.text_length, hbytes, rfl, htree.symm⟩

end Sys2Proof.Machine
end

section
/-! SUPPORT. Ends and outputs as functions of the inputs (45_container.md R165; 42_tokenstream.md R118): what it is for two
states to end alike, and that an operation whose two results agree ends so. -/

namespace Sys2Proof.Machine

/-- Two ends are alike: both stopped alike, or the same `STATUS` and `ERR` and, after a completion, the same elements `es`. -/
def SameEnd (es : List Elem) (o o' : Host.Outcome State Fault Refusal) : Prop :=
  match o, o' with
  | .next t, .next t' => t'.status = t.status ∧ t'.err = t.err ∧ (t.status = .done → ∀ e ∈ es, e.same t t')
  | .fault f, .fault f' => f = f'
  | .refused r, .refused r' => r = r'
  | _, _ => False

/-- Two results of a meaning agree: both stopped alike, or both complete with the same elements `es`. -/
inductive SameResult (es : List Elem) : Except Stop State → Except Stop State → Prop where
  | stopped (x : Stop) : SameResult es (.error x) (.error x)
  | completed {t t' : State} (h : ∀ e ∈ es, e.same t t') : SameResult es (.ok t.done) (.ok t'.done)

/-- Operations with one configuration whose results agree end alike, whatever elements an error leaves undefined. -/
theorem SameResult.sameEnd {es U : List Elem} {s s' : State} {r r' : Except Stop State} (h : SameResult es r r')
    (hcfg : s.cfg = s'.cfg) : SameEnd es (underConfig s (conclude U s r)) (underConfig s' (conclude U s' r')) := by
  unfold underConfig
  rw [← hcfg]
  split
  · cases h with
    | stopped x => cases x <;> simp [conclude, SameEnd]
    | completed h =>
      refine ⟨rfl, rfl, fun _ e he => ?_⟩
      have := h e he
      cases e <;> exact this
  · rfl

/-- ENCODE's steps 2 to 5 depend on `CFG` and the scan only (R150). -/
theorem encodeScan_sameResult {s s' : State} (hcfg : s.cfg = s'.cfg) (a : Scan) :
    SameResult (writes .encode) (encodeScan s a) (encodeScan s' a) := by
  simp only [encodeScan, hcfg]
  cases serialize s'.cfg (buildTree (freqOf a.toks)) with
  | error x => exact .stopped x
  | ok p =>
    cases codeTokens s'.cfg (buildTree (freqOf a.toks)) a.toks with
    | error e => exact .stopped (.raise e)
    | ok body => exact .completed (by simp [writes, Elem.same])

/-- DECODE of some bits depends on `CFG` and the bits only (R155). -/
theorem decodeBits_sameResult {s s' : State} (hcfg : s.cfg = s'.cfg) (bits : Bits) :
    SameResult (writes .decode) (decodeBits s bits) (decodeBits s' bits) := by
  simp only [decodeBits, hcfg]
  cases deserialize s'.cfg ⟨0, bits⟩ with
  | error e => exact .stopped (.raise e)
  | ok p =>
    simp only
    cases tokenLoop s'.cfg p.tree p.rd.remaining p.rd [] with
    | error e => exact .stopped (.raise e)
    | ok q =>
      simp only
      cases replay q.1 Out.empty with
      | error x => exact .stopped x
      | ok o => exact .completed (by simp [writes, Elem.same])

/-- Every operation ends alike in states that agree on what it reads: a case for each, split where its own rule can stop. -/
theorem exec_sameEnd (i : Instr) {s s' : State} (h : AgreeOnReads s s' i) :
    SameEnd (writes i) (exec i s) (exec i s') := by
  cases i with
  | find =>
    obtain ⟨hcfg, htext, hpos⟩ := h
    refine SameResult.sameEnd (U := []) (.completed ?_) hcfg
    simp [writes, Elem.same, hcfg, htext, hpos]
  | tokenize =>
    obtain ⟨hcfg, htext⟩ := h
    refine SameResult.sameEnd ?_ hcfg
    rw [hcfg, htext]
    cases tokenizeText s'.cfg s'.text with
    | error e => exact .stopped (.raise e)
    | ok a => exact .completed (by simp [writes, Elem.same])
  | detokenize =>
    obtain ⟨hcfg, htok⟩ := h
    refine SameResult.sameEnd ?_ hcfg
    rw [htok]
    cases replay s'.tokens Out.empty with
    | error x => exact .stopped x
    | ok o => exact .completed (by simp [writes, Elem.same])
  | build =>
    obtain ⟨hcfg, htok⟩ := h
    refine SameResult.sameEnd (U := []) (.completed ?_) hcfg
    simp [writes, Elem.same, htok]
  | getcode =>
    obtain ⟨hcfg, hflag, htree⟩ := h
    refine SameResult.sameEnd ?_ hcfg
    rw [hflag, htree]
    cases codeOf s'.flagOperand s'.tree with
    | none => exact .stopped (.raise .treeLookup)
    | some code => exact .completed (by simp [writes, Elem.same])
  | serialize =>
    obtain ⟨hcfg, htree⟩ := h
    refine SameResult.sameEnd ?_ hcfg
    rw [hcfg, htree]
    cases serialize s'.cfg s'.tree with
    | error x => exact .stopped x
    | ok p => exact .completed (by simp [writes, Elem.same])
  | header =>
    obtain ⟨hcfg, htree⟩ := h
    refine SameResult.sameEnd ?_ hcfg
    rw [hcfg, htree]
    cases serialize s'.cfg s'.tree with
    | error x => exact .stopped x
    | ok p => exact .completed (by simp [writes, Elem.same])
  | deserialize =>
    obtain ⟨hcfg, htext, hrp⟩ := h
    refine SameResult.sameEnd ?_ hcfg
    have hreader : s.reader = s'.reader := by rw [State.reader, State.inputBits, htext, hrp]; rfl
    rw [hcfg, hreader]
    cases deserialize s'.cfg s'.reader with
    | error e => exact .stopped (.raise e)
    | ok p => exact .completed (by simp [writes, Elem.same])
  | encode =>
    obtain ⟨hcfg, htext⟩ := h
    refine SameResult.sameEnd ?_ hcfg
    rw [hcfg, htext]
    cases tokenizeText s'.cfg s'.text with
    | error e => exact .stopped (.raise e)
    | ok a => exact encodeScan_sameResult hcfg a
  | decode =>
    obtain ⟨hcfg, htext⟩ := h
    refine SameResult.sameEnd ?_ hcfg
    rw [State.inputBits, htext]
    exact decodeBits_sameResult hcfg _
  | lit | copy | internal | leaf | structSize | pad => exact absurd h id

/-- Settles O59: `SameEnd` spells out the statement, and `exec_sameEnd` has a case for each operation. -/
theorem outputsDependOnInputsOnly : Obligations.OutputsDependOnInputsOnly := by
  intro i s s' h
  exact exec_sameEnd i h

end Sys2Proof.Machine
end

section
/-! SUPPORT. Decoding and encoding of the container forms undo each other (30_encoding.md R61, R65, R67 to R72). -/

namespace Sys2Proof.Machine

/-! ## Tokens -/

/-- A token's bits, where its flag has a code, are a path to a leaf of its flag and its payload (R67). -/
theorem tokenBits_eq_some {c : Cfg} {tree : CodeTree} {k : Token} {b : Bits} (h : tokenBits c tree k = some b) :
    ∃ t code, tree = some t ∧ follow t code = some (.leaf k.flag) ∧ b = code ++ uN c.lengthBits k.payload := by
  cases tree with
  | none => exact absurd h (by simp [tokenBits, codeOf])
  | some t =>
    simp only [tokenBits, codeOf] at h
    cases hp : pathOf k.flag t with
    | none => simp [hp] at h
    | some code =>
      simp only [hp, Option.some.injEq] at h
      exact ⟨t, code, rfl, follow_pathOf hp, h.symm⟩

/-- The bits of a token that has a code and a payload that fits decode to the instruction of the token (R67, R72). -/
theorem decodeForm_tokenBits {c : Cfg} {tree : CodeTree} {k : Token} {main : Bits} (hb : tokenBits c tree k = some main)
    (hp : k.payload < c.lengthSize) (sb more : Bits) (rp : Nat) :
    decodeForm c tree .token sb ⟨rp, main ++ more⟩ = .ok (k.instr, sb, ⟨rp + main.length, more⟩) := by
  obtain ⟨t, code, rfl, hcode, rfl⟩ := tokenBits_eq_some hb
  simp only [decodeForm, decodeToken_coded hcode hp, List.length_append, length_uN, Nat.add_assoc]

/-- In a tree of distinct leaves the only path to a flag's leaf is the one `path` gives (43_treebuilder.md R126, R128). -/
theorem pathOf_of_follow {t : Tree} {code : Bits} {f : Nat} (hn : (flagsOf t).Nodup) (h : follow t code = some (.leaf f)) :
    pathOf f t = some code := by
  obtain ⟨first, hfirst⟩ := Option.ne_none_iff_exists'.1 fun hnone => pathOf_eq_none.1 hnone (mem_of_follow h)
  rcases pathOf_first hfirst h with rfl | ⟨p, a, b, rfl, rfl⟩
  · exact hfirst
  · exact absurd hn (two_paths (follow_pathOf hfirst) h)

/-- The instruction of a token that fits is well formed (R68, R69). -/
theorem Token.instr_wf {c : Cfg} {k : Token} (hf : k.flag < c.windowSize) (hp : k.payload < c.lengthSize) :
    k.instr.wf c = true := by
  unfold Token.instr
  split
  · simpa [Instr.wf] using hp
  · simp only [Instr.wf, Bool.and_eq_true, decide_eq_true_eq]
    omega

/-- The instruction of a token encodes as the token's bits (R67 to R69). -/
theorem encode_instr (c : Cfg) (tree : CodeTree) (n : Nat) (k : Token) :
    encode c tree n k.instr = (tokenBits c tree k).map (.container .token []) := by
  obtain ⟨f, p⟩ := k
  unfold Token.instr
  split
  · rename_i hf
    obtain rfl : f = 0 := hf
    rfl
  · rfl

/-! ## Both ways -/

/-- Settles O16: one case per container form; a token's bits are `decodeForm_tokenBits`, a field is read back by
`Reader.field_append`; no command encodes as a container form. -/
theorem decodeOfEncode : Obligations.DecodeOfEncode := by
  intro c tree n i form sb main sbRest more rp hwf henc
  cases i with
  | find | tokenize | detokenize | build | getcode | serialize | header | deserialize | encode | decode =>
    exact absurd henc (by simp [encode])
  | lit p =>
    obtain ⟨b, hb, he⟩ := Option.map_eq_some_iff.1 henc
    obtain ⟨rfl, rfl, rfl⟩ := Encoding.container.inj he
    have hp : p < c.lengthSize := of_decide_eq_true hwf
    exact ⟨fun _ => decodeForm_tokenBits hb hp _ _ _, fun h => absurd h (by decide)⟩
  | copy d l =>
    obtain ⟨b, hb, he⟩ := Option.map_eq_some_iff.1 henc
    obtain ⟨rfl, rfl, rfl⟩ := Encoding.container.inj he
    simp only [Instr.wf, Bool.and_eq_true, decide_eq_true_eq] at hwf
    obtain ⟨⟨hd, -⟩, hl⟩ := hwf
    have hinstr : Token.instr ⟨d, l⟩ = .copy d l := if_neg (Nat.ne_of_gt hd)
    exact ⟨fun _ => hinstr ▸ decodeForm_tokenBits hb hl _ _ _, fun h => absurd h (by decide)⟩
  | internal =>
    obtain ⟨rfl, rfl, rfl⟩ := Encoding.container.inj (Option.some.inj henc)
    exact ⟨fun _ => rfl, fun h => absurd h (by decide)⟩
  | leaf v =>
    obtain ⟨rfl, rfl, rfl⟩ := Encoding.container.inj (Option.some.inj henc)
    have hv : v < 2 ^ c.windowBits := of_decide_eq_true hwf
    refine ⟨fun _ => ?_, fun h => absurd h (by decide)⟩
    simp [decodeForm, decodeNode, Reader.field_append _ _ _ _ _ hv, nodeInstr]
  | structSize size =>
    obtain ⟨rfl, rfl, rfl⟩ := Encoding.container.inj (Option.some.inj henc)
    have hsize : size < 2 ^ structSizeBits := of_decide_eq_true hwf
    refine ⟨fun _ => ?_, fun h => absurd h (by decide)⟩
    simp [decodeForm, decodeStructSize, Reader.field_append _ _ _ _ _ hsize]
  | pad =>
    obtain ⟨rfl, rfl, rfl⟩ := Encoding.container.inj (Option.some.inj henc)
    exact ⟨fun h => absurd rfl h, fun _ => ⟨rfl, rfl, rfl, rfl⟩⟩

/-- What a node that decodes has read: the structure bit 1, or the structure bit 0 and a leaf value that fits (R70). -/
theorem decodeNode_ok {c : Cfg} {sb sb' : Bits} {r r' : Reader} {n : Option Nat}
    (h : decodeNode c sb r = .ok (n, sb', r')) :
    (n = none ∧ sb = true :: sb' ∧ r' = r) ∨
      ∃ v, n = some v ∧ sb = false :: sb' ∧ v < c.windowSize ∧ r.unread = uN c.windowBits v ++ r'.unread ∧
        r'.rp = r.rp + c.windowBits := by
  rcases sb with _ | ⟨b, rest⟩
  · exact absurd h (by simp [decodeNode])
  cases b with
  | true =>
    simp only [decodeNode, Except.ok.injEq, Prod.mk.injEq] at h
    obtain ⟨rfl, rfl, rfl⟩ := h
    exact .inl ⟨rfl, rfl, rfl⟩
  | false =>
    simp only [decodeNode] at h
    cases hf : r.field c.windowBits .malformedHeader with
    | error e => simp [hf] at h
    | ok q =>
      simp only [hf, Except.ok.injEq, Prod.mk.injEq] at h
      obtain ⟨rfl, rfl, rfl⟩ := h
      exact .inr ⟨_, rfl, rfl, Reader.field_eq_ok hf⟩

/-- Settles O17: one case per container form; what was read is given by `decodeToken_ok`, `decodeNode_ok` and
`Reader.field_eq_ok`, and a token's path is the one the encoder takes since the leaves are distinct (`pathOf_of_follow`). -/
theorem encodeOfDecode : Obligations.EncodeOfDecode := by
  intro c tree n form sb sb' r r' i hpad htree h
  cases form with
  | token =>
    obtain ⟨hn, hfits⟩ := htree rfl
    simp only [decodeForm] at h
    cases hd : decodeToken c tree r with
    | error e => simp [hd] at h
    | ok q =>
      simp only [hd, Except.ok.injEq, Prod.mk.injEq] at h
      obtain ⟨rfl, rfl, rfl⟩ := h
      obtain ⟨t, code, rfl, hcode, hp, hread, hrp⟩ := decodeToken_ok hd
      refine ⟨Token.instr_wf (hfits _ (mem_of_follow hcode)) hp, [], code ++ uN c.lengthBits q.1.payload, ?_, rfl, hread,
        ?_⟩
      · rw [encode_instr, tokenBits, codeOf, pathOf_of_follow hn hcode]
        rfl
      · rw [hrp, List.length_append, length_uN, Nat.add_assoc]
  | node =>
    simp only [decodeForm] at h
    cases hd : decodeNode c sb r with
    | error e => simp [hd] at h
    | ok q =>
      obtain ⟨n', sb₁, r₁⟩ := q
      simp only [hd, Except.ok.injEq, Prod.mk.injEq] at h
      obtain ⟨rfl, rfl, rfl⟩ := h
      rcases decodeNode_ok hd with ⟨rfl, rfl, rfl⟩ | ⟨v, rfl, rfl, hv, hread, hrp⟩
      · exact ⟨rfl, [true], [], rfl, rfl, rfl, rfl⟩
      · exact ⟨decide_eq_true hv, [false], uN c.windowBits v, rfl, rfl, hread, by rw [hrp, length_uN]⟩
  | structSize =>
    simp only [decodeForm, decodeStructSize] at h
    cases hd : r.field structSizeBits .malformedHeader with
    | error e => simp [hd] at h
    | ok q =>
      simp only [hd, Except.ok.injEq, Prod.mk.injEq] at h
      obtain ⟨rfl, rfl, rfl⟩ := h
      obtain ⟨hsize, hread, hrp⟩ := Reader.field_eq_ok hd
      exact ⟨decide_eq_true hsize, [], uN structSizeBits q.1, rfl, rfl, hread, by rw [hrp, length_uN]⟩
  | pad => exact absurd rfl hpad

end Sys2Proof.Machine
end

section
/-! SUPPORT. What an instruction and a step can do, said once each (10_state.md section 4, 60_exceptions.md R173 to R182), and
the rules over all instructions and all steps that follow. -/

namespace Sys2Proof.Machine

/-! ## The invariant, part by part -/

/-- The part of the invariant that speaks of what instructions write: the output buffer, the table, FIND's pair. -/
def Shape (s : State) : Prop := Out.Ok ⟨s.obuf, s.cur⟩ ∧ FreqOk s.freq ∧ (s.dist = 0 ↔ s.len = 0)

/-- The invariant is `Shape`, a canonical input buffer, and `ERR` set exactly when `STATUS` is `FAILED`. -/
theorem inv_iff {s : State} :
    Inv s ↔ Out.Ok ⟨s.ibuf, s.ilen⟩ ∧ Shape s ∧ (s.err ≠ none ↔ s.status = .failed) := by
  constructor
  · rintro ⟨hiw, hib, how, hob, hfr, hfp, herr, hfound⟩
    exact ⟨⟨hiw, hib⟩, ⟨⟨how, hob⟩, ⟨hfr, hfp⟩, hfound⟩, herr⟩
  · rintro ⟨⟨hiw, hib⟩, ⟨⟨how, hob⟩, ⟨hfr, hfp⟩, hfound⟩, herr⟩
    exact ⟨hiw, hib, how, hob, hfr, hfp, herr, hfound⟩

/-- A free value keeps the shape of its element; `DIST` and `LEN` are left out, whose free values need not be zero
together. -/
theorem Elem.forget_shape {x : Elem} {s : State} (u : Undefined) (hx : x ≠ .found) (h : Shape s) :
    Shape (x.forget u s) := by
  obtain ⟨hout, hfreq, hfound⟩ := h
  cases x with
  | obuf => exact ⟨⟨Memory.wf_ofBytes _, Memory.below_ofBytes _⟩, hfreq, hfound⟩
  | freq => exact ⟨hout, freqOk_countFlags _, hfound⟩
  | found => exact absurd rfl hx
  | tok | tree | pos | flag | code | sb | lv | w | rp => exact ⟨hout, hfreq, hfound⟩

/-- An error raised over elements other than `DIST` and `LEN` keeps the invariant. -/
theorem Inv.raise {s : State} {U : List Elem} (h : Inv s) (hU : Elem.found ∉ U) (e : ErrKind) : Inv (s.raise U e) := by
  have fold (u : Undefined) (hs : Shape s) : Shape (U.foldl (Elem.forget u) s) := by
    clear h
    induction U generalizing s with
    | nil => exact hs
    | cons x xs ih =>
      rw [List.mem_cons, not_or] at hU
      exact ih hU.2 (x.forget_shape u (Ne.symm hU.1) hs)
  obtain ⟨hin, hshape, -⟩ := inv_iff.1 h
  refine inv_iff.2 ⟨by rwa [State.raise_ibuf, State.raise_ilen], fold _ hshape, ?_⟩
  rw [State.raise_err, State.raise_status]
  exact iff_of_true (Option.some_ne_none e) rfl

/-! ## How an instruction ends -/

/-- A statement about every element, spelled out. -/
theorem Elem.forall_elem {P : Elem → Prop} :
    (∀ e, P e) ↔ P .obuf ∧ P .tok ∧ P .freq ∧ P .tree ∧ P .pos ∧ P .found ∧ P .flag ∧ P .code ∧ P .sb ∧ P .lv ∧ P .w ∧
      P .rp := by
  refine ⟨fun h => ⟨h _, h _, h _, h _, h _, h _, h _, h _, h _, h _, h _, h _⟩, ?_⟩
  rintro ⟨hobuf, htok, hfreq, htree, hpos, hfound, hflag, hcode, hsb, hlv, hw, hrp⟩ e
  cases e <;> assumption

/-- What an instruction that raises nothing leaves alone: the elements it does not write, the input, the configuration, the
pending moves and the error count. -/
def Frame (i : Instr) (s t : State) : Prop :=
  (∀ e, e ∉ writes i → e.same s t) ∧ (Elem.sb ∉ writes i → t.si = s.si) ∧ t.ibuf = s.ibuf ∧ t.ilen = s.ilen ∧
    t.cfg = s.cfg ∧ t.events = s.events ∧ t.failures = s.failures

/-- How an instruction that raises nothing may change the state. -/
structure Completes (i : Instr) (s t : State) : Prop where
  frame : Frame i s t := by simp [Frame, Elem.forall_elem, writes, Elem.same]
  report : (i ∈ operations ∧ t.status = .done ∧ t.err = none) ∨
    (i ∉ operations ∧ t.status = s.status ∧ t.err = s.err) := by simp [operations]
  out : Out.Ok ⟨s.obuf, s.cur⟩ → Out.Ok ⟨t.obuf, t.cur⟩ := by simp
  freq : FreqOk s.freq → FreqOk t.freq := by simp
  found : (s.dist = 0 ↔ s.len = 0) → (t.dist = 0 ↔ t.len = 0) := by simp

/-- What an instruction's own rule can answer: it completes, raises one of its kinds, or refuses; it never faults. -/
inductive Meaning (i : Instr) (s : State) : Except Stop State → Prop where
  | completes {t : State} (h : Completes i s t) : Meaning i s (.ok t)
  | raises {e : ErrKind} (h : e ∈ reachableErrors i) : Meaning i s (.error (.raise e))
  | refuses (r : Refusal) : Meaning i s (.error (.refuse r))

/-- An outcome an instruction can have: its rule's answer, the elements it writes being lost where an error is raised. -/
def Ends (i : Instr) (s : State) (o : Host.Outcome State Fault Refusal) : Prop :=
  ∃ r, Meaning i s r ∧ o = conclude (writes i) s r

/-- An operation's outcome, from its rule under a well-formed configuration. -/
theorem Ends.underConfig {i : Instr} {s : State} {r : Except Stop State} (h : s.cfg.wf = true → Meaning i s r) :
    Ends i s (underConfig s (conclude (writes i) s r)) := by
  by_cases hwf : s.cfg.wf = true
  · exact ⟨r, h hwf, if_pos hwf⟩
  · exact ⟨_, .refuses .illFormedConfig, if_neg hwf⟩

/-- FIND's last pair of a scan is zero in both or in none (41_matcher.md R101). -/
theorem ScansTo.last_found {c : Cfg} {text : List Byte} {p : Nat} {toks : List Token} (h : ScansTo c text p toks) :
    ((toks.getLast?.map matchOf).getD (0, 0)).1 = 0 ↔ ((toks.getLast?.map matchOf).getD (0, 0)).2 = 0 := by
  cases hlast : toks.getLast? with
  | none => exact Iff.rfl
  | some k =>
    rcases h.token_bounds k (List.mem_of_getLast? hlast) with ⟨hf, -⟩ | ⟨hf, -, hp, -⟩
    · simp [matchOf, hf]
    · have hf0 : k.flag ≠ 0 := by omega
      have hp0 : k.payload ≠ 0 := by omega
      simp [matchOf, hf0, hp0]

/-- A text's scan ends, with tokens that scan the text and a last pair that is zero in both or in none. -/
theorem exists_scan (c : Cfg) (text : List Byte) :
    ∃ a, tokenizeText c text = .ok a ∧ ScansTo c text 0 a.toks ∧ (a.dist = 0 ↔ a.len = 0) := by
  obtain ⟨toks, hscan, htok⟩ := tokenizeText_spec c text
  exact ⟨_, htok, hscan, hscan.last_found⟩

/-- A replay that ends in an error raises DecodeUnderrunError or refuses (42_tokenstream.md R111, R113). -/
theorem meaning_of_replay_error {i : Instr} {s : State} {toks : List Token} {o : Out} {x : Stop}
    (hi : .decodeUnderrun ∈ reachableErrors i) (h : replay toks o = .error x) : Meaning i s (.error x) := by
  rcases replay_error h with rfl | ⟨k, -, -, -, rfl⟩
  · exact .raises hi
  · exact .refuses _

/-- TOKENIZE's rule completes with the scan. -/
theorem tokenize_meaning (s : State) : Ends .tokenize s (exec .tokenize s) := by
  refine .underConfig fun _ => ?_
  obtain ⟨a, ha, -, hfound⟩ := exists_scan s.cfg s.text
  rw [ha]
  exact .completes { found := fun _ => hfound }

/-- ENCODE's rule completes under a well-formed configuration: `encodeScan_spec`. -/
theorem encode_meaning (s : State) : Ends .encode s (exec .encode s) := by
  refine .underConfig fun hwf => ?_
  obtain ⟨a, ha, hscan, hfound⟩ := exists_scan s.cfg s.text
  obtain ⟨body, -, -, henc⟩ := encodeScan_spec hwf hscan
  simp only [ha, henc]
  exact .completes {
    out := fun _ => by simpa using packOut_ok _, freq := fun _ => freqOk_countFlags _, found := fun _ => hfound }

/-- DECODE's rule fails in one of its three stages, or completes (45_container.md R155, R161). -/
theorem decode_meaning (s : State) : Ends .decode s (exec .decode s) := by
  refine .underConfig fun _ => ?_
  unfold decodeBits
  cases hd : deserialize s.cfg ⟨0, s.inputBits⟩ with
  | error e => exact .raises (by simp [deserialize_error hd, reachableErrors])
  | ok p =>
    simp only
    cases hl : tokenLoop s.cfg p.tree p.rd.remaining p.rd [] with
    | error e => exact .raises (by rcases tokenLoop_error hl with rfl | rfl <;> simp [reachableErrors])
    | ok q =>
      simp only
      cases hr : replay q.1 Out.empty with
      | error x => exact meaning_of_replay_error (by simp [reachableErrors]) hr
      | ok o => exact .completes { out := fun _ => replay_ok Out.ok_empty hr }

/-- SERIALIZE and HEADER refuse a flag that is too wide, and raise nothing (44_treecodec.md R136). -/
theorem serialize_error {c : Cfg} {t : CodeTree} {x : Stop} (h : serialize c t = .error x) : ∃ r, x = .refuse r := by
  rcases serialize_spec c t with ⟨-, hok⟩ | ⟨v, -, hrefuse⟩
  · exact absurd (hok.symm.trans h) (by simp)
  · exact ⟨_, (Except.error.inj (hrefuse.symm.trans h)).symm⟩

/-- What every instruction does: a case for each, split where its own rule can stop. -/
theorem exec_ends (i : Instr) (s : State) : Ends i s (exec i s) := by
  cases i with
  | find =>
    exact .underConfig (r := .ok _) fun _ => .completes { found := fun _ => (findMatch_best s.cfg s.text s.pos).zero_iff }
  | tokenize => exact tokenize_meaning s
  | detokenize =>
    refine .underConfig fun _ => ?_
    cases hr : replay s.tokens Out.empty with
    | error x => exact meaning_of_replay_error (by simp [reachableErrors]) hr
    | ok o => exact .completes { out := fun _ => replay_ok Out.ok_empty hr }
  | build =>
    exact .underConfig (r := .ok _) fun _ => .completes { freq := fun _ => freqOk_countFlags _ }
  | getcode =>
    refine .underConfig fun _ => ?_
    cases codeOf s.flagOperand s.tree with
    | none => exact .raises (by simp [reachableErrors])
    | some code => exact .completes {}
  | serialize =>
    refine .underConfig fun _ => ?_
    cases hs : serialize s.cfg s.tree with
    | error x =>
      obtain ⟨r, rfl⟩ := serialize_error hs
      exact .refuses r
    | ok p => exact .completes {}
  | header =>
    refine .underConfig fun _ => ?_
    cases hs : serialize s.cfg s.tree with
    | error x =>
      obtain ⟨r, rfl⟩ := serialize_error hs
      exact .refuses r
    | ok p => exact .completes {}
  | deserialize =>
    refine .underConfig fun _ => ?_
    cases hd : deserialize s.cfg s.reader with
    | error e => exact .raises (by simp [deserialize_error hd, reachableErrors])
    | ok p => exact .completes {}
  | encode => exact encode_meaning s
  | decode => exact decode_meaning s
  | lit p =>
    refine ⟨_, ?_, rfl⟩
    cases hl : s.out.lit p with
    | error x =>
      unfold Out.lit at hl
      split at hl
      · exact absurd hl (by simp)
      · exact Except.error.inj hl ▸ .refuses _
    | ok o => exact .completes { out := fun hout => Out.lit_ok hout hl }
  | copy d l =>
    refine ⟨_, ?_, rfl⟩
    cases hc : Out.copy d l s.out with
    | error x => exact Out.copy_error hc ▸ .raises (by simp [reachableErrors])
    | ok o => exact .completes { out := fun hout => Out.copy_ok hout hc }
  | internal =>
    refine ⟨_, ?_, rfl⟩
    cases hl : parseSubtree s.cfg s.cursor with
    | error e => exact .raises (by simp [parse_error hl, reachableErrors])
    | ok q =>
      simp only
      cases hr : parseSubtree s.cfg q.2 with
      | error e => exact .raises (by simp [parse_error hr, reachableErrors])
      | ok q' => exact .completes {}
  | leaf v => exact ⟨.ok _, .completes {}, rfl⟩
  | structSize size =>
    refine ⟨_, ?_, rfl⟩
    split
    · exact .completes {}
    · unfold readStructure
      cases s.reader.read size with
      | none => exact .raises (by simp [reachableErrors])
      | some q => exact .completes {}
  | pad => exact ⟨.ok _, .completes {}, rfl⟩

/-- An instruction that goes on has completed, or has raised one of its errors over the elements it writes. -/
theorem exec_next {i : Instr} {s t : State} (h : exec i s = .next t) :
    Completes i s t ∨ ∃ e ∈ reachableErrors i, t = s.raise (writes i) e := by
  obtain ⟨r, hr, hend⟩ := exec_ends i s
  rcases conclude_next.1 (hend.symm.trans h) with rfl | ⟨e, rfl, rfl⟩
  · cases hr with
    | completes hc => exact .inl hc
  · cases hr with
    | raises he => exact .inr ⟨e, he, rfl⟩

/-- No instruction faults. -/
theorem exec_ne_fault (i : Instr) (s : State) (f : Fault) : exec i s ≠ .fault f := by
  obtain ⟨r, hr, hend⟩ := exec_ends i s
  rw [hend]
  cases hr <;> simp [conclude]

/-- An instruction that can raise an error writes neither `DIST` nor `LEN`. -/
theorem found_not_written {i : Instr} {e : ErrKind} (h : e ∈ reachableErrors i) : Elem.found ∉ writes i := by
  cases i with
  | find | tokenize | build | serialize | header | encode | lit | leaf | pad => exact absurd h List.not_mem_nil
  | detokenize | getcode | deserialize | decode | copy | internal | structSize => simp [writes]

/-- An instruction that completes keeps the invariant. -/
theorem Completes.inv {i : Instr} {s t : State} (h : Completes i s t) (hs : Inv s) : Inv t := by
  obtain ⟨hin, ⟨hout, hfreq, hfound⟩, herr⟩ := inv_iff.1 hs
  obtain ⟨-, -, hibuf, hilen, -⟩ := h.frame
  refine inv_iff.2 ⟨by rwa [hibuf, hilen], ⟨h.out hout, h.freq hfreq, h.found hfound⟩, ?_⟩
  rcases h.report with ⟨-, hst, he⟩ | ⟨-, hst, he⟩
  · simp [hst, he]
  · rwa [hst, he]

/-- An instruction that goes on keeps the invariant. -/
theorem exec_keeps_inv {i : Instr} {s t : State} (h : exec i s = .next t) (hs : Inv s) : Inv t := by
  rcases exec_next h with hc | ⟨e, he, rfl⟩
  · exact hc.inv hs
  · exact hs.raise (found_not_written he) e

/-- An instruction that goes on leaves the input and `CFG` alone (10_state.md R20, R34). -/
theorem exec_input {i : Instr} {s t : State} (h : exec i s = .next t) :
    t.ibuf = s.ibuf ∧ t.ilen = s.ilen ∧ t.cfg = s.cfg := by
  rcases exec_next h with hc | ⟨e, -, rfl⟩
  · obtain ⟨-, -, hibuf, hilen, hcfg, -⟩ := hc.frame
    exact ⟨hibuf, hilen, hcfg⟩
  · exact ⟨State.raise_ibuf _ _ _, State.raise_ilen _ _ _, State.raise_cfg _ _ _⟩

/-! ## What a step can do -/

/-- The moves that are done at once, and the state after each: a host write, a reset, or a token form where only residual
bits are left. -/
inductive MovesTo (s : State) : Event → State → Prop where
  | reset : MovesTo s .reset s.resetAgain
  | loadInput (bytes : List Byte) :
      MovesTo s (.loadInput bytes) { s with ibuf := Memory.ofBytes bytes, ilen := bytes.length }
  | setCfg (c : Cfg) : MovesTo s (.setCfg c) { s with cfg := c }
  | setPos (v : Nat) : MovesTo s (.setPos v) { s with pos := v }
  | setTok (toks : List Token) : MovesTo s (.setTok toks) { s with tok := toks }
  | setFlag (v : Nat) : MovesTo s (.setFlag v) { s with flag := v }
  | setTree (t : CodeTree) : MovesTo s (.setTree t) { s with tree := t }
  | setRp (v : Nat) : MovesTo s (.setRp v) { s with rp := v }
  | residual (f : Form) : MovesTo s (.interpret f) s

/-- Taking up a move does it at once, or gives an instruction with both cursors and `TOK` moved over its form, or an error of
a form, or a refusal. -/
theorem takeUp_cases (s : State) (e : Event) :
    (∃ t, takeUp s e = .moved t ∧ MovesTo s e t) ∨
    (∃ i si rp toks, takeUp s e = .run i { s with si := si, rp := rp, tok := toks }) ∨
    (∃ k f, takeUp s e = .raises k (formElems f) s) ∨ ∃ r, takeUp s e = .refuses r := by
  cases e with
  | reset => exact .inl ⟨_, rfl, .reset⟩
  | loadInput bytes => exact .inl ⟨_, rfl, .loadInput bytes⟩
  | setCfg c => exact .inl ⟨_, rfl, .setCfg c⟩
  | setPos v => exact .inl ⟨_, rfl, .setPos v⟩
  | setTok toks => exact .inl ⟨_, rfl, .setTok toks⟩
  | setFlag v => exact .inl ⟨_, rfl, .setFlag v⟩
  | setTree t => exact .inl ⟨_, rfl, .setTree t⟩
  | setRp v => exact .inl ⟨_, rfl, .setRp v⟩
  | command code =>
    simp only [takeUp]
    cases decodeCommand code with
    | ok i => exact .inr (.inl ⟨i, s.si, s.rp, s.tok, rfl⟩)
    | error x => exact .inr (.inr (.inr ⟨_, rfl⟩))
  | interpret f =>
    rcases fetchForm_cases f s with ⟨i, sb, r, hrun⟩ | ⟨k, hraise⟩ | hmoved | hrefused
    · exact .inr (.inl ⟨i, _, _, _, hrun⟩)
    · exact .inr (.inr (.inl ⟨k, f, hraise⟩))
    · exact .inl ⟨s, hmoved, .residual f⟩
    · exact .inr (.inr (.inr ⟨_, hrefused⟩))

/-- A step with nothing pending changes nothing (70_reset_and_hazards.md R191). -/
theorem step_of_idle {s : State} (h : s.events = []) : step s = .next s := by
  simp only [step, fetch, h]

/-- A step takes up the head of the pending moves (log entry 3). -/
theorem fetch_of_event {s : State} {e : Event} {rest : List Event} (h : s.events = e :: rest) :
    fetch s = takeUp { s with events := rest } e := by
  simp only [fetch, h]

/-- A move that is done at once gives the state after it. -/
theorem step_of_moved {s t : State} (h : fetch s = .moved t) : step s = .next t := by
  simp only [step, h]

/-- An instruction that was taken up is run. -/
theorem step_of_run {s t : State} {i : Instr} (h : fetch s = .run i t) : step s = exec i t := by
  simp only [step, h]

/-- An error met while a form was read is raised. -/
theorem step_of_raises {s t : State} {e : ErrKind} {U : List Elem} (h : fetch s = .raises e U t) :
    step s = .next (t.raise U e) := by
  simp only [step, h]

/-- A refusal met while a move was taken up is the step's. -/
theorem step_of_refuses {s : State} {r : Refusal} (h : fetch s = .refuses r) : step s = .refused r := by
  simp only [step, h]

/-- What a step is, whatever is pending: it changes nothing, does a move, runs an instruction, raises an error of a form, or
is refused. -/
theorem step_cases (s : State) :
    step s = .next s ∨ (∃ r, step s = .refused r) ∨ ∃ e rest, s.events = e :: rest ∧
      ((∃ t, step s = .next t ∧ MovesTo { s with events := rest } e t) ∨
        (∃ i si rp toks, step s = exec i { s with events := rest, si := si, rp := rp, tok := toks }) ∨
        ∃ k f, step s = .next (State.raise (formElems f) k { s with events := rest })) := by
  cases hev : s.events with
  | nil => exact .inl (step_of_idle hev)
  | cons e rest =>
    rcases takeUp_cases { s with events := rest } e with
      ⟨t, htake, hmove⟩ | ⟨i, si, rp, toks, htake⟩ | ⟨k, f, htake⟩ | ⟨r, htake⟩
    all_goals have hfetch := (fetch_of_event hev).trans htake
    · exact .inr (.inr ⟨e, rest, rfl, .inl ⟨t, step_of_moved hfetch, hmove⟩⟩)
    · exact .inr (.inr ⟨e, rest, rfl, .inr (.inl ⟨i, si, rp, toks, step_of_run hfetch⟩)⟩)
    · exact .inr (.inr ⟨e, rest, rfl, .inr (.inr ⟨k, f, step_of_raises hfetch⟩)⟩)
    · exact .inr (.inl ⟨r, step_of_refuses hfetch⟩)

/-- The reset state meets the invariant, whatever moves and error count the model keeps over a reset. -/
theorem inv_resetAgain (s : State) : Inv s.resetAgain :=
  inv_iff.2 ⟨Out.ok_empty, ⟨Out.ok_empty, freqOk_nil, Iff.rfl⟩, by simp [State.resetAgain, State.reset]⟩

/-- A move that is done at once keeps the invariant. -/
theorem MovesTo.inv {s t : State} {e : Event} (h : MovesTo s e t) (hs : Inv s) : Inv t := by
  have parts := inv_iff.1 hs
  cases h with
  | reset => exact inv_resetAgain s
  | loadInput bytes => exact inv_iff.2 ⟨⟨Memory.wf_ofBytes _, Memory.below_ofBytes _⟩, parts.2⟩
  | setCfg | setPos | setTok | setFlag | setTree | setRp | residual => exact inv_iff.2 parts

/-! ## The rules -/

/-- Settles O2: the reset state is a state after a reset. -/
theorem resetMeetsInvariant : Obligations.ResetMeetsInvariant := inv_resetAgain State.reset

/-- Settles O3: by `step_cases` a step is idle, a move (`MovesTo.inv`), an instruction (`exec_keeps_inv`) or an error of a
form (`Inv.raise`); taking the move away and moving the cursors over a form touches nothing the invariant speaks of. -/
theorem everyStepKeepsInvariant : Obligations.EveryStepKeepsInvariant := by
  intro s t hs h
  have parts := inv_iff.1 hs
  have hs' (rest : List Event) (si rp : Nat) (toks : List Token) :
      Inv { s with events := rest, si := si, rp := rp, tok := toks } := inv_iff.2 parts
  rcases step_cases s with hidle | ⟨r, hr⟩ | ⟨e, rest, -, ⟨u, hu, hmove⟩ | ⟨i, si, rp, toks, hrun⟩ | ⟨k, f, hraise⟩⟩
  · obtain rfl := Host.Outcome.next.inj (hidle.symm.trans h)
    exact hs
  · exact absurd (hr.symm.trans h) (by simp)
  · obtain rfl := Host.Outcome.next.inj (hu.symm.trans h)
    exact hmove.inv (hs' rest s.si s.rp s.tok)
  · exact exec_keeps_inv (hrun.symm.trans h) (hs' rest si rp toks)
  · obtain rfl := Host.Outcome.next.inj (hraise.symm.trans h)
    exact (hs' rest s.si s.rp s.tok).raise (by cases f <;> simp [formElems]) k

/-- Settles O5: by `step_cases`, where an instruction leaves the input and `CFG` alone (`exec_input`) and so does a raise; of
the moves only a load, a write of `CFG` and a reset touch them. -/
theorem onlyTheHostWritesInput : Obligations.OnlyTheHostWritesInput := by
  intro s t h
  have same (hin : t.ibuf = s.ibuf ∧ t.ilen = s.ilen ∧ t.cfg = s.cfg) :
      (t.ibuf = s.ibuf ∧ t.ilen = s.ilen ∨
        (∃ bytes rest, s.events = .loadInput bytes :: rest) ∨ ∃ rest, s.events = .reset :: rest) ∧
      (t.cfg = s.cfg ∨ (∃ c rest, s.events = .setCfg c :: rest) ∨ ∃ rest, s.events = .reset :: rest) :=
    ⟨.inl ⟨hin.1, hin.2.1⟩, .inl hin.2.2⟩
  rcases step_cases s with hidle | ⟨r, hr⟩ | ⟨e, rest, hev, ⟨u, hu, hmove⟩ | ⟨i, si, rp, toks, hrun⟩ | ⟨k, f, hraise⟩⟩
  · obtain rfl := Host.Outcome.next.inj (hidle.symm.trans h)
    exact same ⟨rfl, rfl, rfl⟩
  · exact absurd (hr.symm.trans h) (by simp)
  · obtain rfl := Host.Outcome.next.inj (hu.symm.trans h)
    cases hmove with
    | reset => exact ⟨.inr (.inr ⟨rest, hev⟩), .inr (.inr ⟨rest, hev⟩)⟩
    | loadInput bytes => exact ⟨.inr (.inl ⟨bytes, rest, hev⟩), .inl rfl⟩
    | setCfg c => exact ⟨.inl ⟨rfl, rfl⟩, .inr (.inl ⟨c, rest, hev⟩)⟩
    | setPos | setTok | setFlag | setTree | setRp | residual => exact same ⟨rfl, rfl, rfl⟩
  · have hin := exec_input (hrun.symm.trans h)
    exact same hin
  · obtain rfl := Host.Outcome.next.inj (hraise.symm.trans h)
    exact same ⟨State.raise_ibuf _ _ _, State.raise_ilen _ _ _, State.raise_cfg _ _ _⟩

/-- Settles O56: an operation completes with `DONE` and `NONE`, or raises one of its kinds (`exec_next`). -/
theorem operationsReportTheirEnd : Obligations.OperationsReportTheirEnd := by
  intro i s t hi h
  rcases exec_next h with hc | ⟨e, he, rfl⟩
  · rcases hc.report with ⟨-, hdone⟩ | ⟨hno, -⟩
    · exact .inl hdone
    · exact absurd hi hno
  · exact .inr ⟨e, he, State.raise_status _ _ _, State.raise_err _ _ _⟩

/-- Settles O57: no instruction faults (`exec_ne_fault`), and a step that is no instruction ends otherwise (`step_cases`). -/
theorem nothingFaults : Obligations.NothingFaults := by
  refine ⟨exec_ne_fault, fun s f => ?_⟩
  rcases step_cases s with h | ⟨r, h⟩ | ⟨e, rest, -, ⟨u, h, -⟩ | ⟨i, si, rp, toks, h⟩ | ⟨k, g, h⟩⟩
  · simp [h]
  · simp [h]
  · simp [h]
  · rw [h]
    exact exec_ne_fault _ _ _
  · simp [h]

/-- Settles O58: an instruction that completes leaves alone what `Frame` says, and a raise touches only what is written
(`raise_same`), besides `STATUS`, `ERR` and the error count. -/
theorem frameOfEveryInstruction : Obligations.FrameOfEveryInstruction := by
  intro i s t h
  rcases exec_next h with hc | ⟨e, he, rfl⟩
  · obtain ⟨hothers, hsi, hibuf, hilen, hcfg, hevents, hfailures⟩ := hc.frame
    refine ⟨hothers, hsi, hibuf, hilen, hcfg, hevents, .inl hfailures, fun hi => ?_⟩
    rcases hc.report with ⟨hop, -⟩ | ⟨-, hsame⟩
    · exact absurd hop hi
    · exact .inl hsame
  · exact ⟨fun x hx => raise_same e s hx, State.raise_si s _ e, State.raise_ibuf _ _ _, State.raise_ilen _ _ _,
      State.raise_cfg _ _ _, State.raise_events _ _ _, .inr ⟨State.raise_status _ _ _, State.raise_failures _ _ _⟩,
      fun _ => .inr ⟨e, he, State.raise_status _ _ _, State.raise_err _ _ _⟩⟩

end Sys2Proof.Machine
end

section
/-! SUPPORT. The configuration, the bits of a buffer and the moves a step takes up, each with the statements about it
(00_scope.md R14; 40_bitstream.md R87 to R92; 30_encoding.md R81, R82; 70_reset_and_hazards.md R190, R191). -/

namespace Sys2Proof.Machine

/-! ## The configuration -/

/-- Settles O10: a configuration meets R14c for the eight remainders of `k` exactly when it does for every `k`
(`wf_single_leaf`). -/
theorem configWellFormedIffR14 : Obligations.ConfigWellFormedIffR14 := by
  refine ⟨by decide, fun c => ⟨fun h => ?_, fun ⟨hl, hw, hw62, hodd⟩ => ?_⟩⟩
  · exact ⟨wf_lengthBits h, (wf_windowBits h).1, (wf_windowBits h).2, fun k => wf_single_leaf h⟩
  · have hall : ((List.range 8).all fun j => (65 + c.windowBits + (j + 1) * c.lengthBits) % 8 != 0) = true :=
      List.all_eq_true.2 fun j _ => bne_iff_ne.2 (hodd (j + 1) (Nat.le_add_left 1 j))
    simp only [Cfg.wf, Bool.and_eq_true, decide_eq_true_eq]
    exact ⟨⟨⟨hl, hw⟩, hw62⟩, hall⟩

/-- An operation is a rule under a well-formed configuration, so it is refused under any other (R14, D21). -/
theorem exec_of_ill_formed {i : Instr} {s : State} (hi : i ∈ operations) (hwf : s.cfg.wf = false) :
    exec i s = .refused .illFormedConfig := by
  have refused (k : Host.Outcome State Fault Refusal) : underConfig s k = .refused .illFormedConfig :=
    if_neg (by simp [hwf])
  cases i with
  | find | tokenize | detokenize | build | getcode | serialize | header | deserialize | encode | decode => exact refused _
  | lit | copy | internal | leaf | structSize | pad => simp [operations] at hi

/-- Settles O9: `exec_of_ill_formed` for the operations; a form is read under the same test. -/
theorem illFormedConfigRefused : Obligations.IllFormedConfigRefused := by
  refine ⟨fun s i => exec_of_ill_formed, fun s f rest hev hwf => ?_⟩
  have hfetch : fetchForm f { s with events := rest } = .refuses .illFormedConfig := if_neg (by simp [hwf])
  exact step_of_refuses ((fetch_of_event hev).trans hfetch)

/-! ## Bits -/

/-- Settles O13: `bval_uN`, `length_uN`, `uN_bval`. -/
theorem fieldsRoundTrip : Obligations.FieldsRoundTrip := ⟨fun _ _ => bval_uN, length_uN, uN_bval⟩

/-- Settles O14: the input's bits are those of its bytes (`bitsOf_getElem?`), and byte `k` of the text is what the buffer
reads at address `k`. -/
theorem inputBitAddressing : Obligations.InputBitAddressing := by
  intro s
  refine ⟨s.inputBits_length, ?_, fun k hk => ?_⟩
  · calc s.bitRemaining = s.inputBits.length - s.rp := List.length_drop
      _ = 8 * s.ilen - s.rp := by rw [s.inputBits_length]
  · have hbyte : s.text.getD (k / 8) 0 = s.ibuf.read (k / 8) := by
      rw [List.getD_eq_getElem?_getD, State.text, Memory.getElem?_bytes, if_pos (by omega), Option.getD_some]
    rw [State.inputBits, bitsOf_getElem? _ _ (by rwa [s.text_length]), hbyte]

/-- Settles O15: `length_packBits` and `bitsOf_packOut`. -/
theorem packedBitsReadBack : Obligations.PackedBitsReadBack := by
  intro w hw
  refine ⟨length_packBits w hw, fun s hbuf hlen => ?_⟩
  rw [State.inputBits, State.text, hbuf, hlen]
  exact bitsOf_packOut w hw

/-- Settles O46: PAD is `padBits`, whose zero bits are `padLength` many. -/
theorem padToByteBoundary : Obligations.PadToByteBoundary := by
  intro s
  exact ⟨rfl, length_padBits s.w, Nat.le_of_lt_succ (padLength_lt s.wlen)⟩

/-! ## Commands -/

/-- The ten command codes and their rows (30_encoding.md R81). -/
def commandTable : List (BitVec 4 × Instr) :=
  [(0b0001, .find), (0b0010, .tokenize), (0b0011, .detokenize), (0b0100, .build), (0b0101, .getcode),
    (0b0110, .serialize), (0b0111, .header), (0b1000, .deserialize), (0b1001, .encode), (0b1010, .decode)]

/-- The codes that decode are those of the table (R81). -/
theorem decodeCommand_eq_ok {code : BitVec 4} {i : Instr} :
    decodeCommand code = .ok i ↔ (code, i) ∈ commandTable := by
  have decodes : ∀ p ∈ commandTable, decodeCommand p.1 = .ok p.2 := by decide
  have listed : ∀ code, (decodeCommand code).toOption.all (fun i => (code, i) ∈ commandTable) = true := by decide
  refine ⟨fun h => ?_, decodes (code, i)⟩
  have hcode := listed code
  rw [h] at hcode
  exact of_decide_eq_true hcode

/-- Settles O11: `commandTable` is the statement's list. -/
theorem commandCodes : Obligations.CommandCodes := by
  intro code i
  exact decodeCommand_eq_ok

/-- A command's row is an operation. -/
theorem decodeCommand_operation {code : BitVec 4} {i : Instr} (h : decodeCommand code = .ok i) : i ∈ operations := by
  have listed : ∀ p ∈ commandTable, p.2 ∈ operations := by decide
  exact listed _ (decodeCommand_eq_ok.1 h)

/-- An operation has no operand that could be too wide. -/
theorem wf_of_operation {i : Instr} (h : i ∈ operations) (c : Cfg) : i.wf c = true := by
  cases i with
  | find | tokenize | detokenize | build | getcode | serialize | header | deserialize | encode | decode => rfl
  | lit | copy | internal | leaf | structSize | pad => simp [operations] at h

/-- Settles O6: the command is taken up and decoded, and its row is an operation. -/
theorem stepRunsTheCommand : Obligations.StepRunsTheCommand := by
  intro s code rest i hev hcode
  have hfetch : fetch s = .run i { s with events := rest } := by rw [fetch_of_event hev, takeUp, hcode]
  exact ⟨wf_of_operation (decodeCommand_operation hcode) _, step_of_run hfetch⟩

/-- Settles O8: the six reserved codes decode to nothing, and the command port refuses them. -/
theorem reservedCommandsRefused : Obligations.ReservedCommandsRefused := by
  intro s code rest hev hreserved
  have reserved : ∀ code : BitVec 4, (code = 0 ∨ 11 ≤ code.toNat) →
      decodeCommand code = .error (.reservedCommand code) := by decide
  have hfetch : fetch s = .refuses (.reservedCommand code) := by
    rw [fetch_of_event hev, takeUp, reserved code hreserved]
  exact step_of_refuses hfetch

/-! ## Moves -/

/-- Settles O1: the reset state by its definition, a reset step by what the move gives. -/
theorem resetValues : Obligations.ResetValues := by
  refine ⟨by decide, fun s rest hev => ?_⟩
  exact step_of_moved (fetch_of_event hev)

/-- Settles O4: a host write is done at once, and what it gives is the statement's state. -/
theorem hostWritesChangeOneElement : Obligations.HostWritesChangeOneElement := by
  intro s rest
  refine ⟨step_of_idle, fun bytes hev => ?_, fun c hev => ?_, fun v hev => ?_, fun ts hev => ?_, fun v hev => ?_,
    fun t hev => ?_, fun v hev => ?_⟩
  · exact ⟨Memory.ofBytes bytes, step_of_moved (fetch_of_event hev), Memory.wf_ofBytes bytes, Memory.bytes_ofBytes bytes⟩
  all_goals exact step_of_moved (fetch_of_event hev)

/-! ## Container forms -/

/-- A form is there to be read, a token only where more than `LENGTH_BITS` bits remain (45_container.md R157). -/
theorem formPresent_of_bits {s : State} {f : Form} (h : f = .token → s.cfg.lengthBits < s.bitRemaining) :
    formPresent s f = true := by
  cases f with
  | token => exact decide_eq_true (h rfl)
  | node | structSize | pad => rfl

/-- A form that is there and decodes is run, with both cursors past it and a token recorded. -/
theorem fetchForm_of_ok {s : State} {f : Form} {i : Instr} {sb : Bits} {r : Reader} (hwf : s.cfg.wf = true)
    (hp : f = .token → s.cfg.lengthBits < s.bitRemaining)
    (h : decodeForm s.cfg s.tree f (s.sb.drop s.si) s.reader = .ok (i, sb, r)) :
    fetchForm f s = .run i { s with si := s.sb.length - sb.length, rp := r.rp, tok := s.tok ++ asTokens i } := by
  simp only [fetchForm, hwf, formPresent_of_bits hp, h, if_true]

/-- A form that is there and does not decode raises its error. -/
theorem fetchForm_of_error {s : State} {f : Form} {e : ErrKind} (hwf : s.cfg.wf = true)
    (hp : f = .token → s.cfg.lengthBits < s.bitRemaining)
    (h : decodeForm s.cfg s.tree f (s.sb.drop s.si) s.reader = .error e) :
    fetchForm f s = .raises e (formElems f) s := by
  simp only [fetchForm, hwf, formPresent_of_bits hp, h, if_true]

/-- Settles O7: a token is not there where at most `LENGTH_BITS` bits remain; otherwise `fetchForm_of_ok` and
`fetchForm_of_error`. -/
theorem stepRunsTheForm : Obligations.StepRunsTheForm := by
  intro s f rest hev hwf
  refine ⟨fun hf hres => ?_, fun hp => ⟨fun i sb r h => ?_, fun e h => ?_⟩⟩
  · subst hf
    have habsent : formPresent { s with events := rest } .token = false := decide_eq_false (Nat.not_lt.2 hres)
    exact step_of_moved ((fetch_of_event hev).trans (by simp [takeUp, fetchForm, hwf, habsent]))
  · exact step_of_run ((fetch_of_event hev).trans (fetchForm_of_ok (s := { s with events := rest }) hwf hp h))
  · have hfetch := (fetch_of_event hev).trans (fetchForm_of_error (s := { s with events := rest }) hwf hp h)
    exact ⟨_, step_of_raises hfetch, ⟨State.raise_status _ _ _, State.raise_err _ _ _⟩, State.raise_ibuf _ _ _,
      State.raise_ilen _ _ _, State.raise_cfg _ _ _, State.raise_events _ _ _⟩

/-- Settles O12: each word is evaluated. -/
theorem specWordsDecode : Obligations.SpecWordsDecode := by
  exact ⟨by decide, by decide, by decide, by decide, by decide, by decide⟩

end Sys2Proof.Machine
end

section
/-! SUPPORT. TOKENIZE, DETOKENIZE, LIT and COPY as whole instructions (42_tokenstream.md): the tokens of a text, what replays
and what stops a replay. -/

namespace Sys2Proof.Machine

/-! ## TOKENIZE -/

/-- A TOKENIZE that goes on has completed with the scan of the text (R105). -/
theorem exec_tokenize_next {s t : State} (h : exec .tokenize s = .next t) :
    s.cfg.wf = true ∧ ∃ a, t = completed (s.withScan a) ∧ ScansTo s.cfg s.text 0 a.toks := by
  have hwf : s.cfg.wf = true := (underConfig_next.1 h).1
  obtain ⟨a, ha, hscan⟩ := exists_tokenizeText s.cfg s.text
  exact ⟨hwf, a, Host.Outcome.next.inj (h.symm.trans (exec_tokenize_of_scan hwf ha)), hscan⟩

/-- Settles O20: the tokens are a scan's, whose spans add up to the text and which fit (`ScansTo.span_sum`,
`ScansTo.token_bounds`). -/
theorem tokensCoverAndFit : Obligations.TokensCoverAndFit := by
  intro s t h
  obtain ⟨-, a, rfl, hscan⟩ := exec_tokenize_next h
  refine ⟨?_, hscan.token_bounds⟩
  calc (a.toks.map spanOf).sum = s.text.length := (Nat.zero_add _).symm.trans hscan.span_sum
    _ = s.ilen := s.text_length

/-! ## What replays, and what stops a replay -/

/-- A list that replays, from the empty output: the bytes it stands for, in canonical form (R110 to R115). -/
theorem replay_expand {toks : List Token} (h : Replayable 0 toks) :
    ∃ m : Memory, replay toks Out.empty = .ok ⟨m, (expand toks []).length⟩ ∧ m.wf ∧
      m.bytes (expand toks []).length = expand toks [] := by
  obtain ⟨⟨m, cur⟩, hreplay, ⟨hm, -⟩, -, hbytes⟩ := replay_spec Out.ok_empty h
  obtain rfl : cur = (expand toks []).length := (Out.bytes_length _).symm.trans (congrArg List.length hbytes)
  exact ⟨m, hreplay, hm, hbytes⟩

/-- The first token that does not replay stops the replay, as it would alone behind the front's bytes (R110). -/
theorem replay_stop {front back : List Token} {k : Token} {x : Stop} (hfront : Replayable 0 front)
    (hk : ∀ o : Out, o.cur = (front.map spanOf).sum → o.token k = .error x) :
    replay (front ++ k :: back) Out.empty = .error x := by
  obtain ⟨o, hreplay, -, hcur, -⟩ := replay_spec Out.ok_empty hfront
  rw [replay_append hreplay, replay, hk o (hcur.trans (Nat.zero_add _))]

/-- A copy of at least one byte from before the start raises DecodeUnderrunError, whatever follows (R113). -/
theorem replay_underrun {front : List Token} (back : List Token) {k : Token} (hfront : Replayable 0 front)
    (hlen : 1 ≤ k.payload) (hfar : (front.map spanOf).sum < k.flag) :
    replay (front ++ k :: back) Out.empty = .error (.raise .decodeUnderrun) := by
  refine replay_stop hfront fun o hcur => ?_
  obtain ⟨l, hl⟩ : ∃ l, k.payload = l + 1 := ⟨k.payload - 1, by omega⟩
  rw [Out.token, if_neg (by omega), hl, Out.copy_underrun (.inr (by omega))]

/-- A literal above 255 is refused where it is reached, whatever follows (R111, D14). -/
theorem replay_wide_literal {front : List Token} (back : List Token) {k : Token} (hfront : Replayable 0 front)
    (hf : k.flag = 0) (hwide : 255 < k.payload) :
    replay (front ++ k :: back) Out.empty = .error (.refuse (.literalTooWide k.payload)) := by
  refine replay_stop hfront fun o _ => ?_
  rw [Out.token, if_pos hf, Out.lit, if_neg (by omega)]

/-! ## DETOKENIZE -/

/-- DETOKENIZE ends as the replay of its tokens does (R110). -/
theorem exec_detokenize_of_replay {s : State} {o : Out} (hwf : s.cfg.wf = true)
    (h : replay s.tokens Out.empty = .ok o) : exec .detokenize s = .next (completed (s.withOut o)) :=
  underConfig_next.2 ⟨hwf, conclude_next.2 (.inl (by rw [h]; rfl))⟩

/-- DETOKENIZE stops where the replay does (R110). -/
theorem exec_detokenize_of_stop {s : State} {x : Stop} (hwf : s.cfg.wf = true)
    (h : replay s.tokens Out.empty = .error x) : exec .detokenize s = conclude [.obuf] s (.error x) := by
  simp only [exec, execDetokenize, underConfig, hwf, h, if_true]

/-- Settles O22: `replay_expand`. -/
theorem detokenizeReplays : Obligations.DetokenizeReplays := by
  intro s hwf hrep
  obtain ⟨m, hreplay, hm, hbytes⟩ := replay_expand hrep
  exact ⟨m, exec_detokenize_of_replay hwf hreplay, hm, hbytes⟩

/-- Settles O21: TOKENIZE's tokens fit, so DETOKENIZE reads them as they are; they replay, and stand for the text
(`ScansTo.replays`). -/
theorem tokensReplayToTheText : Obligations.TokensReplayToTheText := by
  intro s t h
  obtain ⟨hwf, a, rfl, hscan⟩ := exec_tokenize_next h
  have htokens : (completed (s.withScan a)).tokens = a.toks := State.tokens_of_fits (hscan.tokens_fit hwf)
  obtain ⟨hrep, htext⟩ := hscan.replays
  rw [List.take_zero] at htext
  obtain ⟨m, hrun, -, hbytes⟩ := detokenizeReplays (completed (s.withScan a)) hwf (by rwa [htokens])
  rw [htokens, htext] at hrun hbytes
  exact ⟨_, hrun, rfl, rfl, s.text_length, hbytes⟩

/-- Settles O23: the replay stops with DecodeUnderrunError (`replay_underrun`), which is raised over the output alone. -/
theorem detokenizeUnderrun : Obligations.DetokenizeUnderrun := by
  intro s front back k hwf htok hfront hlen hfar
  have hstop := replay_underrun back hfront hlen hfar
  rw [← htok] at hstop
  exact ⟨_, _, exec_detokenize_of_stop hwf hstop⟩

/-! ## LIT and COPY -/

/-- Settles O25: LIT is one write at the cursor (`Memory.read_write`). -/
theorem litAppendsItsByte : Obligations.LitAppendsItsByte := by
  intro s p hp
  have hlit : s.out.lit p = .ok (s.out.append (BitVec.ofNat 8 p)) := if_pos hp
  refine ⟨s.obuf.write s.cur (BitVec.ofNat 8 p), conclude_next.2 (.inl ?_), fun hwf => ?_⟩
  · rw [hlit]
    rfl
  · exact ⟨Memory.wf_write hwf _ _, fun a => Memory.read_write hwf _ _ _⟩

/-- COPY byte by byte: byte `i` of the copy is byte `i mod d` of the last `d`, every other address reads as before (R112,
R115). By induction on the length: after one byte the last `d` bytes are the same ones, turned by one. -/
theorem Out.copy_reads {d : Nat} (l : Nat) {o : Out} (ho : o.mem.wf) (h1 : 1 ≤ d) (h2 : d ≤ o.cur) :
    ∃ m : Memory, Out.copy d l o = .ok ⟨m, o.cur + l⟩ ∧ m.wf ∧
      (∀ i, i < l → m.read (o.cur + i) = o.mem.read (o.cur - d + i % d)) ∧
      ∀ a, (a < o.cur ∨ o.cur + l ≤ a) → m.read a = o.mem.read a := by
  induction l generalizing o with
  | zero => exact ⟨o.mem, rfl, ho, fun i hi => absurd hi (Nat.not_lt_zero i), fun _ _ => rfl⟩
  | succ l ih =>
    have hread := Memory.read_write ho o.cur (b := o.mem.read (o.cur - d))
    obtain ⟨m, hcopy, hm, hnew, hold⟩ := ih (o := o.append (o.mem.read (o.cur - d))) (Memory.wf_write ho _ _)
      (h2.trans (Nat.le_succ _))
    rw [Out.append_cur, Nat.add_right_comm] at hcopy
    simp only [Out.append_cur] at hnew hold
    refine ⟨m, (Out.copy_step h1 h2).trans hcopy, hm, fun i hi => ?_, fun a ha => ?_⟩
    · cases i with
      | zero =>
        rw [hold _ (by omega), Out.append, hread, if_pos (Nat.add_zero _), Nat.zero_mod, Nat.add_zero]
      | succ i =>
        have hmod : i % d < d := Nat.mod_lt i h1
        have hi' := hnew i (by omega)
        rw [Out.append, hread] at hi'
        rw [show o.cur + (i + 1) = o.cur + 1 + i by omega, hi']
        by_cases hlast : i % d + 1 = d
        · have hturn : (i + 1) % d = 0 := by rw [← Nat.mod_add_mod, hlast, Nat.mod_self]
          rw [if_pos (by omega), hturn, Nat.add_zero]
        · have hnext : (i + 1) % d = i % d + 1 := by rw [← Nat.mod_add_mod, Nat.mod_eq_of_lt (by omega)]
          rw [if_neg (by omega), hnext]
          congr 1
          omega
    · rw [hold a (by omega), Out.append, hread, if_neg (by omega)]

/-- Settles O26: `Out.copy_reads` on the state's output. -/
theorem copyRepeatsTheLastBytes : Obligations.CopyRepeatsTheLastBytes := by
  intro s d l hwf h1 h2
  obtain ⟨m, hcopy, hm, hnew, hold⟩ := Out.copy_reads l (o := s.out) hwf h1 h2
  exact ⟨m, conclude_next.2 (.inl (by rw [hcopy]; rfl)), hm, hnew, hold⟩

/-- Settles O27: a copy of no byte reads nothing, and a longer one tests its source first (`Out.copy_underrun`). -/
theorem copyZeroAndUnderrun : Obligations.CopyZeroAndUnderrun := by
  intro s d l
  refine ⟨rfl, fun hl hfar => ?_⟩
  obtain ⟨n, rfl⟩ : ∃ n, l = n + 1 := ⟨l - 1, by omega⟩
  have hstop : Out.copy d (n + 1) s.out = .error (.raise .decodeUnderrun) := Out.copy_underrun hfar
  exact ⟨_, _, conclude_next.2 (.inr ⟨.decodeUnderrun, by rw [hstop], rfl⟩)⟩

end Sys2Proof.Machine
end

section
/-! SUPPORT. BUILD, GETCODE, SERIALIZE and DESERIALIZE as whole operations, and the node forms (43_treebuilder.md,
44_treecodec.md): merging, paths, counts, and what stands in front of the reader. -/

namespace Sys2Proof.Machine

/-! ## BUILD -/

/-- Settles O29: without a token table and tree are empty, else `buildTree_spec` gives the merging. -/
theorem buildMergesTheLowest : Obligations.BuildMergesTheLowest := by
  intro s hwf
  refine ⟨_, _, exec_build_of_wf hwf, ?_⟩
  by_cases h0 : s.tokens = []
  · exact .inl ⟨h0, by rw [h0]; rfl, by rw [h0]; rfl⟩
  · have hne : freqOf s.tokens ≠ [] := fun h => h0 (List.map_eq_nil_iff.1 (countFlags_eq_nil.1 h))
    obtain ⟨t, ht, hmerge, -⟩ := buildTree_spec (freqOk_countFlags _) hne
    exact .inr ⟨h0, t, ht, hmerge⟩

/-- Settles O31: both elements are made of the table, which does not see the order (`countFlags_perm`). -/
theorem buildIgnoresOrder : Obligations.BuildIgnoresOrder := by
  intro s s' t t' hperm h h'
  obtain rfl := exec_build_next h
  obtain rfl := exec_build_next h'
  have htable : freqOf s.tokens = freqOf s'.tokens := countFlags_perm hperm
  exact ⟨congrArg buildTree htable, htable⟩

/-! ## GETCODE -/

/-- Settles O32: the code is `path`, which leads to the flag's first leaf (`follow_pathOf`, `pathOf_first`). -/
theorem getcodeGivesThePath : Obligations.GetcodeGivesThePath := by
  intro s t hwf ht hmem
  obtain ⟨code, hcode⟩ := Option.ne_none_iff_exists'.1 fun hnone => pathOf_eq_none.1 hnone hmem
  refine ⟨code, exec_getcode_of_code hwf (by rw [ht]; exact hcode), follow_pathOf hcode, fun _ => pathOf_first hcode,
    fun hleaf => ?_⟩
  rw [hleaf, pathOf, if_pos rfl] at hcode
  exact (Option.some.inj hcode).symm

/-- A GETCODE that completes has written the flag's code (R128). -/
theorem exec_getcode_done {s t : State} (h : exec .getcode s = .next t) (hdone : t.status = .done) :
    codeOf s.flagOperand s.tree = some t.code := by
  have hwf : s.cfg.wf = true := (underConfig_next.1 h).1
  cases hc : codeOf s.flagOperand s.tree with
  | some code =>
    obtain rfl := Host.Outcome.next.inj ((exec_getcode_of_code hwf hc).symm.trans h)
    rfl
  | none =>
    obtain rfl := Host.Outcome.next.inj ((exec_getcode_of_absent hwf hc).symm.trans h)
    exact absurd hdone (by simp)

/-- Settles O34: a code that is a front of another ends at the same leaf, so the flags are equal (`follow_front`);
that leaves have no children is all this takes, whether or not the flags are distinct. -/
theorem codesArePrefixFree : Obligations.CodesArePrefixFree := by
  intro s u u' g _ hflags h hdone h' hdone' hfront
  obtain ⟨b, hb⟩ := hfront
  have hcode := exec_getcode_done h hdone
  have hcode' := exec_getcode_done h' hdone'
  cases htree : s.tree with
  | none => exact absurd hcode (by simp [htree, codeOf])
  | some t =>
    simp only [htree, codeOf] at hcode hcode'
    have hfollow' := follow_pathOf hcode'
    rw [← hb] at hfollow'
    exact hflags (follow_front (follow_pathOf hcode) hfollow').2

/-! ## SERIALIZE and HEADER -/

/-- SERIALIZE and HEADER refuse a tree by its first flag that is too wide (R136, D30). -/
theorem exec_serialize_of_wide {s : State} {v : Nat} (hwf : s.cfg.wf = true)
    (h : (codeTreeFlags s.tree).find? (fun f => decide (s.cfg.windowSize ≤ f)) = some v) :
    exec .serialize s = .refused (.leafTooWide v) ∧ exec .header s = .refused (.leafTooWide v) := by
  have hrefused : serialize s.cfg s.tree = .error (.refuse (.leafTooWide v)) := by
    rw [← ser_values] at h
    rw [serialize, h]
  constructor
  · simp only [exec, execSerialize, underConfig, hwf, hrefused, conclude, if_true]
  · simp only [exec, execHeader, underConfig, hwf, hrefused, conclude, if_true]

/-- Settles O37: the first flag that is too wide is `v`. -/
theorem wideLeafRefused : Obligations.WideLeafRefused := by
  intro s front back v hwf hflags hfront hwide
  refine exec_serialize_of_wide hwf ?_
  have hnone : front.find? (fun f => decide (s.cfg.windowSize ≤ f)) = none :=
    List.find?_eq_none.2 fun f hf => by simpa using hfront f hf
  rw [hflags, List.find?_append, hnone, Option.none_or, List.find?_cons, decide_eq_true hwide]

/-- A SERIALIZE that goes on has completed with the walk (R135). -/
theorem exec_serialize_next {s u : State} (h : exec .serialize s = .next u) :
    u = completed { s with sb := (ser s.tree).1, lv := (ser s.tree).2 } := by
  have hwf : s.cfg.wf = true := (underConfig_next.1 h).1
  rcases serialize_spec s.cfg s.tree with ⟨hfits, -⟩ | ⟨v, hfind, -⟩
  · exact Host.Outcome.next.inj (h.symm.trans (exec_serialize_of_fits hwf rfl hfits))
  · exact absurd (h.symm.trans (exec_serialize_of_wide hwf hfind).1) (by simp)

/-- Settles O36: the counts of the walk (`serTree_values`, `serTree_zeros`, `serTree_length`). -/
theorem serializeCounts : Obligations.SerializeCounts := by
  intro s u t ht h
  obtain rfl := exec_serialize_next h
  have hser : ser s.tree = serTree t := by rw [ht]; rfl
  simp only [completed, hser, serTree_values, true_and]
  exact ⟨serTree_zeros t, serTree_length t⟩

/-! ## DESERIALIZE -/

/-- Settles O39: `exec_deserialize_of_header`, with the header's length written out (`length_headerBits`). -/
theorem deserializeReadsHeader : Obligations.DeserializeReadsHeader := by
  intro s t more hwf hfit h
  rw [exec_deserialize_of_header hwf hfit h, treeHeader, length_headerBits]
  rfl

/-- DESERIALIZE that completes stands behind the header of its tree (R147). -/
theorem exec_deserialize_consumed {s : State} {p : Parsed} (h : deserialize s.cfg s.reader = .ok p) :
    HeaderFits s.cfg p.tree ∧ s.inputBits.drop s.rp = treeHeader s.cfg p.tree ++ s.inputBits.drop p.rd.rp := by
  obtain ⟨hfit, hread, hrp, -⟩ := deserialize_ok h
  simp only [State.reader_unread, State.reader_rp] at hread hrp
  refine ⟨hfit, ?_⟩
  rw [hrp, ← List.drop_drop, hread, List.drop_left]

/-! ## The node forms -/

/-- The bits of a tree whose flags fit parse back to it: `parseSubtree_serTree` in terms of the flags. -/
theorem parseSubtree_flags {c : Cfg} {t : Tree} (hf : Fits c (some t)) (sb more : Bits) (rp : Nat) (lv : List Nat) :
    parseSubtree c ⟨(serTree t).1 ++ sb, ⟨rp, leafField c (flagsOf t) ++ more⟩, lv⟩ =
      .ok (t, ⟨sb, ⟨rp + (flagsOf t).length * c.windowBits, more⟩, lv ++ flagsOf t⟩) := by
  have h := parseSubtree_serTree hf sb more rp lv
  rwa [serTree_values, length_leafField] at h

/-- INTERNAL completes where both its subtrees parse (R142). -/
theorem exec_internal_of_ok {s : State} {l r : Tree} {k1 k2 : Cursor} (hl : parseSubtree s.cfg s.cursor = .ok (l, k1))
    (hr : parseSubtree s.cfg k1 = .ok (r, k2)) :
    exec .internal s = .next { s.withCursor k2 with tree := some (.internal l r) } :=
  conclude_next.2 (.inl (by simp only [hl, hr]))

/-- INTERNAL raises MalformedHeaderError where a subtree does not parse (R143). -/
theorem exec_internal_of_error {s : State} {e : ErrKind}
    (h : parseSubtree s.cfg s.cursor = .error e ∨
      ∃ l k1, parseSubtree s.cfg s.cursor = .ok (l, k1) ∧ parseSubtree s.cfg k1 = .error e) :
    ∃ u, exec .internal s = .next u ∧ Failed .malformedHeader u := by
  refine ⟨s.raise headerElems .malformedHeader, conclude_next.2 (.inr ⟨_, ?_, rfl⟩), State.raise_status _ _ _,
    State.raise_err _ _ _⟩
  rcases h with hl | ⟨l, k1, hl, hr⟩
  · simp only [hl, parse_error hl]
  · simp only [hl, hr, parse_error hr]

/-- INTERNAL in front of two trees whose flags fit reads both (R142). -/
theorem exec_internal_of_trees {s : State} {l r : Tree} {rest more : Bits} (hf : Fits s.cfg (some (.internal l r)))
    (hsb : s.sb.drop s.si = (serTree l).1 ++ (serTree r).1 ++ rest)
    (hin : s.inputBits.drop s.rp = leafField s.cfg (flagsOf l ++ flagsOf r) ++ more) :
    exec .internal s = .next { s with
      tree := some (.internal l r)
      si := s.si + (serTree l).1.length + (serTree r).1.length
      rp := s.rp + (flagsOf l ++ flagsOf r).length * s.cfg.windowBits
      lv := s.lv ++ (flagsOf l ++ flagsOf r) } := by
  obtain ⟨hfl, hfr⟩ := fits_internal.1 hf
  have hcursor : s.cursor = ⟨(serTree l).1 ++ ((serTree r).1 ++ rest),
      ⟨s.rp, leafField s.cfg (flagsOf l) ++ (leafField s.cfg (flagsOf r) ++ more)⟩, s.lv⟩ := by
    rw [State.cursor, State.reader, hsb, hin, leafField_append, List.append_assoc, List.append_assoc]
  have hpos := serTree_length_pos l
  have hsi := structure_index hsb (by rw [List.length_append]; omega)
  rw [List.length_append, ← Nat.add_assoc] at hsi
  rw [exec_internal_of_ok (hcursor ▸ parseSubtree_flags hfl _ _ _ _) (parseSubtree_flags hfr _ _ _ _),
    List.length_append, Nat.add_mul, ← Nat.add_assoc, ← List.append_assoc, ← hsi]
  rfl

/-- Settles O42: LEAF by its definition, INTERNAL by `exec_internal_of_trees`. -/
theorem nodeForms : Obligations.NodeForms :=
  ⟨fun _ _ => rfl, fun _ _ _ _ _ => exec_internal_of_trees⟩

/-- Settles O43: were both subtrees parsed, they would stand at the cursors (`parse_ok`). -/
theorem internalMalformed : Obligations.InternalMalformed := by
  intro s h
  cases hl : parseSubtree s.cfg s.cursor with
  | error e => exact exec_internal_of_error (.inl hl)
  | ok p =>
    obtain ⟨l, k1⟩ := p
    cases hr : parseSubtree s.cfg k1 with
    | error e => exact exec_internal_of_error (.inr ⟨l, k1, hl, hr⟩)
    | ok q =>
      obtain ⟨r, k2⟩ := q
      obtain ⟨hfl, hsl, hul, -⟩ := parse_ok hl
      obtain ⟨hfr, hsr, hur, -⟩ := parse_ok hr
      refine absurd ?_ (h l r k2.sb k2.rd.unread (fits_internal.2 ⟨hfl, hfr⟩) ?_)
      · have hin : s.inputBits.drop s.rp = _ := hul
        rw [hin, hur, serTree_values, serTree_values, ← List.append_assoc, ← leafField_append]
        rfl
      · have hsb : s.sb.drop s.si = _ := hsl
        rw [hsb, hsr, List.append_assoc]

/-- A step that takes up a form runs the instruction it decodes to. -/
theorem step_of_form {s : State} {f : Form} {rest : List Event} {i : Instr} {sb : Bits} {r : Reader}
    (hev : s.events = .interpret f :: rest) (hwf : s.cfg.wf = true)
    (hp : f = .token → s.cfg.lengthBits < s.bitRemaining)
    (h : decodeForm s.cfg s.tree f (s.sb.drop s.si) s.reader = .ok (i, sb, r)) :
    step s = exec i { s with
      events := rest, si := s.sb.length - sb.length, rp := r.rp, tok := s.tok ++ asTokens i } :=
  step_of_run ((fetch_of_event hev).trans (fetchForm_of_ok (s := { s with events := rest }) hwf hp h))

/-- Settles O44: a leaf is read by its own form; at an internal node the form takes the structure bit 1, and INTERNAL reads
the subtrees behind it (`exec_internal_of_trees`). -/
theorem nodeStepParses : Obligations.NodeStepParses := by
  intro s t rest sbRest more hev hwf hf hsb hin
  have hsi := structure_index hsb (serTree_length_pos t)
  cases t with
  | leaf f =>
    have hlt : f < 2 ^ s.cfg.windowBits := hf f List.mem_cons_self
    have hin' : s.inputBits.drop s.rp = uN s.cfg.windowBits f ++ more := by
      rw [hin, flagsOf, List.flatMap_cons, List.flatMap_nil, List.append_nil]
    have hdec : decodeForm s.cfg s.tree .node (s.sb.drop s.si) s.reader =
        .ok (.leaf f, sbRest, ⟨s.rp + s.cfg.windowBits, more⟩) := by
      rw [hsb, State.reader, hin']
      simp [decodeForm, serTree, decodeNode, Reader.field_append _ _ _ _ _ hlt, nodeInstr]
    rw [step_of_form hev hwf (fun h => absurd h (by decide)) hdec, hsi]
    simp [exec, execLeaf, asTokens, flagsOf]
  | internal l r =>
    have hsb' : s.sb.drop s.si = true :: ((serTree l).1 ++ (serTree r).1 ++ sbRest) := hsb
    have hdec : decodeForm s.cfg s.tree .node (s.sb.drop s.si) s.reader =
        .ok (.internal, (serTree l).1 ++ (serTree r).1 ++ sbRest, s.reader) := by
      rw [hsb']
      rfl
    have hsi1 : s.sb.length - ((serTree l).1 ++ (serTree r).1 ++ sbRest).length = s.si + 1 :=
      structure_index (x := [true]) hsb' (Nat.le_refl 1)
    have hlen : s.si + (serTree (.internal l r)).1.length = s.si + 1 + (serTree l).1.length + (serTree r).1.length := by
      rw [serTree_internal, List.length_cons, List.length_append]
      omega
    have hbehind : s.sb.drop (s.si + 1) = (serTree l).1 ++ (serTree r).1 ++ sbRest := by
      rw [← List.drop_drop, hsb', List.drop_one, List.tail_cons]
    rw [step_of_form hev hwf (fun h => absurd h (by decide)) hdec, hsi1, asTokens, List.append_nil,
      State.reader_rp, exec_internal_of_trees (s := { s with events := rest, si := s.si + 1 }) hf hbehind hin, hlen]
    rfl

/-- Settles O45: the size decides; its bits are read from the front (`Reader.read_append`) or are not there
(`Reader.read_eq_none`). -/
theorem structSizeForm : Obligations.StructSizeForm := by
  intro s size
  refine ⟨fun h0 => ?_, fun sb more hpos hlen hin => ?_, fun hshort => ?_⟩
  · exact conclude_next.2 (.inl (if_pos h0))
  · refine conclude_next.2 (.inl ((if_neg (Nat.ne_of_gt hpos)).trans ?_))
    rw [readStructure, State.reader, hin, Reader.read_append _ _ _ _ hlen]
  · have hnone : s.reader.read size = none := Reader.read_eq_none.2 hshort
    refine ⟨s.raise headerElems .malformedHeader, conclude_next.2 (.inr ⟨_, (if_neg (by omega)).trans ?_, rfl⟩),
      State.raise_status _ _ _, State.raise_err _ _ _⟩
    rw [readStructure, hnone]

end Sys2Proof.Machine
end

section
/-! SUPPORT. ENCODE and DECODE as whole operations (45_container.md): what ENCODE leaves, and where each of DECODE's three
stages stops. -/

namespace Sys2Proof.Machine

/-- A payload takes at least one bit (R14a). -/
theorem one_le_lengthBits {c : Cfg} (h : c.wf = true) : 1 ≤ c.lengthBits := (by decide : 1 ≤ 8).trans (wf_lengthBits h)

/-! ## The header of `EMPTY` -/

/-- `EMPTY` has a header that fits: it has no flag and no structure bit. -/
theorem headerFits_none (c : Cfg) : HeaderFits c none := ⟨fun _ hf => absurd hf List.not_mem_nil, Nat.two_pow_pos _⟩

/-- A field that holds 0 is zero bits. -/
theorem uN_zero (n : Nat) : uN n 0 = List.replicate n false := by
  induction n with
  | zero => rfl
  | succ n ih => rw [uN, ih, Nat.zero_div, List.replicate_succ]; rfl

/-- The header of `EMPTY` is 64 zero bits (R152, R160). -/
theorem treeHeader_none (c : Cfg) : treeHeader c none = List.replicate 64 false := by
  rw [treeHeader_of_fits (headerFits_none c), ser, List.length_nil, uN_zero, leafField_nil, List.append_nil,
    List.append_nil, structSizeBits]

/-! ## ENCODE -/

/-- An ENCODE that goes on has completed: its tokens scan the text, its tree is theirs, and `FLAG` and `CODE` are the last
token's (R150; log entry 8). -/
theorem exec_encode_next {s t : State} (h : exec .encode s = .next t) :
    s.cfg.wf = true ∧ ScansTo s.cfg s.text 0 t.tok ∧ t.cfg = s.cfg ∧ t.tree = buildTree (freqOf t.tok) ∧
      t.flag = lastFlag t.tok ∧ t.code = lastCode t.tree t.tok := by
  have hwf : s.cfg.wf = true := (underConfig_next.1 h).1
  obtain ⟨a, ha, hscan⟩ := exists_tokenizeText s.cfg s.text
  obtain ⟨body, -, -, henc⟩ := encodeScan_spec hwf hscan
  obtain rfl := Host.Outcome.next.inj ((exec_encode_of_scan hwf ha henc).symm.trans h)
  exact ⟨hwf, by simpa using hscan, by simp, by simp, by simp, by simp⟩

/-- Settles O48: `exec_encode_next`; GETCODE reads the last token's flag as it is, for it fits, and BUILD's tree has a leaf
for it. -/
theorem encodeLeavesTheLastCode : Obligations.EncodeLeavesTheLastCode := by
  intro s t h
  obtain ⟨hwf, hscan, hcfg, htree, hflag, hcode⟩ := exec_encode_next h
  refine ⟨fun hnil => ?_, fun k hlast => ?_⟩
  · rw [hflag, hcode, hnil]
    exact ⟨rfl, rfl⟩
  · have hk : k ∈ t.tok := List.mem_of_getLast? hlast
    have hflag' : t.flag = k.flag := by rw [hflag, lastFlag, hlast, Option.map_some, Option.getD_some]
    have hfits : t.flag < t.cfg.windowSize := by
      rw [hflag', hcfg]
      exact (hscan.tokens_fit hwf k hk).1
    have hleaf : k.flag ∈ codeTreeFlags t.tree := by
      rw [htree]
      exact ((buildTree_flags t.tok).2 _).2 ⟨k, hk, rfl⟩
    obtain ⟨code, hc⟩ := Option.ne_none_iff_exists'.1 fun hnone => codeOf_eq_none.1 hnone hleaf
    have hcode' : t.code = code := by
      rw [hcode, lastCode, hlast, Option.map_some, Option.bind_some, hc, Option.getD_some]
    refine ⟨hflag', _, exec_getcode_of_code (code := code) (hcfg ▸ hwf) ?_, rfl, hcode'.symm⟩
    rw [State.flagOperand_of_lt hfits, hflag', hc]

/-- The scan of the empty text has no token. -/
theorem scansTo_empty {c : Cfg} {toks : List Token} (h : ScansTo c [] 0 toks) : toks = [] := by
  cases toks with
  | nil => rfl
  | cons k ks => exact absurd h.1 (Nat.lt_irrefl 0)

/-- Settles O49: no token, so the container is the header of `EMPTY`, 64 zero bits, which need no padding. -/
theorem encodeEmptyText : Obligations.EncodeEmptyText := by
  intro s hwf hlen
  obtain ⟨t, b, body, henc, hscan, -, -, hcoded, ht, -, hbits, -⟩ := encodeWritesTheContainer s hwf
  have htext : s.text = [] := List.length_eq_zero_iff.1 (s.text_length.trans hlen)
  rw [htext] at hscan
  have htok := scansTo_empty hscan
  obtain ⟨-, -, -, htree, -, -⟩ := exec_encode_next henc
  have hnone : t.tree = none := by rw [htree, htok]; rfl
  have hbtree : b.tree = none := (congrArg State.tree ht).symm.trans hnone
  rw [hbtree] at hcoded
  have hw : t.w = treeHeader s.cfg b.tree ++ body ++
    List.replicate (padLength (treeHeader s.cfg b.tree ++ body).length) false := (congrArg State.w ht :)
  refine ⟨t, henc, congrArg State.status ht, hnone, htok, bitsOf_inj (hbits.trans ?_)⟩
  rw [hw, hbtree, hcoded.2, treeHeader_none]
  decide

/-! ## DECODE, stage by stage -/

/-- DECODE stops where a stage of it stops (R155). -/
theorem exec_decode_of_error {s : State} {x : Stop} (hwf : s.cfg.wf = true) (h : decodeBits s s.inputBits = .error x) :
    exec .decode s = conclude decodeElems s (.error x) := by
  simp only [exec, execDecode, underConfig, hwf, h, if_true]

/-- DECODE raises the error a stage of it meets. -/
theorem exec_decode_raises {s : State} {e : ErrKind} (hwf : s.cfg.wf = true)
    (h : decodeBits s s.inputBits = .error (.raise e)) : ∃ u, exec .decode s = .next u ∧ Failed e u :=
  ⟨s.raise decodeElems e, exec_decode_of_error hwf h, State.raise_status _ _ _, State.raise_err _ _ _⟩

/-- The first stage stops where no header is read. -/
theorem decodeBits_of_no_header {s : State} {bits : Bits} {e : ErrKind} (h : deserialize s.cfg ⟨0, bits⟩ = .error e) :
    decodeBits s bits = .error (.raise .malformedHeader) := by
  simp only [decodeBits, h, deserialize_error h]

/-- The second stage stops where a token cannot be read behind the header. -/
theorem decodeBits_of_tokenLoop_error {s : State} {t : CodeTree} {bits more : Bits} {e : ErrKind}
    (hfit : HeaderFits s.cfg t) (hbits : bits = treeHeader s.cfg t ++ more)
    (h : tokenLoop s.cfg t more.length ⟨(treeHeader s.cfg t).length, more⟩ [] = .error e) :
    decodeBits s bits = .error (.raise e) := by
  have hheader := deserialize_header hfit 0 more
  rw [← hbits, Nat.zero_add] at hheader
  simp only [decodeBits, hheader, Reader.remaining, h]

/-- The third stage stops where the tokens, all read, do not replay. -/
theorem decodeBits_of_replay_error {s : State} {t : CodeTree} {toks : List Token} {body residual : Bits} {x : Stop}
    (hwf : s.cfg.wf = true) (hfit : HeaderFits s.cfg t) (hc : CodedUnder s.cfg t toks body)
    (hbits : s.inputBits = treeHeader s.cfg t ++ body ++ residual) (hres : residual.length ≤ s.cfg.lengthBits)
    (hleaf : ∀ f, t = some (.leaf f) → residual ≠ []) (h : replay toks Out.empty = .error x) :
    decodeBits s s.inputBits = .error x := by
  have hL := one_le_lengthBits hwf
  have hheader := deserialize_header hfit 0 (body ++ residual)
  rw [← List.append_assoc, ← hbits, Nat.zero_add] at hheader
  have hloop := tokenLoop_codedUnder hL hc hres (fun f hf _ => hleaf f hf) (treeHeader s.cfg t).length
  simp only [decodeBits, hheader, Reader.remaining, hloop, h]

/-- Settles O40: a reader that reads a header stands in front of one (`deserialize_ok`), and in front of a header
one is read (`deserialize_header`); DECODE's first stage is the same reading at bit 0. -/
theorem deserializeOnlyHeaders : Obligations.DeserializeOnlyHeaders := by
  refine ⟨fun s hwf hno => ?_, fun s hwf => ?_⟩
  · cases hd : deserialize s.cfg ⟨0, s.inputBits⟩ with
    | ok p =>
      obtain ⟨hfit, hread, -⟩ := deserialize_ok hd
      exact absurd hread (hno _ _ hfit)
    | error e => exact exec_decode_raises hwf (decodeBits_of_no_header hd)
  · cases hd : deserialize s.cfg s.reader with
    | ok p => exact ⟨_, exec_deserialize_of_ok hwf hd, .inl ⟨rfl, rfl, exec_deserialize_consumed hd⟩⟩
    | error e =>
      refine ⟨_, exec_deserialize_of_error hwf hd, .inr ⟨⟨State.raise_status _ _ _, State.raise_err _ _ _⟩, ?_⟩⟩
      intro t more hfit hin
      rw [State.reader, hin, deserialize_header hfit] at hd
      exact absurd hd (by simp)

/-- Settles O51: `exec_decode_of_container`. -/
theorem decodeReadsTheContainer : Obligations.DecodeReadsTheContainer :=
  fun _ _ _ _ _ => exec_decode_of_container

/-- The loop ends at a token that cannot be read. -/
theorem tokenLoop_of_error {c : Cfg} {tree : CodeTree} {r : Reader} {e : ErrKind} {rounds : Nat} {toks : List Token}
    (hlong : c.lengthBits < r.remaining) (h : decodeToken c tree r = .error e) :
    tokenLoop c tree (rounds + 1) r toks = .error e := by
  rw [tokenLoop, if_pos hlong, h]

/-- Settles O52: `EMPTY` has a header that fits; behind it the loop stops at once, or at the first token, which `EMPTY` has
no code for. -/
theorem decodeEmptyTree : Obligations.DecodeEmptyTree := by
  intro s more hwf hin
  have hfit := headerFits_none s.cfg
  rw [← treeHeader_none s.cfg] at hin
  refine ⟨fun hshort => ?_, fun hlong => ?_⟩
  · obtain ⟨m, hrun, -⟩ := exec_decode_of_container (toks := []) (body := []) hwf hfit ⟨rfl, rfl⟩
      (by rw [List.append_nil, hin]) hshort (fun f hf => absurd hf (by simp)) trivial
    refine ⟨_, hrun, rfl, rfl, rfl, rfl, rfl, ?_⟩
    show (treeHeader s.cfg none).length + 0 = 64
    rw [treeHeader_none, List.length_replicate]
  · refine exec_decode_raises hwf (decodeBits_of_tokenLoop_error hfit hin ?_)
    obtain ⟨n, hn⟩ : ∃ n, more.length = n + 1 := ⟨more.length - 1, by omega⟩
    rw [hn, tokenLoop_of_error (r := ⟨_, more⟩) hlong rfl]

/-- A token whose walk or payload runs out of bits is truncated (R159, D11). -/
theorem decodeToken_truncated {c : Cfg} {t : Tree} {r : Reader}
    (h : ∀ code f tail, r.unread = code ++ tail → follow t code = some (.leaf f) → tail.length < c.lengthBits) :
    decodeToken c (some t) r = .error .truncatedStream := by
  cases hd : decodeToken c (some t) r with
  | ok q =>
    obtain ⟨t', code, ht, hcode, -, hread, -⟩ := decodeToken_ok hd
    obtain rfl := Option.some.inj ht
    have hshort := h code q.1.flag _ (hread.trans (List.append_assoc _ _ _)) hcode
    rw [List.length_append, length_uN] at hshort
    omega
  | error e =>
    rcases decodeToken_error hd with ⟨ht, -⟩ | ⟨-, rfl⟩
    · exact absurd ht (by simp)
    · rfl

/-- Settles O53: the loop goes over the coded tokens (`tokenLoop_front`) and starts one more, which is truncated. -/
theorem decodeTruncated : Obligations.DecodeTruncated := by
  intro s t toks body rest hwf hfit hc hin hlong htrunc
  rw [List.append_assoc] at hin
  refine exec_decode_raises hwf (decodeBits_of_tokenLoop_error hfit hin ?_)
  have hL := one_le_lengthBits hwf
  have hcount := length_codedAs hL hc
  obtain ⟨n, hn⟩ : ∃ n, (body ++ rest).length = n + 1 + toks.length :=
    ⟨(body ++ rest).length - toks.length - 1, by rw [List.length_append]; omega⟩
  rw [hn, tokenLoop_front hc hlong, tokenLoop_of_error hlong (decodeToken_truncated htrunc)]

/-- Settles O54: the tokens are all read, and their replay underruns (`replay_underrun`). -/
theorem decodeUnderrun : Obligations.DecodeUnderrun := by
  intro s t front back k body residual hwf hfit hc hin hres hleaf hfront hlen hfar
  exact exec_decode_raises hwf
    (decodeBits_of_replay_error hwf hfit hc hin hres hleaf (replay_underrun back hfront hlen hfar))

/-- Settles O24: the replay refuses the literal where it reaches it (`replay_wide_literal`), in DETOKENIZE and in DECODE's
third stage; LIT alone refuses it at once. -/
theorem wideLiteralRefused : Obligations.WideLiteralRefused := by
  refine ⟨fun s front back k hwf htok hfront hf hwide => ?_,
    fun s t front back k body residual hwf hfit hc hin hres hleaf hfront hf hwide => ?_, fun s p hwide => ?_⟩
  · have hstop := replay_wide_literal back hfront hf hwide
    rw [← htok] at hstop
    exact exec_detokenize_of_stop hwf hstop
  · exact exec_decode_of_error hwf
      (decodeBits_of_replay_error hwf hfit hc hin hres hleaf (replay_wide_literal back hfront hf hwide))
  · have hlit : s.out.lit p = .error (.refuse (.literalTooWide p)) := if_neg (by omega)
    simp only [exec, execLit, hlit, conclude]

/-! ## Widths -/

/-- A DECODE that completes has read a coded token list, whose fields fit (R155). -/
theorem exec_decode_tokens_fit {s t : State} (h : exec .decode s = .next t) (hdone : t.status = .done) :
    ∀ k ∈ t.tok, TokenFits t.cfg k := by
  obtain ⟨hwf, hend⟩ := underConfig_next.1 h
  have hL := one_le_lengthBits hwf
  rcases conclude_next.1 hend with hok | ⟨e, -, rfl⟩
  · unfold decodeBits at hok
    cases hd : deserialize s.cfg ⟨0, s.inputBits⟩ with
    | error e => simp [hd] at hok
    | ok p =>
      cases hl : tokenLoop s.cfg p.tree p.rd.remaining p.rd [] with
      | error e => simp [hd, hl] at hok
      | ok q =>
        cases hr : replay q.1 Out.empty with
        | error x => simp [hd, hl, hr] at hok
        | ok o =>
          obtain ⟨toks, r⟩ := q
          simp only [hd, hl, hr] at hok
          obtain rfl := Except.ok.inj hok
          obtain ⟨ks, body, rfl, hc, -⟩ := tokenLoop_ok hL hl (Nat.le_refl _)
          exact hc.tokens_fit (deserialize_ok hd).1.1
  · exact absurd hdone (by simp)

/-- Settles O60: `heldToken` and `fitField` give fields that fit and keep those that do; the tokens of a scan and of a
container fit, and so does the last one's flag. -/
theorem fieldsHoldTheirWidth : Obligations.FieldsHoldTheirWidth := by
  refine ⟨fun s => ⟨s.tokens_fit, s.length_tokens, s.flagOperand_lt, fun i k hk hfits => ?_, State.flagOperand_of_lt⟩,
    fun s t i hi h hdone => State.tokens_of_fits ?_, fun s t h => State.flagOperand_of_lt ?_⟩
  · rw [State.tokens, List.getElem?_map, hk, Option.map_some, heldToken_of_fits hfits]
  · rcases hi with rfl | rfl | rfl
    · obtain ⟨hwf, a, rfl, hscan⟩ := exec_tokenize_next h
      exact hscan.tokens_fit hwf
    · obtain ⟨hwf, hscan, hcfg, -⟩ := exec_encode_next h
      exact hcfg ▸ hscan.tokens_fit hwf
    · exact exec_decode_tokens_fit h hdone
  · obtain ⟨hwf, hscan, hcfg, -, hflag, -⟩ := exec_encode_next h
    rw [hflag, hcfg, lastFlag]
    cases hlast : t.tok.getLast? with
    | none => exact Nat.two_pow_pos _
    | some k => exact (hscan.tokens_fit hwf k (List.mem_of_getLast? hlast)).1

end Sys2Proof.Machine
end

section
/-! SUPPORT. A container read form by form (30_encoding.md R84; log entry 4): the steps over its header, the steps over its
tokens, and that they end where DECODE ends. -/

namespace Sys2Proof.Machine

/-! ## The header -/

/-- A step that reads `struct_size` in front of a header runs STRUCT_SIZE with the number of its structure bits (R61). -/
theorem step_structSize {s : State} {t : CodeTree} {rest : List Event} {more : Bits}
    (hev : s.events = .interpret .structSize :: rest) (hwf : s.cfg.wf = true) (hfit : HeaderFits s.cfg t)
    (hin : s.inputBits.drop s.rp = treeHeader s.cfg t ++ more) :
    step s = exec (.structSize (ser t).1.length) { s with
      events := rest, si := s.sb.length - (s.sb.drop s.si).length, rp := s.rp + structSizeBits } := by
  have hdec : decodeForm s.cfg s.tree .structSize (s.sb.drop s.si) s.reader = .ok (.structSize (ser t).1.length,
      s.sb.drop s.si, ⟨s.rp + structSizeBits, (ser t).1 ++ (leafField s.cfg (ser t).2 ++ more)⟩) := by
    rw [State.reader, hin, treeHeader_of_fits hfit, List.append_assoc, List.append_assoc]
    simp only [decodeForm, decodeStructSize, Reader.field_append _ _ _ _ _ hfit.2]
  rw [step_of_form hev hwf (fun h => absurd h (by decide)) hdec, asTokens, List.append_nil]

/-- The steps over a header, `struct_size` and the root node where there is one, put its tree, structure bits and leaf
values in place, and both cursors behind it. -/
theorem run_header {s : State} {t : CodeTree} {rest : List Event} {more : Bits} (n : Nat)
    (hev : s.events = .interpret .structSize :: ((if t = none then [] else [Event.interpret .node]) ++ rest))
    (hwf : s.cfg.wf = true) (hfit : HeaderFits s.cfg t) (hin : s.inputBits.drop s.rp = treeHeader s.cfg t ++ more) :
    (Sys2Proof.core.run (n + (if t = none then 1 else 2)) s : Host.Outcome State Fault Refusal) =
      Sys2Proof.core.run n ({ s with
        events := rest, tree := t, sb := (ser t).1, lv := (ser t).2, si := (ser t).1.length
        rp := s.rp + (treeHeader s.cfg t).length } : State) := by
  cases t with
  | none =>
    have hstep := step_structSize hev hwf hfit hin
    have h1 := hstep.trans ((structSizeForm _ _).1 rfl)
    rw [if_pos rfl, run_next h1, treeHeader_none, List.length_replicate]
    rfl
  | some t =>
    have hlen : (treeHeader s.cfg (some t)).length =
        structSizeBits + (serTree t).1.length + (flagsOf t).length * s.cfg.windowBits := by
      rw [treeHeader, length_headerBits, ser_values]
      rfl
    have hev : s.events = .interpret .structSize :: .interpret .node :: rest := by simpa using hev
    have hstep := step_structSize hev hwf hfit hin
    rw [treeHeader_of_fits hfit, ser_values] at hin
    have hin1 : s.inputBits.drop (s.rp + structSizeBits) =
        (serTree t).1 ++ (leafField s.cfg (flagsOf t) ++ more) := by
      rw [← List.drop_drop, hin, List.append_assoc, List.append_assoc, List.drop_left' (length_uN _ _)]
      rfl
    have hin2 : s.inputBits.drop (s.rp + structSizeBits + (serTree t).1.length) =
        leafField s.cfg (flagsOf t) ++ more := by
      rw [← List.drop_drop, hin1, List.drop_left]
    have h1 : step s = .next { s with
        events := .interpret .node :: rest, sb := (serTree t).1, lv := [], si := 0
        rp := s.rp + structSizeBits + (serTree t).1.length } :=
      hstep.trans ((structSizeForm _ _).2.1 (serTree t).1 _ (serTree_length_pos t) rfl hin1)
    have h2 := nodeStepParses { s with
      events := .interpret .node :: rest, sb := (serTree t).1, lv := [], si := 0
      rp := s.rp + structSizeBits + (serTree t).1.length } t rest [] more rfl hwf hfit.1 (List.append_nil _).symm hin2
    rw [if_neg (by simp), ← Nat.add_assoc n 1 1, run_next h1, run_next h2, hlen]
    simp only [ser, serTree_values, Nat.zero_add, List.nil_append, Nat.add_assoc]

/-! ## The tokens -/

/-- The instruction of a token does to the output what the token does in a replay (42_tokenstream.md R110). -/
theorem exec_instr_of_token {s : State} {k : Token} {o : Out} (h : s.out.token k = .ok o) :
    exec k.instr s = .next (s.withOut o) := by
  unfold Out.token at h
  unfold Token.instr
  by_cases hf : k.flag = 0
  · rw [if_pos hf] at h ⊢
    exact conclude_next.2 (.inl (by rw [h]))
  · rw [if_neg hf] at h ⊢
    exact conclude_next.2 (.inl (by rw [h]))

/-- A token's instruction is recorded as the token. -/
theorem asTokens_instr (k : Token) : asTokens k.instr = [k] := by
  obtain ⟨f, p⟩ := k
  unfold Token.instr
  split
  · rename_i hf
    obtain rfl : f = 0 := hf
    rfl
  · rfl

/-- A step over a coded token records it, replays it and moves `RP` over it. -/
theorem step_token {s : State} {t : Tree} {k : Token} {code more : Bits} {rest : List Event} {o : Out}
    (hev : s.events = .interpret .token :: rest) (hwf : s.cfg.wf = true) (htree : s.tree = some t)
    (hsi : s.si ≤ s.sb.length) (hcode : follow t code = some (.leaf k.flag)) (hp : k.payload < s.cfg.lengthSize)
    (hin : s.inputBits.drop s.rp = code ++ uN s.cfg.lengthBits k.payload ++ more)
    (hmore : t = .leaf k.flag → more ≠ []) (ho : s.out.token k = .ok o) :
    step s = .next (State.withOut { s with
      events := rest, tok := s.tok ++ [k], rp := s.rp + (code.length + s.cfg.lengthBits) } o) := by
  have hdec : decodeForm s.cfg s.tree .token (s.sb.drop s.si) s.reader =
      .ok (k.instr, s.sb.drop s.si, ⟨s.rp + code.length + s.cfg.lengthBits, more⟩) := by
    rw [State.reader, hin, htree]
    simp only [decodeForm, decodeToken_coded hcode hp]
  have hsi' : s.sb.length - (s.sb.drop s.si).length = s.si := by
    rw [List.length_drop]
    omega
  have hlong : s.cfg.lengthBits < s.bitRemaining := by
    have hlen : s.bitRemaining = code.length + s.cfg.lengthBits + more.length := by
      rw [State.bitRemaining, Reader.remaining, State.reader_unread, hin, List.length_append, List.length_append, length_uN]
    cases code with
    | nil =>
      have := List.length_pos_iff.2 (hmore (follow_nil hcode))
      omega
    | cons b code =>
      rw [List.length_cons] at hlen
      omega
  rw [step_of_form hev hwf (fun _ => hlong) hdec, hsi', asTokens_instr, Nat.add_assoc]
  exact exec_instr_of_token ho

/-- Where nothing is pending, recording no token and moving `RP` by nothing leaves the state as it is. -/
theorem withOut_out_of_idle {s : State} (h : s.events = []) :
    State.withOut { s with events := [], tok := s.tok ++ [], rp := s.rp + 0 } s.out = s := by
  rw [List.append_nil, ← h]
  rfl

/-- The steps over a coded token list that replays record it, replay it and move `RP` over it; behind the tokens of a
single-leaf tree at least one bit follows (R201). -/
theorem run_tokens {s : State} {t : Tree} {ks : List Token} {body residual : Bits} {o : Out}
    (hev : s.events = List.replicate ks.length (.interpret .token)) (hwf : s.cfg.wf = true) (htree : s.tree = some t)
    (hsi : s.si ≤ s.sb.length) (hc : CodedAs s.cfg t ks body) (hin : s.inputBits.drop s.rp = body ++ residual)
    (hleaf : ∀ f, t = .leaf f → ks ≠ [] → residual ≠ []) (ho : replay ks s.out = .ok o) :
    (Sys2Proof.core.run ks.length s : Host.Outcome State Fault Refusal) = .next (State.withOut { s with
      events := [], tok := s.tok ++ ks, rp := s.rp + body.length } o) := by
  induction ks generalizing s body with
  | nil =>
    obtain rfl : body = [] := hc
    obtain rfl := Except.ok.inj ho
    exact congrArg Host.Outcome.next (withOut_out_of_idle hev).symm
  | cons k ks ih =>
    obtain ⟨code, rest, hcode, hp, hrest, rfl⟩ := hc
    cases ho1 : s.out.token k with
    | error x => simp [replay, ho1] at ho
    | ok o1 =>
      simp only [replay, ho1] at ho
      have hin1 : s.inputBits.drop s.rp = code ++ uN s.cfg.lengthBits k.payload ++ (rest ++ residual) := by
        rw [hin, List.append_assoc _ rest]
      have hstep := step_token hev hwf htree hsi hcode hp hin1
        (fun h => List.append_ne_nil_of_right_ne_nil _ (hleaf _ h (List.cons_ne_nil k ks))) ho1
      have hin2 : s.inputBits.drop (s.rp + (code.length + s.cfg.lengthBits)) = rest ++ residual := by
        rw [← List.drop_drop, hin1, List.drop_left' (by rw [List.length_append, length_uN])]
      rw [List.length_cons, run_next hstep]
      rw [ih (s := State.withOut { s with
        events := List.replicate ks.length (.interpret .token), tok := s.tok ++ [k]
        rp := s.rp + (code.length + s.cfg.lengthBits) } o1) rfl hwf htree hsi hrest hin2
        (fun f hf _ => hleaf f hf (List.cons_ne_nil k ks)) ho]
      simp [State.withOut, Nat.add_assoc]

/-- `run_tokens` under any code tree; under `EMPTY` there is no token. -/
theorem run_tokens_codedUnder {s : State} {ks : List Token} {body residual : Bits} {o : Out}
    (hev : s.events = List.replicate ks.length (.interpret .token)) (hwf : s.cfg.wf = true)
    (hsi : s.si ≤ s.sb.length) (hc : CodedUnder s.cfg s.tree ks body) (hin : s.inputBits.drop s.rp = body ++ residual)
    (hleaf : ∀ f, s.tree = some (.leaf f) → ks ≠ [] → residual ≠ []) (ho : replay ks s.out = .ok o) :
    (Sys2Proof.core.run ks.length s : Host.Outcome State Fault Refusal) = .next (State.withOut { s with
      events := [], tok := s.tok ++ ks, rp := s.rp + body.length } o) := by
  cases htree : s.tree with
  | none =>
    rw [htree] at hc
    obtain ⟨rfl, rfl⟩ := hc
    obtain rfl := Except.ok.inj ho
    rw [← htree]
    exact congrArg Host.Outcome.next (withOut_out_of_idle hev).symm
  | some t =>
    rw [htree] at hc
    rw [← htree]
    exact run_tokens hev hwf htree hsi hc hin (fun f hf => hleaf f (htree.trans (congrArg some hf))) ho

/-- Settles O55: `run_header`, then `run_tokens_codedUnder` from the empty output; DECODE of the same container is
`exec_decode_of_container`, and both outputs hold the bytes the tokens stand for. -/
theorem formByFormEqualsDecode : Obligations.FormByFormEqualsDecode := by
  intro s t toks body residual hwf hfit hc hin hres hleaf hrep hobuf hcur hrp htok hev
  obtain ⟨m, hdec, -, hbytes⟩ := exec_decode_of_container hwf hfit hc hin hres hleaf hrep
  obtain ⟨m', hreplay, -, hbytes'⟩ := replay_expand hrep
  have hsteps : s.events.length = toks.length + (if t = none then 1 else 2) := by
    rw [hev]
    split <;> simp
  have hfront : s.inputBits.drop s.rp = treeHeader s.cfg t ++ (body ++ residual) := by
    rw [hrp, List.drop_zero, hin, List.append_assoc]
  have hbehind : s.inputBits.drop (s.rp + (treeHeader s.cfg t).length) = body ++ residual := by
    rw [← List.drop_drop, hfront, List.drop_left]
  have hempty : s.out = Out.empty := by rw [State.out, hobuf, hcur, Out.empty]
  rw [← hempty] at hreplay
  have hrun := (run_header toks.length hev hwf hfit hfront).trans
    (run_tokens_codedUnder (s := { s with
      events := List.replicate toks.length (.interpret .token), tree := t, sb := (ser t).1, lv := (ser t).2
      si := (ser t).1.length, rp := s.rp + (treeHeader s.cfg t).length }) rfl hwf (Nat.le_refl _) hc hbehind hleaf hreplay)
  rw [← hsteps] at hrun
  refine ⟨_, _, hrun, hdec, rfl, rfl, rfl, rfl, ?_, ?_, rfl, hbytes'.trans hbytes.symm, rfl⟩
  · exact (congrArg (· ++ toks) htok).trans (List.nil_append toks)
  · exact congrArg (· + body.length) ((congrArg (· + _) hrp).trans (Nat.zero_add _))

end Sys2Proof.Machine
end
